-- ==== Sys2Proof/Word.lean ====
section
/-! DEFINITION. The word types of the Telegraph bit-sync engine: the 32-bit command word (R70), the byte (R53) and the
logical level of a line (R8). -/

namespace Sys2Proof

/-- A command word, extension word or response word: 32 bits (R70, R78). -/
abbrev Word := BitVec 32

/-- One byte of a FIFO or of a payload (R53); also the 8-bit pin number and channel index (R75). -/
abbrev Byte := BitVec 8

/-- A logical line level: `true` is 1, a high line, and `false` is 0, a low line (R8). -/
abbrev Level := Bool

end Sys2Proof
end

