-- ==== Sys2Proof/Syntax.lean ====
section
/-! DEFINITION. The commands of the block: one constructor for each of the 15 rows of the opcode map (R74), with the
operands of R75. A byte string is carried as its bytes, byte 0 first (R73); its length is the count field `B`. -/

namespace Sys2Proof

/-- The kind of a channel: the `K` bit of a header (R71) and the `kind` field of a channel record (R21). -/
inductive Kind where
  | talker
  | listener
deriving DecidableEq, Repr

/-- A command with its operands (R74, R75). -/
inductive Instr where
  /-- `LISTEN pin, baud` (R180). -/
  | listen (pin : Byte) (baud : Word)
  /-- `TALK pin, baud` (R181). -/
  | talk (pin : Byte) (baud : Word)
  /-- `BEGIN` (R183). -/
  | begin
  /-- `TICK` (R184). -/
  | tick
  /-- `AWAIT_ALL` (R186). -/
  | awaitAll
  /-- `SEND t<i>, [bytes]` (R167). -/
  | send (i : Byte) (bytes : List Byte)
  /-- `TELL t<i>, [bytes]` (R168). -/
  | tell (i : Byte) (bytes : List Byte)
  /-- `READ l<i>` (R139). -/
  | read (i : Byte)
  /-- `PEEK l<i>` (R140). -/
  | peek (i : Byte)
  /-- `BUFFERED_COUNT h`, with `h = (k, i)` (R124). -/
  | bufferedCount (k : Kind) (i : Byte)
  /-- `IS_AVAILABLE h` (R122). -/
  | isAvailable (k : Kind) (i : Byte)
  /-- `RECIEVE l<i>, n` (R142). -/
  | recieve (i : Byte) (n : BitVec 16)
  /-- `IS_ACTIVATED h` (R123). -/
  | isActivated (k : Kind) (i : Byte)
  /-- `AWAIT l<i>` (R141). -/
  | await (i : Byte)
  /-- `RESET h` (R121). -/
  | reset (k : Kind) (i : Byte)
deriving DecidableEq, Repr

end Sys2Proof
end

