-- ==== Sys2Proof/WellFormed.lean ====
section
/-! DEFINITION. When a command can be spelled in words. Every operand but a byte string has the width of its field by
its type; a byte string must have a length the 16-bit count field `B` can hold (R71, R77). -/

namespace Sys2Proof

/-- The check on a byte string: its length fits the count field `B`, which is 16 bits (R71, R77: at most 65535). -/
def payloadFits (bytes : List Byte) : Bool := bytes.length < 65536

/-- A command that some sequence of words encodes. -/
def Instr.wellFormed : Instr → Bool
  | .listen _ _ => true
  | .talk _ _ => true
  | .begin => true
  | .tick => true
  | .awaitAll => true
  | .send _ bytes => payloadFits bytes
  | .tell _ bytes => payloadFits bytes
  | .read _ => true
  | .peek _ => true
  | .bufferedCount _ _ => true
  | .isAvailable _ _ => true
  | .recieve _ _ => true
  | .isActivated _ _ => true
  | .await _ => true
  | .reset _ _ => true

end Sys2Proof
end

