-- ==== Sys2Proof/Decode.lean ====
section
/-! DEFINITION. Decoding of command words (R70 to R77, R81, R86) and, after it, the encoder, written from the same rules.
Decoding is total on every list of words: it gives a command and the words after it, or says by name why it gives none. -/

namespace Sys2Proof

/-- The opcode of a row of the opcode map (R74). -/
inductive Opcode where
  | listen | talk | begin | tick | awaitAll | send | tell | read | peek | bufferedCount | isAvailable | recieve
  | isActivated | await | reset
deriving DecidableEq, Repr

/-- A row of the opcode map: a header selects it when `header & mask = pattern` (R76). -/
structure OpcodeRow where
  op : Opcode
  pattern : Word
  mask : Word
deriving DecidableEq, Repr

/-- The opcode map of R74. -/
def opcodeTable : List OpcodeRow :=
  [ ⟨.listen,        0x10000000, 0xFF00FFFF⟩,
    ⟨.talk,          0x20000000, 0xFF00FFFF⟩,
    ⟨.begin,         0x30000000, 0xFFFFFFFF⟩,
    ⟨.tick,          0x40000000, 0xFFFFFFFF⟩,
    ⟨.awaitAll,      0x50000000, 0xFFFFFFFF⟩,
    ⟨.send,          0x60000000, 0xFF000000⟩,
    ⟨.tell,          0x70000000, 0xFF000000⟩,
    ⟨.read,          0x88000000, 0xFF00FFFF⟩,
    ⟨.peek,          0x98000000, 0xFF00FFFF⟩,
    ⟨.bufferedCount, 0xA0000000, 0xF700FFFF⟩,
    ⟨.isAvailable,   0xB0000000, 0xF700FFFF⟩,
    ⟨.recieve,       0xC8000000, 0xFF000000⟩,
    ⟨.isActivated,   0xD0000000, 0xF700FFFF⟩,
    ⟨.await,         0xE8000000, 0xFF00FFFF⟩,
    ⟨.reset,         0xF0000000, 0xF700FFFF⟩ ]

/-- The header's bits fit the row's fixed bits (R76). -/
def OpcodeRow.selects (r : OpcodeRow) (header : Word) : Bool := header &&& r.mask == r.pattern

/-- The opcode of the row the header selects, if any (R76; no two rows select one header, R74). -/
def selectOpcode (header : Word) : Option Opcode := (opcodeTable.find? (·.selects header)).map (·.op)

/-- Field `A`, bits 23..16: the channel index, or the pin (R71, R75). -/
def fieldA (header : Word) : Byte := header.extractLsb' 16 8

/-- Field `B`, bits 15..0: the byte count (R71, R75). -/
def fieldB (header : Word) : BitVec 16 := header.extractLsb' 0 16

/-- Field `K`, bit 27: 0 is TALKER, 1 is LISTENER (R71). -/
def fieldK (header : Word) : Kind := if header.getLsbD 27 then .listener else .talker

/-- The number of extension words, from the header alone (R72, R77). -/
def extWords (op : Opcode) (b : BitVec 16) : Nat :=
  match op with
  | .listen | .talk => 1
  | .send | .tell => (b.toNat + 3) / 4
  | .begin | .tick | .awaitAll | .read | .peek | .bufferedCount | .isAvailable | .recieve | .isActivated | .await
  | .reset => 0

/-- The four bytes a payload word carries, the low byte first (R54, R73). -/
def wordBytes (w : Word) : List Byte :=
  [w.extractLsb' 0 8, w.extractLsb' 8 8, w.extractLsb' 16 8, w.extractLsb' 24 8]

/-- The payload of `n` bytes that the words carry; `none` if an unused byte is not 0 (R73, R76 step 4). -/
def payload (ext : List Word) (n : Nat) : Option (List Byte) :=
  let bytes := ext.flatMap wordBytes
  if (bytes.drop n).all (· == 0) then some (bytes.take n) else none

/-- The command that a header with a known opcode and its extension words spell; `none` if unused payload bytes are not
0 (R75, R76). -/
def operands (op : Opcode) (header : Word) (ext : List Word) : Option Instr :=
  match op with
  | .listen => some (.listen (fieldA header) (ext.headD 0))
  | .talk => some (.talk (fieldA header) (ext.headD 0))
  | .begin => some .begin
  | .tick => some .tick
  | .awaitAll => some .awaitAll
  | .send => (payload ext (fieldB header).toNat).map (.send (fieldA header))
  | .tell => (payload ext (fieldB header).toNat).map (.tell (fieldA header))
  | .read => some (.read (fieldA header))
  | .peek => some (.peek (fieldA header))
  | .bufferedCount => some (.bufferedCount (fieldK header) (fieldA header))
  | .isAvailable => some (.isAvailable (fieldK header) (fieldA header))
  | .recieve => some (.recieve (fieldA header) (fieldB header))
  | .isActivated => some (.isActivated (fieldK header) (fieldA header))
  | .await => some (.await (fieldA header))
  | .reset => some (.reset (fieldK header) (fieldA header))

/-- What decoding a list of words gives. -/
inductive Decoded where
  /-- A command, and the words after it. -/
  | command (i : Instr) (rest : List Word)
  /-- No row matches the header: ILLEGAL_COMMAND; only the header is consumed (R76 step 2, R77). -/
  | unknownHeader (header : Word) (rest : List Word)
  /-- An unused payload byte is not 0: ILLEGAL_COMMAND (R76 step 4). -/
  | reservedPayload (header : Word) (rest : List Word)
  /-- The header or one of its extension words has not been delivered (R70). -/
  | incomplete
deriving DecidableEq, Repr

/-- Decode the first command of a list of words, in the order of R76. -/
def decode : List Word → Decoded
  | [] => .incomplete
  | header :: ws =>
    match selectOpcode header with
    | none => .unknownHeader header ws
    | some op =>
      let n := extWords op (fieldB header)
      if ws.length < n then .incomplete
      else
        match operands op header (ws.take n) with
        | none => .reservedPayload header (ws.drop n)
        | some i => .command i (ws.drop n)

/-- The words of the command whose bits are `w`, numbered from bit 0 of the header; bits at `nbits` and above are 0. -/
def tableWords (nbits w : Nat) : List Word :=
  let v := w % 2 ^ nbits
  let header := BitVec.ofNat 32 v
  let n := match selectOpcode header with
    | none => 0
    | some op => extWords op (fieldB header)
  header :: (List.range n).map fun m => BitVec.ofNat 32 (v >>> (32 * (m + 1)))

/-- The command the decoder reads from the words of `w`. -/
def decodeTableWord (nbits w : Nat) : Option Instr :=
  match decode (tableWords nbits w) with
  | .command i _ => some i
  | .unknownHeader _ _ => none
  | .reservedPayload _ _ => none
  | .incomplete => none

/-- A header from its fields: OP[31:28], K[27], RSV[26:24] = 0, A[23:16], B[15:0] (R71). -/
def headerWord (op : BitVec 4) (k : Kind) (a : Byte) (b : BitVec 16) : Word :=
  op ++ BitVec.ofBool (k == .listener) ++ 0#3 ++ a ++ b

/-- The header word of a command (R71, R74). -/
def encodeHeader : Instr → Word
  | .listen pin _ => headerWord 0x1 .talker pin 0
  | .talk pin _ => headerWord 0x2 .talker pin 0
  | .begin => headerWord 0x3 .talker 0 0
  | .tick => headerWord 0x4 .talker 0 0
  | .awaitAll => headerWord 0x5 .talker 0 0
  | .send i bytes => headerWord 0x6 .talker i (BitVec.ofNat 16 bytes.length)
  | .tell i bytes => headerWord 0x7 .talker i (BitVec.ofNat 16 bytes.length)
  | .read i => headerWord 0x8 .listener i 0
  | .peek i => headerWord 0x9 .listener i 0
  | .bufferedCount k i => headerWord 0xA k i 0
  | .isAvailable k i => headerWord 0xB k i 0
  | .recieve i n => headerWord 0xC .listener i n
  | .isActivated k i => headerWord 0xD k i 0
  | .await i => headerWord 0xE .listener i 0
  | .reset k i => headerWord 0xF k i 0

/-- A payload word from its bytes, the first in the low byte (R54, R73). -/
def packWord (b0 b1 b2 b3 : Byte) : Word := b3 ++ b2 ++ b1 ++ b0

/-- The payload words of a byte string; unused bytes of the last word are 0 (R73). -/
def packBytes : List Byte → List Word
  | [] => []
  | [b0] => [packWord b0 0 0 0]
  | [b0, b1] => [packWord b0 b1 0 0]
  | [b0, b1, b2] => [packWord b0 b1 b2 0]
  | b0 :: b1 :: b2 :: b3 :: bs => packWord b0 b1 b2 b3 :: packBytes bs

/-- The extension words of a command (R72). -/
def encodeExt : Instr → List Word
  | .listen _ baud => [baud]
  | .talk _ baud => [baud]
  | .send _ bytes => packBytes bytes
  | .tell _ bytes => packBytes bytes
  | .begin => []
  | .tick => []
  | .awaitAll => []
  | .read _ => []
  | .peek _ => []
  | .bufferedCount _ _ => []
  | .isAvailable _ _ => []
  | .recieve _ _ => []
  | .isActivated _ _ => []
  | .await _ => []
  | .reset _ _ => []

/-- The words of a well-formed command: its header and then its extension words (R70). -/
def encode (i : Instr) : List Word := encodeHeader i :: encodeExt i

end Sys2Proof
end

