-- ==== Sys2Proof/Config.lean ====
section
/-! DEFINITION. The implementation parameters of R4, held as one record that a machine keeps for its whole life, and the
free values: what the environment answers to a clock or line read that no script of the state foretells (R9, I3, I5). -/

namespace Sys2Proof

/-- The order of the 8 data bits on the wire, one choice for the whole block (R4, R55). -/
inductive BitOrder where
  | lsbFirst
  | msbFirst
deriving DecidableEq, Repr

/-- The parameters of R4. Their default values are `Machine.defaultConfig`. -/
structure Config where
  /-- `MAX_LISTENERS`. -/
  maxListeners : Nat
  /-- `MAX_TALKERS`. -/
  maxTalkers : Nat
  /-- `C`, also called `BUFFER_MAX_SIZE`: the capacity in bytes of every channel's FIFO. -/
  bufferMaxSize : Nat
  /-- `MIN_AVAILABLE_DELTA`, in microseconds. -/
  minAvailableDelta : Nat
  /-- `CLK_W`: the width in bits of the clock value. -/
  clkW : Nat
  /-- `BIT_ORDER`. -/
  bitOrder : BitOrder
  /-- `SETTLE_PERIODS`: the settling wait of `RECIEVE` in bit periods. -/
  settlePeriods : Nat
  /-- `DELAY_MICROS_MAX`: OPEN in R4 (`none`), and used by no rule (R105). -/
  delayMicrosMax : Option Nat
deriving DecidableEq, Repr

/-- `M = 2^CLK_W`, the modulus of the clock (R4). -/
def Config.modulus (p : Config) : Nat := 2 ^ p.clkW

/-- The legal values of the parameters (R4). -/
abbrev Config.Legal (p : Config) : Prop :=
  (1 ≤ p.maxListeners ∧ p.maxListeners ≤ 256) ∧
  (1 ≤ p.maxTalkers ∧ p.maxTalkers ≤ 256) ∧
  (∃ k : Fin 16, p.bufferMaxSize = 2 ^ k.val) ∧
  (1 ≤ p.minAvailableDelta ∧ p.minAvailableDelta < 2 ^ p.clkW) ∧
  (p.clkW = 32 ∨ p.clkW = 64) ∧
  p.settlePeriods < 65536

/-- FREE VALUE (log entry 1): what `now_micros()` answers to the `k`-th clock read past the scripted ones. It has no
body, so a statement that holds of it holds whatever the clock shows (R9, R213, I3). -/
opaque Config.freeClock : Nat → BitVec 64

/-- FREE VALUE (log entry 1): the level `read_level(pin)` answers to the `k`-th line read past the scripted ones (R9,
R212, I5). -/
opaque Config.freeLevel : Byte → Nat → Level

end Sys2Proof
end

