-- ==== Sys2Proof/Machine/Defaults.lean ====
section
/-! DEFINITION. The default value R4 gives each parameter. The rules never use these numbers; they read the parameter. -/

namespace Sys2Proof.Machine

/-- The default parameters of R4. `DELAY_MICROS_MAX` is OPEN there: no value. -/
def defaultConfig : Config where
  maxListeners := 6
  maxTalkers := 6
  bufferMaxSize := 16
  minAvailableDelta := 500000
  clkW := 32
  bitOrder := .lsbFirst
  settlePeriods := 10
  delayMicrosMax := none

end Sys2Proof.Machine
end

