-- ==== Sys2Proof/Machine/State.lean ====
section
/-! DEFINITION. The block's state as plain data: the block record of R20 with its channel records (R21), FIFOs (R37),
engine record (R40), line history (R41) and fault record (R25); and, beside it, the model's own fields that hold what R9
calls inputs: the parameters, the host's port and the environment's draws. The reasons a step can stop stand here too. -/

namespace Sys2Proof.Machine

/-- A handle names a channel: its kind and its 0-based slot (R26). -/
structure Handle where
  kind : Kind
  index : Nat
deriving DecidableEq, Repr

/-- The FIFO of one channel: `C` slots of 8 bits and two unbounded cursors (R37). -/
structure Fifo where
  slots : List Byte
  start : Nat
  stop : Nat
deriving DecidableEq, Repr

/-- A channel record (R21). A timestamp is a natural below `2^CLK_W` (log entry 7). -/
structure Channel where
  kind : Kind
  pin : Byte
  /-- `bit_period_us`, the bit period `T` (R102). -/
  bitPeriodUs : BitVec 32
  /-- `time_anchor`, `CLK_W` bits (R28). -/
  timeAnchor : Nat
  activated : Bool
  midActivated : Bool
  available : Bool
  previousLevel : Level
  accumulator : Byte
  /-- `bits_done`, 4 bits, 0 to 8 (R35). -/
  bitsDone : BitVec 4
  configured : Bool
  buf : Fifo
deriving DecidableEq, Repr

/-- The phase of a `RECIEVE` in progress (R40, R143). -/
inductive RecievePhase where
  /-- `RV_AVAIL`: waiting for availability. -/
  | avail
  /-- `RV_SETTLE`: waiting out the settling period. -/
  | settle
  /-- `RV_BYTES`: decoding bytes. -/
  | bytes
deriving DecidableEq, Repr

/-- The engine record: the blocking command in progress, if any (R40). -/
inductive Engine where
  | idle
  | await (i : Nat)
  | awaitAll
  /-- `TELL(i, sched, idx, t0)`; `t0 = none` is UNSET. -/
  | tell (i : Nat) (sched : List (Nat × Level)) (idx : Nat) (t0 : Option Nat)
  | recieve (i : Nat) (n : Nat) (rphase : RecievePhase) (ts : Nat)
deriving DecidableEq, Repr

/-- The direction of a pin (R7). -/
inductive Direction where
  | input
  | output
deriving DecidableEq, Repr

/-- One line event: what the block drove onto or asked of its pins, with the clock value of the step (R7, R41). -/
inductive LineEvent where
  | write (pin : Byte) (level : Level) (t : Nat)
  | dir (pin : Byte) (d : Direction) (t : Nat)
deriving DecidableEq, Repr

/-- The fault codes of R203. -/
inductive FaultCode where
  | bufferFull
  | bufferEmpty
  | invalidHandle
  | capacityExceeded
  | receiveTooLong
  | illegalCommand
  | zeroBaud
  | notConfigured
  | mixedPath
deriving DecidableEq, Repr

/-- The fault register's content once a fault is raised: the code and the header of the faulting command (R25). -/
structure FaultRecord where
  code : FaultCode
  header : Word
deriving DecidableEq, Repr

/-- The environment's answers to come (R9). `clock` and `lines` are the answers already foretold, oldest first: any
lists at all. When a list has run out, the answer is a free value of `Config`, numbered by the counter (log entry 1). -/
structure Env where
  /-- Foretold answers of `now_micros()`, each a `u64` (R213). -/
  clock : List (BitVec 64)
  /-- Foretold answers of `read_level`, in the order of the reads (R212). -/
  lines : List Level
  /-- The number of clock reads answered by a free value so far. -/
  clockReads : Nat
  /-- The number of line reads answered by a free value so far. -/
  lineReads : Nat
deriving DecidableEq, Repr

/-- The state of the machine. The first group is the block record of R20; `n_talkers` and `n_listeners` are the lengths
of the slot lists (log entry 6). The second group is the model's own: what R9 calls inputs of the step relation and the
outputs the host reads (log entries 1, 2, 3, 9, 10). -/
structure State where
  /-- `talkers[0 .. n_talkers-1]`: the allocated transmit slots. -/
  talkers : List Channel
  /-- `listeners[0 .. n_listeners-1]`: the allocated receive slots. -/
  listeners : List Channel
  /-- Registration order (R24). -/
  order : List Handle
  /-- The sticky fault register; `none` is NONE (R25). -/
  fault : Option FaultRecord
  engine : Engine
  /-- Every `WriteLine` and `ConfigureDirection` issued, oldest first (R41). -/
  history : List LineEvent
  /-- The parameters of R4; no step writes them. -/
  cfg : Config
  /-- The command words the host has delivered and the block has not taken yet, oldest first (R70, R9). -/
  inbox : List Word
  /-- The response words returned to the host, oldest first (R78, R224). -/
  responses : List Word
  /-- The environment's answers to come (R9). -/
  env : Env
  /-- The host asks for a power-on reset (R242). -/
  resetRequest : Bool
deriving DecidableEq, Repr

/-- Why the machine stops. A fault of the block itself is no stop of the step that raises it: that step records the
fault and is a next state (R202). -/
inductive Fault where
  /-- Raised by `step` and by every meaning in a state whose fault register is not NONE: the block accepts no command
  and performs no step (R206). Safe: it is the spec's own stop. -/
  | stopped (code : FaultCode) (header : Word)
  /-- Raised by a meaning, never by `step`, when it is asked to start a command while a blocking command runs: the host
  has no such move (R242, I20). Safe: nothing happens there. -/
  | busy
  /-- Raised by a micro-step whose engine record names a slot that holds no channel, or a schedule entry past the end.
  No run reaches such a state (log entry 8). Safe: nothing happens there. -/
  | noSuchRecord
deriving DecidableEq, Repr

/-- Why the model has no meaning for a command. -/
inductive Refusal where
  /-- Raised by an arm of `exec` for a command without a meaning. No arm does: every command is modelled. Safe. -/
  | notModelled (mnemonic : String)
deriving DecidableEq, Repr

/-- The result of a step. -/
abbrev Result := Host.Outcome State Fault Refusal

/-- No answer foretold, no free value used yet (log entries 1 and 12). -/
def Env.reset : Env where
  clock := []
  lines := []
  clockReads := 0
  lineReads := 0

/-- The machine right after power-on reset: the power-on column of R20 (R43, R220), with the default parameters of R4 and
nothing delivered by the host. -/
def State.reset : State where
  talkers := []
  listeners := []
  order := []
  fault := none
  engine := .idle
  history := []
  cfg := defaultConfig
  inbox := []
  responses := []
  env := Env.reset
  resetRequest := false

end Sys2Proof.Machine
end

