-- ==== Sys2Proof/Machine/Ops.lean ====
section
/-! DEFINITION. The named operations every meaning is built of: clock arithmetic (R100 to R104), the FIFO primitives
(R106 to R110), bit assembly and selection (R112, R113), the environment's draws (R9), access to channel slots, the
response (R78), taking a fault and leaving one (R202, R206), and the check that a command may start (R40). -/

namespace Sys2Proof.Machine

/-! ### Clock arithmetic -/

/-- The wrap-safe elapsed time between two clock values of modulus `m` (R100). -/
def elapsed (m now since : Nat) : Nat := if now ≥ since then now - since else m - since + now

/-- The bit period `T = floor(1000000 / baud)` of a nonzero baud rate, as its 32-bit register holds it (R102). -/
def bitPeriod (baud : Word) : BitVec 32 := BitVec.ofNat 32 (1000000 / baud.toNat)

/-- The bit period `T` of a channel in microseconds. -/
def Channel.period (ch : Channel) : Nat := ch.bitPeriodUs.toNat

/-- The half bit period `H = floor(T / 2)` (R102). -/
def Channel.halfPeriod (ch : Channel) : Nat := ch.period / 2

/-- `time_anchor <- time_anchor + x`, modulo `2^CLK_W` (R103). -/
def Channel.advanceAnchor (p : Config) (ch : Channel) (x : Nat) : Channel :=
  { ch with timeAnchor := (ch.timeAnchor + x) % p.modulus }

/-- The time test of R104: `elapsed(now, time_anchor) >= x`. -/
def Channel.due (p : Config) (ch : Channel) (now x : Nat) : Bool := x ≤ elapsed p.modulus now ch.timeAnchor

/-! ### The FIFO -/

/-- An empty FIFO of capacity `c`, every slot 0 (R21). -/
def Fifo.empty (c : Nat) : Fifo := { slots := List.replicate c 0, start := 0, stop := 0 }

/-- The physical slot of cursor `k`, "via bitmask" (R37, R51). -/
def slotOf (c k : Nat) : Nat := k &&& (c - 1)

/-- `Size` (R106). -/
def Fifo.size (f : Fifo) : Nat := f.stop - f.start

/-- `Push`; `none` is BUFFER_FULL (R107). -/
def Fifo.push (c : Nat) (f : Fifo) (b : Byte) : Option Fifo :=
  if f.size = c then none
  else some { f with slots := f.slots.set (slotOf c f.stop) b, stop := f.stop + 1 }

/-- `Peek`; `none` is BUFFER_EMPTY (R109). -/
def Fifo.peek (c : Nat) (f : Fifo) : Option Byte :=
  if f.size = 0 then none else some (f.slots.getD (slotOf c f.start) 0)

/-- `Pop`, the byte and the FIFO without it; `none` is BUFFER_EMPTY (R108). -/
def Fifo.pop (c : Nat) (f : Fifo) : Option (Byte × Fifo) :=
  (f.peek c).map fun b => (b, { f with start := f.start + 1 })

/-- `Clear`: both cursors to 0, the slots unwritten (R110). -/
def Fifo.clear (f : Fifo) : Fifo := { f with start := 0, stop := 0 }

/-- One `Push` after another, as `SEND` makes them; `none` if one of them is BUFFER_FULL (R167). -/
def Fifo.pushAll (c : Nat) : Fifo → List Byte → Option Fifo
  | f, [] => some f
  | f, b :: bs => (f.push c b).bind fun f' => f'.pushAll c bs

/-- The bytes a FIFO holds, oldest first: those at the cursors `start .. stop-1` (R51). -/
def Fifo.contents (c : Nat) (f : Fifo) : List Byte :=
  (List.range f.size).map fun j => f.slots.getD (slotOf c (f.start + j)) 0

/-! ### Bit assembly and selection -/

/-- `acc_insert`: the accumulator after data bit `k` was sampled as `v` (R112). -/
def accInsert (o : BitOrder) (acc : Byte) (k : Nat) (v : Level) : Byte :=
  match o with
  | .lsbFirst => acc ||| ((BitVec.ofBool v).setWidth 8 <<< k)
  | .msbFirst => (acc <<< 1) ||| (BitVec.ofBool v).setWidth 8

/-- `frame_bit`: the level of data bit period `k` for byte `b` (R55, R113). -/
def frameBit (o : BitOrder) (b : Byte) (k : Nat) : Level :=
  match o with
  | .lsbFirst => b.getLsbD k
  | .msbFirst => b.getLsbD (7 - k)

/-! ### The environment's draws -/

/-- One clock read: the environment's next answer, of which the block uses the low `CLK_W` bits (R9, R213). -/
def Env.now (p : Config) (e : Env) : Nat × Env :=
  match e.clock with
  | t :: ts => (t.toNat % p.modulus, { e with clock := ts })
  | [] => ((Config.freeClock e.clockReads).toNat % p.modulus, { e with clockReads := e.clockReads + 1 })

/-- One sample of a pin: the environment's next answer (R7, R9, R212). -/
def Env.readLine (pin : Byte) (e : Env) : Level × Env :=
  match e.lines with
  | v :: vs => (v, { e with lines := vs })
  | [] => (Config.freeLevel pin e.lineReads, { e with lineReads := e.lineReads + 1 })

/-! ### Channel slots -/

/-- The allocated slots of a kind (R20, R22). -/
def State.slots (s : State) : Kind → List Channel
  | .talker => s.talkers
  | .listener => s.listeners

/-- `n_talkers` or `n_listeners` (R23). -/
def State.count (s : State) (k : Kind) : Nat := (s.slots k).length

/-- `MAX_TALKERS` or `MAX_LISTENERS` (R4). -/
def maxChannels (p : Config) : Kind → Nat
  | .talker => p.maxTalkers
  | .listener => p.maxListeners

/-- The state with other slots of one kind. -/
def State.setSlots (s : State) (k : Kind) (cs : List Channel) : State :=
  { s with
    talkers := match k with
      | .talker => cs
      | .listener => s.talkers
    listeners := match k with
      | .talker => s.listeners
      | .listener => cs }

/-- The channel a handle names, if its slot is allocated (R22, R26). -/
def State.channel (s : State) (h : Handle) : Option Channel := (s.slots h.kind)[h.index]?

/-- Write a channel record back to its slot. -/
def State.setChannel (s : State) (h : Handle) (ch : Channel) : State :=
  s.setSlots h.kind ((s.slots h.kind).set h.index ch)

/-- The record of a newly registered channel (R21, R182). -/
def newChannel (p : Config) (k : Kind) (pin : Byte) (baud : Word) : Channel where
  kind := k
  pin := pin
  bitPeriodUs := bitPeriod baud
  timeAnchor := 0
  activated := false
  midActivated := false
  available := false
  previousLevel := false
  accumulator := 0
  bitsDone := 0
  configured := false
  buf := Fifo.empty p.bufferMaxSize

/-- `reset(ch)`: the five transient synchronization fields to 0, and no other (R120). -/
def Channel.reset (ch : Channel) : Channel :=
  { ch with timeAnchor := 0, activated := false, midActivated := false, accumulator := 0, bitsDone := 0 }

/-! ### The response -/

/-- The status of a response (R79). -/
inductive Status where
  | ok
  | backpressure
deriving DecidableEq, Repr

/-- The status field, bits 31..16 of a response (R78, R79). -/
def Status.bits : Status → BitVec 16
  | .ok => 0x0000
  | .backpressure => 0x0001

/-- `respond(status, value)`: the command's response word is returned (R78). -/
def State.respond (s : State) (st : Status) (value : BitVec 16) : State :=
  { s with responses := s.responses ++ [st.bits ++ value] }

/-! ### Faults -/

/-- The number of a fault code (R203). -/
def FaultCode.number : FaultCode → Nat
  | .bufferFull => 1
  | .bufferEmpty => 2
  | .invalidHandle => 3
  | .capacityExceeded => 4
  | .receiveTooLong => 5
  | .illegalCommand => 6
  | .zeroBaud => 7
  | .notConfigured => 8
  | .mixedPath => 9

/-- `raise Fault(code, header)`: the fault register is written, no response is returned and nothing else changes
(R202). -/
def State.raise (s : State) (code : FaultCode) (header : Word) : State := { s with fault := some ⟨code, header⟩ }

/-- A command whose check fails ends by taking its fault (R202, R205). -/
def takeFault (code : FaultCode) (header : Word) (s : State) : Result := .next (s.raise code header)

/-- Power-on reset, the only way out of a fault and of a hung command (R206, R220, R235): the block record takes its
power-on values. The parameters, the host's port and the environment's answers are no part of the block (R9). -/
def State.powerOn (s : State) : State :=
  { s with talkers := [], listeners := [], order := [], fault := none, engine := .idle, history := [],
           resetRequest := false }

/-- A command starts only while no fault is recorded (R206) and no blocking command runs (R40, R242). -/
def accept (s : State) (body : Result) : Result :=
  match s.fault with
  | some f => .fault (.stopped f.code f.header)
  | none =>
    match s.engine with
    | .idle => body
    | .await _ => .fault .busy
    | .awaitAll => .fault .busy
    | .tell _ _ _ _ => .fault .busy
    | .recieve _ _ _ _ => .fault .busy

/-- A blocking command completes: the response is returned and the engine is IDLE again (R40). -/
def State.complete (s : State) : State := ({ s with engine := .idle } : State).respond .ok 0

end Sys2Proof.Machine
end

