-- ==== Sys2Proof/Machine/Operands.lean ====
section
/-! DEFINITION. The operand forms of the commands (R75): the handle that a command's kind and index name, and the handle
check every per-channel command makes first (R125). -/

namespace Sys2Proof.Machine

/-- The handle a kind and an 8-bit index field name; the field is zero-extended (R75). -/
def handleOf (k : Kind) (i : Byte) : Handle := { kind := k, index := i.toNat }

/-- `resolve(kind, index)`: go on with the channel, or take INVALID_HANDLE (R125). -/
def withChannel (s : State) (k : Kind) (i : Byte) (header : Word) (body : Channel → Result) : Result :=
  match s.channel (handleOf k i) with
  | none => takeFault .invalidHandle header s
  | some ch => body ch

end Sys2Proof.Machine
end

