-- ==== Sys2Proof/Machine/Flags.lean ====
section
/-! DEFINITION. What is computed from the channels' flags: the phase of a listener (R30) and of a talker (R32), whether a
channel is at rest (R31), and the conditions on configured and available flags that commands check (R36, R184 to R186). -/

namespace Sys2Proof.Machine

/-- The phases of a listener (R30). -/
inductive RxPhase where
  | unavailable
  | sampling
  | confirm
  | hunt
deriving DecidableEq, Repr

/-- A listener's phase, the tests in the order of R30. -/
def Channel.rxPhase (ch : Channel) : RxPhase :=
  if ch.available = false then .unavailable
  else if ch.activated then .sampling
  else if ch.midActivated then .confirm
  else .hunt

/-- The phases of a talker (R32). -/
inductive TxPhase where
  | lowered
  | streaming (k : Nat)
  | raised
  | idle
deriving DecidableEq, Repr

/-- A talker's phase, the tests in the order of R32. -/
def Channel.txPhase (ch : Channel) : TxPhase :=
  if ch.activated then (if ch.bitsDone = 0 then .lowered else .streaming ch.bitsDone.toNat)
  else if ch.midActivated then .raised
  else .idle

/-- A channel's transient state machine is idle; a talker's FIFO is empty too (R31). -/
def Channel.atRest (ch : Channel) : Bool :=
  match ch.kind with
  | .listener => !ch.midActivated && !ch.activated
  | .talker => !ch.midActivated && !ch.activated && ch.buf.size == 0

/-- The channel exists and `BEGIN` has configured it (R36). -/
def State.isConfigured (s : State) (h : Handle) : Bool := (s.channel h).any (·.configured)

/-- Every channel a `TICK` would step is configured (R184). -/
def State.allConfigured (s : State) : Bool := s.order.all s.isConfigured

/-- Every listener is configured (R185). -/
def State.listenersConfigured (s : State) : Bool := s.listeners.all (·.configured)

/-- Every listener is available (R186). -/
def State.listenersAvailable (s : State) : Bool := s.listeners.all (·.available)

/-- A flag as the 16-bit value of a response (R79). -/
def flagValue (b : Bool) : BitVec 16 := (BitVec.ofBool b).setWidth 16

end Sys2Proof.Machine
end

