-- ==== Sys2Proof/Machine/Receive.lean ====
section
/-! DEFINITION. The listener: the receive state machine (R130 to R137) and the commands READ, PEEK, AWAIT and RECIEVE with
the micro-steps of the two blocking ones (R139 to R144). -/

namespace Sys2Proof.Machine

/-! ### The receive state machine -/

/-- UNAVAILABLE, the line sampled as `lvl`: the availability handshake (R133). -/
def unavailableStep (p : Config) (ch : Channel) (now : Nat) (lvl : Level) : Channel :=
  let ch' :=
    if lvl = false then { ch with timeAnchor := now }
    else if ch.due p now p.minAvailableDelta then { ch with available := true }
    else ch
  { ch' with previousLevel := lvl }

/-- HUNT, the line sampled as `lvl`: waiting for the activation edge (R134). -/
def huntStep (p : Config) (ch : Channel) (now : Nat) (lvl : Level) : Channel :=
  let ch' :=
    if lvl = true ∧ ch.previousLevel = false then { ch with timeAnchor := now }
    else if lvl = false ∧ ch.previousLevel = true ∧ ch.due p now ch.halfPeriod then
      { ch with timeAnchor := now, midActivated := true }
    else ch
  { ch' with previousLevel := lvl }

/-- CONFIRM at the half-period check, the line sampled as `lvl` (R135). -/
def confirmStep (p : Config) (ch : Channel) (now : Nat) (lvl : Level) : Channel :=
  let ch' := { ch with previousLevel := lvl }
  if lvl = false then { ch'.advanceAnchor p ch.halfPeriod with activated := true }
  else { ch' with midActivated := false, timeAnchor := now }

/-- The assembled byte is pushed if there is room, and the channel is reset (R137). -/
def byteComplete (p : Config) (ch : Channel) : Channel :=
  let buf' := if ch.buf.size < p.bufferMaxSize then (ch.buf.push p.bufferMaxSize ch.accumulator).getD ch.buf else ch.buf
  Channel.reset { ch with buf := buf' }

/-- SAMPLING one bit period after the anchor, the line sampled as `lvl` (R136). -/
def samplingStep (p : Config) (ch : Channel) (lvl : Level) : Channel :=
  let ch' : Channel :=
    { ch with previousLevel := lvl,
              accumulator := accInsert p.bitOrder ch.accumulator ch.bitsDone.toNat lvl,
              bitsDone := ch.bitsDone + 1 }
  let ch'' := ch'.advanceAnchor p ch.period
  if ch.bitsDone + 1 = 8 then byteComplete p ch'' else ch''

/-- Whether this step of the listener samples the line (R132). -/
def Channel.samplesNow (p : Config) (ch : Channel) (now : Nat) : Bool :=
  match ch.rxPhase with
  | .unavailable => true
  | .hunt => true
  | .confirm => ch.due p now ch.halfPeriod
  | .sampling => ch.due p now ch.period

/-- The action of the listener's phase on a sampled level (R130). -/
def rxAction (p : Config) (ch : Channel) (now : Nat) (lvl : Level) : Channel :=
  match ch.rxPhase with
  | .unavailable => unavailableStep p ch now lvl
  | .sampling => samplingStep p ch lvl
  | .confirm => confirmStep p ch now lvl
  | .hunt => huntStep p ch now lvl

/-- `rx_step(ch, now)`: at most one `ReadLine`, and one phase's action (R130). A step whose time test fails reads nothing
and writes nothing (R132). -/
def rxStep (p : Config) (ch : Channel) (now : Nat) (e : Env) : Channel × Env :=
  if ch.samplesNow p now then
    let r := e.readLine ch.pin
    (rxAction p ch now r.1, r.2)
  else (ch, e)

/-- One channel step of the listener `ch` at `h`: one `Now()`, then `rx_step` (R10, R184). -/
def listenerStep (h : Handle) (ch : Channel) (s : State) : State :=
  let t := s.env.now s.cfg
  let r := rxStep s.cfg ch t.1 t.2
  { s.setChannel h r.1 with env := r.2 }

/-! ### The commands -/

/-- `READ l<i>` (R139). -/
def execRead (i : Byte) (s : State) : Result :=
  accept s (withChannel s .listener i (encodeHeader (.read i)) fun ch =>
    match ch.buf.pop s.cfg.bufferMaxSize with
    | none => takeFault .bufferEmpty (encodeHeader (.read i)) s
    | some (b, buf') =>
      .next ((s.setChannel (handleOf .listener i) { ch with buf := buf' }).respond .ok (b.setWidth 16)))

/-- `PEEK l<i>` (R140). -/
def execPeek (i : Byte) (s : State) : Result :=
  accept s (withChannel s .listener i (encodeHeader (.peek i)) fun ch =>
    match ch.buf.peek s.cfg.bufferMaxSize with
    | none => takeFault .bufferEmpty (encodeHeader (.peek i)) s
    | some b => .next (s.respond .ok (b.setWidth 16)))

/-- `AWAIT l<i>`: acceptance (R141). -/
def execAwait (i : Byte) (s : State) : Result :=
  accept s (withChannel s .listener i (encodeHeader (.await i)) fun ch =>
    if ch.configured = false then takeFault .notConfigured (encodeHeader (.await i)) s
    else if ch.available then .next (s.respond .ok 0)
    else .next { s with engine := .await i.toNat })

/-- A micro-step of `AWAIT(i)` (R141). -/
def awaitMicro (i : Nat) (s : State) : Result :=
  match s.channel ⟨.listener, i⟩ with
  | none => .fault .noSuchRecord
  | some ch =>
    let s' := listenerStep ⟨.listener, i⟩ ch s
    if (s'.channel ⟨.listener, i⟩).any (·.available) then .next s'.complete else .next s'

/-- `RECIEVE l<i>, n`: acceptance, the checks in the order of R142. -/
def execRecieve (i : Byte) (n : BitVec 16) (s : State) : Result :=
  accept s (withChannel s .listener i (encodeHeader (.recieve i n)) fun ch =>
    if n.toNat > s.cfg.bufferMaxSize then takeFault .receiveTooLong (encodeHeader (.recieve i n)) s
    else if ch.configured = false then takeFault .notConfigured (encodeHeader (.recieve i n)) s
    else if ch.midActivated ∨ ch.activated then takeFault .mixedPath (encodeHeader (.recieve i n)) s
    else .next { s with engine := .recieve i.toNat n.toNat .avail 0 })

/-- What one micro-step of `RECIEVE` does to the channel, the draws and the engine record's `rphase` and `ts`, at the
clock value `now` (R143). -/
def recieveStep (p : Config) (ch : Channel) (now : Nat) (e : Env) (ph : RecievePhase) (ts : Nat) :
    Channel × Env × RecievePhase × Nat :=
  match ph with
  | .avail =>
    if ch.available = false then
      let r := rxStep p ch now e
      (r.1, r.2, .avail, ts)
    else ({ ch with buf := ch.buf.clear }, e, .settle, now)
  | .settle =>
    if elapsed p.modulus now ts ≥ p.settlePeriods * ch.period then
      let r := e.readLine ch.pin
      ({ ch with previousLevel := r.1, timeAnchor := now }, r.2, .bytes, ts)
    else (ch, e, .settle, ts)
  | .bytes =>
    let r := rxStep p ch now e
    (r.1, r.2, .bytes, ts)

/-- A micro-step of `RECIEVE(i, n, rphase, ts)` (R143) with its completion test (R144). -/
def recieveMicro (i n : Nat) (ph : RecievePhase) (ts : Nat) (s : State) : Result :=
  match s.channel ⟨.listener, i⟩ with
  | none => .fault .noSuchRecord
  | some ch =>
    let t := s.env.now s.cfg
    let r := recieveStep s.cfg ch t.1 t.2 ph ts
    let s' : State := { s.setChannel ⟨.listener, i⟩ r.1 with env := r.2.1, engine := .recieve i n r.2.2.1 r.2.2.2 }
    if r.2.2.1 = .bytes ∧ r.1.buf.size = n then .next s'.complete else .next s'

end Sys2Proof.Machine
end

