-- ==== Sys2Proof/Machine/Transmit.lean ====
section
/-! DEFINITION. The talker: the transmit state machine (R160 to R165) and the commands SEND and TELL with the schedule and
the micro-steps of TELL (R167 to R171). -/

namespace Sys2Proof.Machine

/-! ### The transmit state machine -/

/-- IDLE: the wake-up, if a byte is queued (R162). -/
def idleStep (p : Config) (ch : Channel) (now : Nat) : Channel × List LineEvent :=
  match ch.buf.peek p.bufferMaxSize with
  | none => (ch, [])
  | some b =>
    ({ ch with accumulator := b, previousLevel := true, timeAnchor := now, midActivated := true },
     [.write ch.pin true now])

/-- RAISED: the start of the sync pulse, one bit period after the anchor (R163). -/
def raisedStep (p : Config) (ch : Channel) (now : Nat) : Channel × List LineEvent :=
  if ch.due p now ch.period then
    ({ ({ ch with previousLevel := false } : Channel).advanceAnchor p ch.period with activated := true },
     [.write ch.pin false now])
  else (ch, [])

/-- LOWERED or STREAMING(k < 8): one data bit (R164). -/
def streamStep (p : Config) (ch : Channel) (now : Nat) : Channel × List LineEvent :=
  let b := frameBit p.bitOrder ch.accumulator ch.bitsDone.toNat
  ({ ({ ch with previousLevel := b } : Channel).advanceAnchor p ch.period with bitsDone := ch.bitsDone + 1 },
   [.write ch.pin b now])

/-- STREAMING(8): the return to idle (R165). The sent byte is popped; the FIFO holds it, since it was latched. -/
def endMark (p : Config) (ch : Channel) (now : Nat) : Channel × List LineEvent :=
  let buf' := match ch.buf.pop p.bufferMaxSize with
    | none => ch.buf
    | some (_, f) => f
  (Channel.reset { ch with previousLevel := true, buf := buf' }, [.write ch.pin true now])

/-- `tx_step(ch, now)`: at most one `WriteLine`, and one phase's action (R160). -/
def txStep (p : Config) (ch : Channel) (now : Nat) : Channel × List LineEvent :=
  if ch.activated then
    if ch.due p now ch.period then
      if ch.bitsDone.toNat < 8 then streamStep p ch now else endMark p ch now
    else (ch, [])
  else if ch.midActivated then raisedStep p ch now
  else idleStep p ch now

/-- One channel step of the talker `ch` at `h`: one `Now()`, then `tx_step` (R10, R184). -/
def talkerStep (h : Handle) (ch : Channel) (s : State) : State :=
  let t := s.env.now s.cfg
  let r := txStep s.cfg ch t.1
  { s.setChannel h r.1 with env := t.2, history := s.history ++ r.2 }

/-! ### The commands -/

/-- `SEND t<i>, [bytes]`: all or nothing (R167). No push finds the FIFO full, since the room is checked first. -/
def execSend (i : Byte) (bytes : List Byte) (s : State) : Result :=
  accept s (withChannel s .talker i (encodeHeader (.send i bytes)) fun ch =>
    if ch.buf.size + bytes.length > s.cfg.bufferMaxSize then .next (s.respond .backpressure 0)
    else
      match ch.buf.pushAll s.cfg.bufferMaxSize bytes with
      | none => takeFault .bufferFull (encodeHeader (.send i bytes)) s
      | some buf' => .next ((s.setChannel (handleOf .talker i) { ch with buf := buf' }).respond .ok 0))

/-- The schedule of one byte, from its first offset `base`: pre-amble, sync pulse, 8 data bits (R169). -/
def byteSchedule (o : BitOrder) (t base : Nat) (b : Byte) : List (Nat × Level) :=
  (base, true) :: (base + t, false) :: (List.range 8).map fun k => (base + (2 + k) * t, frameBit o b k)

/-- The schedules of bytes that follow each other from `base`, with no gap, and the final return to idle (R169). -/
def scheduleFrom (o : BitOrder) (t base : Nat) : List Byte → List (Nat × Level)
  | [] => [(base, true)]
  | b :: bs => byteSchedule o t base b ++ scheduleFrom o t (base + 10 * t) bs

/-- `tell_schedule(bytes)` for at least one byte (R169). -/
def tellSchedule (o : BitOrder) (t : Nat) (bytes : List Byte) : List (Nat × Level) := scheduleFrom o t 0 bytes

/-- `TELL t<i>, [bytes]`: acceptance, the checks in the order of R168. -/
def execTell (i : Byte) (bytes : List Byte) (s : State) : Result :=
  accept s (withChannel s .talker i (encodeHeader (.tell i bytes)) fun ch =>
    if ch.configured = false then takeFault .notConfigured (encodeHeader (.tell i bytes)) s
    else if ch.midActivated ∨ ch.activated ∨ ch.buf.size > 0 then
      takeFault .mixedPath (encodeHeader (.tell i bytes)) s
    else
      match bytes with
      | [] => .next (s.respond .ok 0)
      | _ :: _ =>
        .next { s with engine := .tell i.toNat (tellSchedule s.cfg.bitOrder ch.period bytes) 0 none })

/-- A micro-step of `TELL(i, sched, idx, t0)` (R170) with its completion test (R171). -/
def tellMicro (i : Nat) (sched : List (Nat × Level)) (idx : Nat) (t0 : Option Nat) (s : State) : Result :=
  match s.channel ⟨.talker, i⟩, sched[idx]? with
  | some ch, some (off, lvl) =>
    let t := s.env.now s.cfg
    let origin := t0.getD t.1
    if elapsed s.cfg.modulus t.1 origin ≥ off then
      let s' : State :=
        { s.setChannel ⟨.talker, i⟩ { ch with previousLevel := lvl } with
          env := t.2, history := s.history ++ [.write ch.pin lvl t.1],
          engine := .tell i sched (idx + 1) (some origin) }
      if idx + 1 = sched.length then .next s'.complete else .next s'
    else .next { s with env := t.2, engine := .tell i sched idx (some origin) }
  | _, _ => .fault .noSuchRecord

end Sys2Proof.Machine
end

