-- ==== Sys2Proof/Machine/Aggregator.lean ====
section
/-! DEFINITION. The aggregator: LISTEN, TALK, BEGIN, TICK and AWAIT_ALL (R180 to R186). -/

namespace Sys2Proof.Machine

/-- `register(kind, pin, baud)`, the checks in the order of R182. -/
def register (k : Kind) (pin : Byte) (baud : Word) (header : Word) (s : State) : Result :=
  if s.count k = maxChannels s.cfg k then takeFault .capacityExceeded header s
  else if baud = 0 then takeFault .zeroBaud header s
  else
    .next (({ s.setSlots k (s.slots k ++ [newChannel s.cfg k pin baud]) with
              order := s.order ++ [⟨k, s.count k⟩] } : State).respond .ok (BitVec.ofNat 16 (s.count k)))

/-- `LISTEN pin, baud` (R180). -/
def execListen (pin : Byte) (baud : Word) (s : State) : Result :=
  accept s (register .listener pin baud (encodeHeader (.listen pin baud)) s)

/-- `TALK pin, baud` (R181). -/
def execTalk (pin : Byte) (baud : Word) (s : State) : Result :=
  accept s (register .talker pin baud (encodeHeader (.talk pin baud)) s)

/-- `BEGIN`'s channel step on the channel at `h`, skipped if it is configured (R183). -/
def beginChannel (s : State) (h : Handle) : State :=
  match s.channel h with
  | none => s
  | some ch =>
    if ch.configured then s
    else
      let t := s.env.now s.cfg
      match ch.kind with
      | .listener =>
        { s.setChannel h { ch with timeAnchor := t.1, configured := true } with
          env := t.2, history := s.history ++ [.dir ch.pin .input t.1] }
      | .talker =>
        { s.setChannel h { ch with previousLevel := true, configured := true } with
          env := t.2, history := s.history ++ [.dir ch.pin .output t.1, .write ch.pin true t.1] }

/-- `BEGIN`, in registration order (R183). -/
def execBegin (s : State) : Result :=
  accept s (.next ((s.order.foldl beginChannel s).respond .ok 0))

/-- `TICK`'s channel step on the channel at `h` (R184). -/
def stepChannel (s : State) (h : Handle) : State :=
  match s.channel h with
  | none => s
  | some ch =>
    match ch.kind with
    | .listener => listenerStep h ch s
    | .talker => talkerStep h ch s

/-- `TICK`: every channel one step, in registration order, if all are configured (R184). -/
def execTick (s : State) : Result :=
  accept s (
    if s.allConfigured then .next ((s.order.foldl stepChannel s).respond .ok 0)
    else takeFault .notConfigured (encodeHeader .tick) s)

/-- `AWAIT_ALL`: acceptance (R185, R186). -/
def execAwaitAll (s : State) : Result :=
  accept s (
    if s.listenersConfigured = false then takeFault .notConfigured (encodeHeader .awaitAll) s
    else if s.listenersAvailable then .next (s.respond .ok 0)
    else .next { s with engine := .awaitAll })

/-- `AWAIT_ALL`'s channel step on listener `i`, skipped if it is available (R186). -/
def awaitListener (s : State) (i : Nat) : State :=
  match s.channel ⟨.listener, i⟩ with
  | none => s
  | some ch => if ch.available then s else listenerStep ⟨.listener, i⟩ ch s

/-- A micro-step of `AWAIT_ALL`: one pass over the listeners in index order (R186). -/
def awaitAllMicro (s : State) : Result :=
  let s' := (List.range (s.count .listener)).foldl awaitListener s
  if s'.listenersAvailable then .next s'.complete else .next s'

end Sys2Proof.Machine
end

