-- ==== Sys2Proof/Machine/Blocking.lean ====
section
/-! DEFINITION. One micro-step of the blocking command that the engine record holds (R40). -/

namespace Sys2Proof.Machine

/-- The micro-step of the engine record. An IDLE engine has none: the block waits. -/
def microStep (s : State) : Result :=
  match s.engine with
  | .idle => .next s
  | .await i => awaitMicro i s
  | .awaitAll => awaitAllMicro s
  | .tell i sched idx t0 => tellMicro i sched idx t0 s
  | .recieve i n ph ts => recieveMicro i n ph ts s

end Sys2Proof.Machine
end

