-- ==== Sys2Proof/Machine/ChannelCommands.lean ====
section
/-! DEFINITION. The commands on a channel of either kind: RESET, IS_AVAILABLE, IS_ACTIVATED and BUFFERED_COUNT (R121 to
R124). -/

namespace Sys2Proof.Machine

/-- `RESET h` (R121). -/
def execReset (k : Kind) (i : Byte) (s : State) : Result :=
  accept s (withChannel s k i (encodeHeader (.reset k i)) fun ch =>
    .next ((s.setChannel (handleOf k i) ch.reset).respond .ok 0))

/-- `IS_AVAILABLE h` (R122). -/
def execIsAvailable (k : Kind) (i : Byte) (s : State) : Result :=
  accept s (withChannel s k i (encodeHeader (.isAvailable k i)) fun ch =>
    .next (s.respond .ok (flagValue ch.available)))

/-- `IS_ACTIVATED h` (R123). -/
def execIsActivated (k : Kind) (i : Byte) (s : State) : Result :=
  accept s (withChannel s k i (encodeHeader (.isActivated k i)) fun ch =>
    .next (s.respond .ok (flagValue ch.activated)))

/-- `BUFFERED_COUNT h` (R124). -/
def execBufferedCount (k : Kind) (i : Byte) (s : State) : Result :=
  accept s (withChannel s k i (encodeHeader (.bufferedCount k i)) fun ch =>
    .next (s.respond .ok (BitVec.ofNat 16 ch.buf.size)))

end Sys2Proof.Machine
end

