-- ==== Sys2Proof/Machine/Dispatch.lean ====
section
/-! DEFINITION. One arm for each command: the meaning of the instruction. -/

namespace Sys2Proof.Machine

def exec (i : Instr) (s : State) : Host.Outcome State Fault Refusal :=
  match i with
  | .listen pin baud => Sys2Proof.Machine.execListen pin baud s
  | .talk pin baud => Sys2Proof.Machine.execTalk pin baud s
  | .begin => Sys2Proof.Machine.execBegin s
  | .tick => Sys2Proof.Machine.execTick s
  | .awaitAll => Sys2Proof.Machine.execAwaitAll s
  | .send j bytes => Sys2Proof.Machine.execSend j bytes s
  | .tell j bytes => Sys2Proof.Machine.execTell j bytes s
  | .read j => Sys2Proof.Machine.execRead j s
  | .peek j => Sys2Proof.Machine.execPeek j s
  | .bufferedCount k j => Sys2Proof.Machine.execBufferedCount k j s
  | .isAvailable k j => Sys2Proof.Machine.execIsAvailable k j s
  | .recieve j n => Sys2Proof.Machine.execRecieve j n s
  | .isActivated k j => Sys2Proof.Machine.execIsActivated k j s
  | .await j => Sys2Proof.Machine.execAwait j s
  | .reset k j => Sys2Proof.Machine.execReset k j s

end Sys2Proof.Machine
end

