-- ==== Sys2Proof/Machine/Fetch.lean ====
section
/-! DEFINITION. The host's port: what the host may do to the block (R242), and how the block takes its next command from
the words the host delivered (R70, R76, R77). -/

namespace Sys2Proof.Machine

/-- The host delivers command words (R9, R70). -/
def State.deliver (s : State) (ws : List Word) : State := { s with inbox := s.inbox ++ ws }

/-- The host asks for a power-on reset (R242). -/
def State.requestReset (s : State) : State := { s with resetRequest := true }

/-- What the block takes from its port. -/
inductive Fetched where
  /-- No whole command has been delivered: the block waits (R70, R220). -/
  | waiting
  /-- A command to execute, and the state without its words. -/
  | command (i : Instr) (s : State)
  /-- Words that spell no command: ILLEGAL_COMMAND with this header (R76). -/
  | illegal (header : Word) (s : State)
deriving DecidableEq, Repr

/-- Take the next command's words off the port and decode them (R76, R77). -/
def fetch (s : State) : Fetched :=
  match decode s.inbox with
  | .incomplete => .waiting
  | .command i rest => .command i { s with inbox := rest }
  | .unknownHeader header rest => .illegal header { s with inbox := rest }
  | .reservedPayload header rest => .illegal header { s with inbox := rest }

/-- The state in which the host has just delivered these words, and nothing else, to a block that is ready for a command
(log entry 2). -/
def State.withWords (s : State) (ws : List Word) : State :=
  { s with inbox := ws, fault := none, engine := .idle, resetRequest := false }

end Sys2Proof.Machine
end

