-- ==== Sys2Proof/Machine/Step.lean ====
section
/-! DEFINITION. One step of the machine: a power-on reset the host asks for, the stop after a fault, a micro-step of the
blocking command in progress, or the next command the host delivered. -/

namespace Sys2Proof.Machine

/-- One step. Power-on reset comes before all else (R242); after a fault there is no step (R206); while a blocking
command runs, no command is accepted (R40); a block with no whole command at its port waits (R220). -/
def step (s : State) : Host.Outcome State Fault Refusal :=
  if s.resetRequest then .next s.powerOn
  else
    match s.fault with
    | some f => .fault (.stopped f.code f.header)
    | none =>
      match s.engine with
      | .idle =>
        match fetch s with
        | .waiting => .next s
        | .command i s' => exec i s'
        | .illegal header s' => takeFault .illegalCommand header s'
      | .await _ => microStep s
      | .awaitAll => microStep s
      | .tell _ _ _ _ => microStep s
      | .recieve _ _ _ _ => microStep s

/-- `s` with the command whose bits are `w` at the port of a block that is ready for it. -/
def State.withFetchWord (s : State) (nbits w : Nat) : State := s.withWords (tableWords nbits w)

end Sys2Proof.Machine
end

