-- ==== Sys2Proof/Safety.lean ====
section
/-! DEFINITION. The terms in which claims speak of good states: when a command may start, how a run ends (R224), and the
invariant of every reachable state, gathered from the rules. -/

namespace Sys2Proof.Machine

/-- No fault is recorded and no blocking command runs: the block accepts a command (R40, R206). -/
abbrev State.Ready (s : State) : Prop := s.fault = none ∧ s.engine = .idle

/-- A run that ends here is completed: the last command has been answered (R224). -/
abbrev State.Completed (s : State) : Prop := s.inbox = [] ∧ s.Ready

/-- A run that ends here is faulted (R224). -/
abbrev State.Faulted (s : State) : Prop := s.fault ≠ none

/-- The FIFO invariant of R37: `0 <= stop - start <= C`, over `C` slots. -/
abbrev Fifo.Wf (c : Nat) (f : Fifo) : Prop := f.slots.length = c ∧ f.start ≤ f.stop ∧ f.stop ≤ f.start + c

/-- What holds of every channel record, of the array of kind `k` (R21, R28, R35, R36, R37). -/
abbrev Channel.Wf (p : Config) (k : Kind) (ch : Channel) : Prop :=
  ch.kind = k ∧ ch.timeAnchor < p.modulus ∧ ch.period ≤ 1000000 ∧ ch.buf.Wf p.bufferMaxSize ∧
  (ch.activated = true → ch.midActivated = true) ∧ (ch.activated = false → ch.bitsDone = 0) ∧
  (ch.configured = false → ch.midActivated = false ∧ ch.available = false)

/-- What holds of every listener: the flag combinations R30 rules out never arise, fewer than 8 bits are pending
(R137), and the accumulator holds no bit beyond those sampled (R112). -/
abbrev ListenerWf (p : Config) (ch : Channel) : Prop :=
  ch.Wf p .listener ∧ (ch.available = false → ch.midActivated = false) ∧ ch.bitsDone.toNat < 8 ∧
  ch.accumulator.toNat < 2 ^ ch.bitsDone.toNat

/-- What holds of every talker: it is never available (R29), at most 8 bits are driven (R35), and from wake-up to end
mark the accumulator holds the byte at the head of its FIFO (R34, R162). -/
abbrev TalkerWf (p : Config) (ch : Channel) : Prop :=
  ch.Wf p .talker ∧ ch.available = false ∧ ch.bitsDone.toNat ≤ 8 ∧
  (ch.midActivated = true → ch.buf.peek p.bufferMaxSize = some ch.accumulator) ∧
  (ch.midActivated = false → ch.accumulator = 0)

/-- `order` names each allocated slot once, the slots of one kind in index order (R24, R26). -/
abbrev State.OrderWf (s : State) : Prop :=
  s.order.filter (·.kind == .talker) = (List.range (s.count .talker)).map (⟨.talker, ·⟩) ∧
  s.order.filter (·.kind == .listener) = (List.range (s.count .listener)).map (⟨.listener, ·⟩)

/-- The channel of a `RECIEVE` in each of its phases (R142 to R144). -/
def recieveChannelWf (n : Nat) (ph : RecievePhase) (ch : Channel) : Bool :=
  ch.configured &&
  match ph with
  | .avail => !ch.midActivated
  | .settle => ch.available && !ch.midActivated && ch.buf.size == 0
  | .bytes => ch.available && decide (ch.buf.size < n)

/-- The engine record names a channel that the command may step, and the command is not complete (R40). -/
def State.engineWf (s : State) : Bool :=
  match s.engine with
  | .idle => true
  | .await i => (s.channel ⟨.listener, i⟩).any fun ch => ch.configured && !ch.available
  | .awaitAll => s.listenersConfigured && !s.listenersAvailable
  | .tell i sched idx t0 =>
    decide (idx < sched.length) && t0.all (fun t => decide (t < s.cfg.modulus)) &&
      (s.channel ⟨.talker, i⟩).any fun ch => ch.configured && ch.atRest
  | .recieve i n ph ts =>
    decide (n ≤ s.cfg.bufferMaxSize) && decide (ts < s.cfg.modulus) &&
      (s.channel ⟨.listener, i⟩).any (recieveChannelWf n ph)

/-- The clock value a line event carries (R41). -/
def LineEvent.time : LineEvent → Nat
  | .write _ _ t => t
  | .dir _ _ t => t

/-- The pin a line event drives, if it drives one. -/
def LineEvent.drivenPin : LineEvent → Option Byte
  | .write pin _ _ => some pin
  | .dir _ _ _ => none

/-- The invariant of every state a run from reset reaches. -/
abbrev State.Inv (s : State) : Prop :=
  s.cfg.Legal ∧
  s.count .talker ≤ s.cfg.maxTalkers ∧ s.count .listener ≤ s.cfg.maxListeners ∧
  (∀ ch ∈ s.talkers, TalkerWf s.cfg ch) ∧ (∀ ch ∈ s.listeners, ListenerWf s.cfg ch) ∧
  s.OrderWf ∧ s.engineWf = true ∧ (s.fault ≠ none → s.engine = .idle) ∧
  (∀ e ∈ s.history, e.time < s.cfg.modulus ∧ e.drivenPin.all (fun pin => s.talkers.any (·.pin == pin)) = true)

/-! ### Terms of the claims -/

/-- The byte that position `j` of the payload words carries (R54, R73). -/
def payloadByte (ws : List Word) (j : Nat) : Byte := (ws.getD (j / 4) 0).extractLsb' (8 * (j % 4)) 8

/-- The headers R81 lists as illegal, by their fields (R71). -/
abbrev IllegalHeader (h : Word) : Prop :=
  (h.extractLsb' 28 4).toNat = 0 ∨
  h.extractLsb' 24 3 ≠ 0 ∨
  ((h.extractLsb' 28 4).toNat ∈ [1, 2, 3, 4, 5] ∧ h.getLsbD 27 = true) ∨
  ((h.extractLsb' 28 4).toNat ∈ [6, 7] ∧ h.getLsbD 27 = true) ∨
  ((h.extractLsb' 28 4).toNat ∈ [8, 9, 12, 14] ∧ h.getLsbD 27 = false) ∨
  ((h.extractLsb' 28 4).toNat ∈ [3, 4, 5] ∧ h.extractLsb' 16 8 ≠ 0) ∨
  ((h.extractLsb' 28 4).toNat ∉ [6, 7, 12] ∧ h.extractLsb' 0 16 ≠ 0)

/-- The handle check of R204 item 3 as a failed check: the index is not below the count of its kind (R125). -/
def badHandle (s : State) (k : Kind) (i : Byte) : Bool × FaultCode := (decide (s.count k ≤ i.toNat), .invalidHandle)

/-- A check of R204 on the channel a command names: `bad` holds of it. -/
def badChannel (s : State) (k : Kind) (i : Byte) (bad : Channel → Bool) (c : FaultCode) : Bool × FaultCode :=
  ((s.channel ⟨k, i.toNat⟩).any bad, c)

/-- The checks of a decoded command in the order of R204, each as whether it fails and the fault it then raises. -/
def checks (s : State) : Instr → List (Bool × FaultCode)
  | .listen _ baud => [(s.count .listener == s.cfg.maxListeners, .capacityExceeded), (baud == 0, .zeroBaud)]
  | .talk _ baud => [(s.count .talker == s.cfg.maxTalkers, .capacityExceeded), (baud == 0, .zeroBaud)]
  | .begin => []
  | .tick => [(s.order.any fun h => !s.isConfigured h, .notConfigured)]
  | .awaitAll => [(s.listeners.any (!·.configured), .notConfigured)]
  | .send i _ => [badHandle s .talker i]
  | .tell i _ =>
    [badHandle s .talker i, badChannel s .talker i (!·.configured) .notConfigured,
     badChannel s .talker i (fun ch => ch.midActivated || ch.activated || decide (ch.buf.size > 0)) .mixedPath]
  | .read i => [badHandle s .listener i, badChannel s .listener i (·.buf.size == 0) .bufferEmpty]
  | .peek i => [badHandle s .listener i, badChannel s .listener i (·.buf.size == 0) .bufferEmpty]
  | .bufferedCount k i => [badHandle s k i]
  | .isAvailable k i => [badHandle s k i]
  | .recieve i n =>
    [badHandle s .listener i, (decide (n.toNat > s.cfg.bufferMaxSize), .receiveTooLong),
     badChannel s .listener i (!·.configured) .notConfigured,
     badChannel s .listener i (fun ch => ch.midActivated || ch.activated) .mixedPath]
  | .isActivated k i => [badHandle s k i]
  | .await i => [badHandle s .listener i, badChannel s .listener i (!·.configured) .notConfigured]
  | .reset k i => [badHandle s k i]

/-- The clock value of the state's next clock read (R10). -/
def State.clockNow (s : State) : Nat := (s.env.now s.cfg).1

/-- The environment after the state's next clock read. -/
def State.envAfterClock (s : State) : Env := (s.env.now s.cfg).2

/-- Nothing but channel records, line history, responses and draws differs. -/
abbrev SameFrame (s t : State) : Prop :=
  t.talkers.length = s.talkers.length ∧ t.listeners.length = s.listeners.length ∧ t.order = s.order ∧
  t.fault = s.fault ∧ t.engine = s.engine ∧ t.cfg = s.cfg ∧ t.inbox = s.inbox ∧ t.resetRequest = s.resetRequest

/-- What `BEGIN` does on the lines for one channel, at the clock value of that channel's step (R183). -/
def beginEvents (ch : Channel) (now : Nat) : List LineEvent :=
  if ch.configured then []
  else
    match ch.kind with
    | .listener => [.dir ch.pin .input now]
    | .talker => [.dir ch.pin .output now, .write ch.pin true now]

/-- An operation on a FIFO, as in R111. -/
inductive FifoOp where
  | push (b : Byte)
  | pop
deriving DecidableEq, Repr

/-- Run a sequence of `Push` and `Pop`: the FIFO after it and the bytes popped, in order; `none` if one faults. -/
def Fifo.run (c : Nat) : Fifo → List FifoOp → Option (Fifo × List Byte)
  | f, [] => some (f, [])
  | f, .push b :: ops => (f.push c b).bind fun f' => f'.run c ops
  | f, .pop :: ops => (f.pop c).bind fun r => (r.2.run c ops).map fun q => (q.1, r.1 :: q.2)

/-- The bytes a sequence of FIFO operations pushes, in order. -/
def pushed (ops : List FifoOp) : List Byte := ops.filterMap fun
  | .push b => some b
  | .pop => none

/-- An environment whose next answer to a line read is `v`. -/
def Env.line (v : Level) : Env := { clock := [], lines := [v], clockReads := 0, lineReads := 0 }

/-- A listener stepped at the given clock values, each with the level its line then has. -/
def rxRun (p : Config) (ch : Channel) (samples : List (Nat × Level)) : Channel :=
  samples.foldl (fun ch x => (rxStep p ch x.1 (Env.line x.2)).1) ch

/-- A talker stepped at the given clock values: the channel and the line events it issued. -/
def txRun (p : Config) (ch : Channel) : List Nat → Channel × List LineEvent
  | [] => (ch, [])
  | now :: ts =>
    let r := txStep p ch now
    let q := txRun p r.1 ts
    (q.1, r.2 ++ q.2)

/-- The level of a line at clock value `x`, driven only by these events: that of the last write not after `x`, and high
before the first (R8: a line idles high). -/
def lineLevel (events : List LineEvent) (x : Nat) : Level :=
  events.foldl (fun v e => match e with
    | .write _ level t => if t ≤ x then level else v
    | .dir _ _ _ => v) true

end Sys2Proof.Machine
end

