-- ==== Sys2Proof/Certificates/Slice0/Obligations.lean ====
section
/-! DEFINITION. The statements about the machine, each formalising rules of the spec. Clock and line answers are the
environment's: a statement names them as what the environment answers and holds for every answer. -/

open Sys2Proof Sys2Proof.Machine

/-! ### Encoding -/

/-- R70 to R75: every well-formed command, with every operand at every value its field admits and whatever words follow,
is read back from its own words. -/
def Obligations.DecodeOfEncodeGivesTheCommand : Prop :=
  ∀ (i : Instr) (rest : List Word), i.wellFormed = true → decode (encode i ++ rest) = .command i rest

/-- R86 and decision D2: the words of a command are its only spelling. What the decoder reads as a command is well formed
and is spelled by exactly the words it took. -/
def Obligations.EncodeOfDecodeGivesTheWords : Prop :=
  ∀ (ws : List Word) (i : Instr) (rest : List Word),
    decode ws = .command i rest → i.wellFormed = true ∧ ws = encode i ++ rest

/-- R81: which headers are illegal, and that an illegal header, and a SEND or TELL whose payload has a nonzero unused
byte, fault with ILLEGAL_COMMAND and have no other effect. That the words of such a command leave the port (R77 for a
header) is the model's choice for a payload (log entry 14). -/
def Obligations.IllegalCommandsFault : Prop :=
  (∀ h : Word, selectOpcode h = none ↔ IllegalHeader h) ∧
  (∀ (s : State) (h : Word) (ws : List Word), s.Ready → s.resetRequest = false → s.inbox = h :: ws →
    IllegalHeader h → step s = .next { s with inbox := ws, fault := some ⟨.illegalCommand, h⟩ }) ∧
  (∀ (s : State) (h : Word) (ext rest : List Word), s.Ready → s.resetRequest = false →
    s.inbox = h :: (ext ++ rest) → h.extractLsb' 24 8 = 0x60 ∨ h.extractLsb' 24 8 = 0x70 →
    ext.length = ((h.extractLsb' 0 16).toNat + 3) / 4 →
    (∃ j, (h.extractLsb' 0 16).toNat ≤ j ∧ j < 4 * ext.length ∧ payloadByte ext j ≠ 0) →
    step s = .next { s with inbox := rest, fault := some ⟨.illegalCommand, h⟩ })

/-- R74, R86: at most one row of the opcode map matches a header, and a header either selects a row or is illegal. -/
def Obligations.EveryHeaderHasOneRowOrIsIllegal : Prop :=
  (∀ (h : Word) (r r' : OpcodeRow), r ∈ opcodeTable → r' ∈ opcodeTable → h &&& r.mask = r.pattern →
    h &&& r'.mask = r'.pattern → r = r') ∧
  (∀ h : Word, (∃ r ∈ opcodeTable, h &&& r.mask = r.pattern) ∨ IllegalHeader h)

/-- R72: how many extension words each command has. -/
def Obligations.ExtensionWordCount : Prop :=
  (∀ (pin : Byte) (baud : Word),
    encodeExt (.listen pin baud) = [baud] ∧ encodeExt (.talk pin baud) = [baud]) ∧
  (∀ (a : Byte) (bytes : List Byte),
    (encodeExt (.send a bytes)).length = (bytes.length + 3) / 4 ∧
    (encodeExt (.tell a bytes)).length = (bytes.length + 3) / 4) ∧
  (∀ i : Instr, (∀ pin baud, i ≠ .listen pin baud) → (∀ pin baud, i ≠ .talk pin baud) →
    (∀ a bytes, i ≠ .send a bytes) → (∀ a bytes, i ≠ .tell a bytes) → encodeExt i = [])

/-- R54: byte `j` of a byte string lies little-endian in payload word `floor(j / 4)`; past its end every byte of the
payload words is 0 (R73). -/
def Obligations.PayloadBytesLieLittleEndian : Prop :=
  ∀ (a : Byte) (bytes : List Byte) (j : Nat),
    ((encodeExt (.send a bytes)).getD (j / 4) 0).extractLsb' (8 * (j % 4)) 8 = bytes.getD j 0 ∧
    ((encodeExt (.tell a bytes)).getD (j / 4) 0).extractLsb' (8 * (j % 4)) 8 = bytes.getD j 0

/-- 95_test_vectors.md, 30_encoding.md: words the spec writes out, one for each command. -/
def Obligations.WrittenOutWordsDecode : Prop :=
  decode [0x10020000, 0x00002710] = .command (.listen 2 10000) [] ∧
  decode [0x20030000, 0x00002710] = .command (.talk 3 10000) [] ∧
  decode [0x30000000] = .command .begin [] ∧
  decode [0x40000000] = .command .tick [] ∧
  decode [0x50000000] = .command .awaitAll [] ∧
  decode [0x60000005, 0x03020100, 0x00000004] = .command (.send 0 [0, 1, 2, 3, 4]) [] ∧
  decode [0x70000001, 0x000000A5] = .command (.tell 0 [0xA5]) [] ∧
  decode [0x88030000] = .command (.read 3) [] ∧
  decode [0x98010000] = .command (.peek 1) [] ∧
  decode [0xA0010000] = .command (.bufferedCount .talker 1) [] ∧
  decode [0xB8000000] = .command (.isAvailable .listener 0) [] ∧
  decode [0xC8010004] = .command (.recieve 1 4) [] ∧
  decode [0xD0010000] = .command (.isActivated .talker 1) [] ∧
  decode [0xE8000000] = .command (.await 0) [] ∧
  decode [0xF8020000] = .command (.reset .listener 2) []

/-! ### Stepping, faults and responses -/

/-- R40, R76: a ready block whose port holds a whole command executes exactly that command, in the state without its
words. -/
def Obligations.StepRunsTheDecodedCommand : Prop :=
  ∀ (s : State) (i : Instr) (rest : List Word), s.Ready → s.resetRequest = false →
    decode s.inbox = .command i rest → step s = exec i { s with inbox := rest }

/-- R40, R242: while a blocking command runs, no command starts and no step takes words from the port; the step is the
engine's micro-step. -/
def Obligations.NoCommandStartsWhileTheEngineRuns : Prop :=
  ∀ s : State, s.engine ≠ .idle →
    (∀ (i : Instr) (t : State), exec i s ≠ .next t) ∧
    (s.resetRequest = false → s.fault = none →
      step s = microStep s ∧ ∀ t, step s = .next t → t.inbox = s.inbox ∧ t.order = s.order)

/-- R206: after a fault no command starts and no step is taken; only power-on reset goes on, to the empty block. That the
host asks for a power-on reset by the flag `resetRequest` is the model's choice (log entry 10). -/
def Obligations.FaultStopsTheBlock : Prop :=
  ∀ (s : State) (f : FaultRecord), s.fault = some f →
    (∀ i : Instr, exec i s = .fault (.stopped f.code f.header)) ∧
    (s.resetRequest = false → step s = .fault (.stopped f.code f.header)) ∧
    (s.resetRequest = true → ∃ t, step s = .next t ∧ t.fault = none ∧ t.engine = .idle ∧ t.talkers = [] ∧
      t.listeners = [] ∧ t.order = [] ∧ t.history = [])

/-- R205: a command that raises a fault, whether its words decode or not, changes nothing but the fault register, which then
holds the header of the command at the port; no micro-step raises a fault; and BUFFER_FULL is never raised. -/
def Obligations.FaultsArePrecise : Prop :=
  (∀ (i : Instr) (s t : State) (f : FaultRecord), exec i s = .next t → t.fault = some f →
    t = { s with fault := some f } ∧ f.header = encodeHeader i ∧ f.code ≠ .bufferFull) ∧
  (∀ (s t : State) (f : FaultRecord), s.fault = none → step s = .next t → t.fault = some f →
    ∃ ws rest : List Word, s.inbox = f.header :: (ws ++ rest) ∧ t = { s with inbox := rest, fault := some f } ∧
      f.code ≠ .bufferFull) ∧
  (∀ s t : State, s.engine ≠ .idle → step s = .next t → t.fault = none)

/-- R203, R204: which fault each command raises: the first check of `checks` that fails, in the order of R204; a command
whose checks all pass completes without a fault. -/
def Obligations.FirstFailingCheckDecidesTheFault : Prop :=
  ∀ (i : Instr) (s : State), s.Ready →
    match (checks s i).find? (·.1) with
    | some c => exec i s = .next { s with fault := some ⟨c.2, encodeHeader i⟩ }
    | none => ∃ t, exec i s = .next t ∧ t.fault = none

/-- R125: every per-channel command whose index is not below its kind's count faults with INVALID_HANDLE, whatever else
holds. -/
def Obligations.BadHandlesFault : Prop :=
  ∀ (s : State) (a : Byte), s.Ready →
    (s.talkers.length ≤ a.toNat → ∀ i : Instr,
      ((∃ bytes, i = .send a bytes) ∨ (∃ bytes, i = .tell a bytes) ∨ i = .bufferedCount .talker a ∨
        i = .isAvailable .talker a ∨ i = .isActivated .talker a ∨ i = .reset .talker a) →
      exec i s = .next { s with fault := some ⟨.invalidHandle, encodeHeader i⟩ }) ∧
    (s.listeners.length ≤ a.toNat → ∀ i : Instr,
      (i = .read a ∨ i = .peek a ∨ i = .await a ∨ (∃ n, i = .recieve a n) ∨ i = .bufferedCount .listener a ∨
        i = .isAvailable .listener a ∨ i = .isActivated .listener a ∨ i = .reset .listener a) →
      exec i s = .next { s with fault := some ⟨.invalidHandle, encodeHeader i⟩ })

/-- R78, R79: a command that completes returns exactly one response word, one that faults or starts to block returns none
yet, and a blocking command returns its word, OK with value 0, with the micro-step that ends it. Only SEND returns the
status BACKPRESSURE. -/
def Obligations.EachCommandAnswersOnce : Prop :=
  (∀ (i : Instr) (s t : State), exec i s = .next t →
    (t.fault ≠ none ∧ t.responses = s.responses) ∨
    (t.fault = none ∧ t.engine ≠ .idle ∧ t.responses = s.responses) ∨
    (t.fault = none ∧ t.engine = .idle ∧ ∃ w : Word, t.responses = s.responses ++ [w] ∧
      (w.extractLsb' 16 16 = 0 ∨ w = 0x00010000 ∧ ∃ a bytes, i = .send a bytes))) ∧
  (∀ s t : State, s.resetRequest = false → s.engine ≠ .idle → step s = .next t →
    (t.engine ≠ .idle ∧ t.responses = s.responses) ∨ (t.engine = .idle ∧ t.responses = s.responses ++ [0]))

/-- R43, R220, R70: what power-on reset leaves, at the start of a run and when the host asks for it; then the block waits. The
model's choices here are the request flag and what a reset keeps of the host's port (log entry 10), the empty port and the
other values of the model's own fields at reset (log entry 12), that waiting is a step that changes nothing (log entry 2),
and that a command not wholly delivered takes no word from the port (log entries 2 and 14). -/
def Obligations.PowerOnLeavesTheEmptyBlock : Prop :=
  (State.reset.talkers = [] ∧ State.reset.listeners = [] ∧ State.reset.order = [] ∧ State.reset.fault = none ∧
    State.reset.engine = .idle ∧ State.reset.history = [] ∧ step State.reset = .next State.reset) ∧
  (∀ s : State, s.resetRequest = true →
    step s = .next { s with talkers := [], listeners := [], order := [], fault := none, engine := .idle, history := [],
                            resetRequest := false }) ∧
  (∀ s : State, s.Ready → s.resetRequest = false → decode s.inbox = .incomplete → step s = .next s)

/-- R9, R213: a clock read gives the low `CLK_W` bits of the environment's next answer and a line read its next level,
each answer used once and in order; a clock value is always below `2^CLK_W`. That the
answers stand in lists is the model's choice (log entry 1). -/
def Obligations.EnvironmentAnswersInOrder : Prop :=
  (∀ (p : Config) (e : Env) (d : BitVec 64) (ds : List (BitVec 64)), e.clock = d :: ds →
    e.now p = (d.toNat % 2 ^ p.clkW, { e with clock := ds })) ∧
  (∀ (e : Env) (pin : Byte) (v : Level) (vs : List Level), e.lines = v :: vs →
    e.readLine pin = (v, { e with lines := vs })) ∧
  (∀ (p : Config) (e : Env), (e.now p).1 < 2 ^ p.clkW ∧ (e.now p).2.lines = e.lines)

/-! ### Clock arithmetic, FIFO, bit assembly -/

/-- R100: `elapsed` is the difference of the two clock values modulo `M`, in `0 .. M-1`. -/
def Obligations.ElapsedIsTheDifferenceModuloM : Prop :=
  ∀ m now since : Nat, now < m → since < m →
    (elapsed m now since : Int) = ((now : Int) - since) % m ∧ elapsed m now since < m

/-- R101: after a true time of `d` microseconds, `elapsed` is `d` if `d < M`, and `d mod M` in any case. -/
def Obligations.ElapsedIsTheTrueTimeModuloM : Prop :=
  ∀ m since d : Nat, since < m →
    elapsed m ((since + d) % m) since = d % m ∧ (d < m → elapsed m ((since + d) % m) since = d)

/-- R106 to R110: the FIFO primitives on the bytes a FIFO holds. -/
def Obligations.FifoPrimitivesActOnTheContents : Prop :=
  ∀ (p : Config) (f : Fifo), p.Legal → f.Wf p.bufferMaxSize →
    (f.contents p.bufferMaxSize).length = f.size ∧ f.size ≤ p.bufferMaxSize ∧
    (∀ b, f.size = p.bufferMaxSize → f.push p.bufferMaxSize b = none) ∧
    (∀ b, f.size < p.bufferMaxSize → ∃ f', f.push p.bufferMaxSize b = some f' ∧ f'.Wf p.bufferMaxSize ∧
      f'.start = f.start ∧ f'.stop = f.stop + 1 ∧
      f'.contents p.bufferMaxSize = f.contents p.bufferMaxSize ++ [b]) ∧
    (f.size = 0 → f.pop p.bufferMaxSize = none ∧ f.peek p.bufferMaxSize = none) ∧
    (∀ b bs, f.contents p.bufferMaxSize = b :: bs → f.peek p.bufferMaxSize = some b ∧
      ∃ f', f.pop p.bufferMaxSize = some (b, f') ∧ f'.Wf p.bufferMaxSize ∧ f'.slots = f.slots ∧
        f'.start = f.start + 1 ∧ f'.stop = f.stop ∧ f'.contents p.bufferMaxSize = bs) ∧
    (f.clear.slots = f.slots ∧ f.clear.start = 0 ∧ f.clear.stop = 0 ∧ f.clear.contents p.bufferMaxSize = [])

/-- R111: over any sequence of pushes and pops without a fault, the bytes popped and then the bytes left are the bytes held
at first and then the bytes pushed, in order. So the popped bytes are a prefix of what went in. -/
def Obligations.FifoIsFirstInFirstOut : Prop :=
  ∀ (p : Config) (f f' : Fifo) (ops : List FifoOp) (out : List Byte), p.Legal → f.Wf p.bufferMaxSize →
    f.run p.bufferMaxSize ops = some (f', out) →
    f'.Wf p.bufferMaxSize ∧
    out ++ f'.contents p.bufferMaxSize = f.contents p.bufferMaxSize ++ pushed ops

/-- R112, R113: eight samples `v0 .. v7` assembled from 0 give the byte with `v_k` at weight `2^k` (LSB_FIRST) or
`2^(7-k)` (MSB_FIRST), whose frame bits are `v0 .. v7` again. -/
def Obligations.AssembledByteHasTheSampledBits : Prop :=
  ∀ (o : BitOrder) (v : List Level), v.length = 8 →
    let acc := (List.range 8).foldl (fun acc k => accInsert o acc k (v.getD k false)) 0
    (List.range 8).map (frameBit o acc) = v ∧
    acc.toNat = ((List.range 8).map fun k => (v.getD k false).toNat * (match o with
      | .lsbFirst => 2 ^ k
      | .msbFirst => 2 ^ (7 - k))).sum

/-! ### Channel commands -/

/-- R122, R123, R124: the three queries report the channel's flag or FIFO size and change nothing but the responses. -/
def Obligations.QueriesReportAndChangeNothing : Prop :=
  ∀ (s : State) (a : Byte) (ch : Channel), s.Ready →
    (s.talkers[a.toNat]? = some ch →
      exec (.bufferedCount .talker a) s =
        .next { s with responses := s.responses ++ [0#16 ++ BitVec.ofNat 16 (ch.buf.stop - ch.buf.start)] } ∧
      exec (.isAvailable .talker a) s =
        .next { s with responses := s.responses ++ [0#31 ++ BitVec.ofBool ch.available] } ∧
      exec (.isActivated .talker a) s =
        .next { s with responses := s.responses ++ [0#31 ++ BitVec.ofBool ch.activated] }) ∧
    (s.listeners[a.toNat]? = some ch →
      exec (.bufferedCount .listener a) s =
        .next { s with responses := s.responses ++ [0#16 ++ BitVec.ofNat 16 (ch.buf.stop - ch.buf.start)] } ∧
      exec (.isAvailable .listener a) s =
        .next { s with responses := s.responses ++ [0#31 ++ BitVec.ofBool ch.available] } ∧
      exec (.isActivated .listener a) s =
        .next { s with responses := s.responses ++ [0#31 ++ BitVec.ofBool ch.activated] })

/-- R120, R121: RESET writes exactly five fields of its channel, each 0, and returns OK. -/
def Obligations.ResetZeroesFiveFields : Prop :=
  ∀ (s : State) (a : Byte) (ch : Channel), s.Ready →
    (s.talkers[a.toNat]? = some ch → exec (.reset .talker a) s = .next
      { s with
        talkers := s.talkers.set a.toNat
          { ch with timeAnchor := 0, activated := false, midActivated := false, accumulator := 0, bitsDone := 0 }
        responses := s.responses ++ [0] }) ∧
    (s.listeners[a.toNat]? = some ch → exec (.reset .listener a) s = .next
      { s with
        listeners := s.listeners.set a.toNat
          { ch with timeAnchor := 0, activated := false, midActivated := false, accumulator := 0, bitsDone := 0 }
        responses := s.responses ++ [0] })

/-- R228: after RESET of an unavailable listener, one high sample at a clock value of at least `MIN_AVAILABLE_DELTA` makes it
available. R121: after RESET of a talker with a byte queued, its next step starts that byte's frame from the wake-up. -/
def Obligations.ResetRestartsTheTimerAndTheFrame : Prop :=
  (∀ (p : Config) (ch : Channel) (now : Nat) (e : Env), ch.available = false →
    (e.readLine ch.pin).1 = true → p.minAvailableDelta ≤ now → (rxStep p ch.reset now e).1.available = true) ∧
  (∀ (p : Config) (ch : Channel) (now : Nat) (b : Byte) (bs : List Byte), p.Legal → ch.buf.Wf p.bufferMaxSize →
    ch.buf.contents p.bufferMaxSize = b :: bs →
    txStep p ch.reset now =
      ({ ch with accumulator := b, previousLevel := true, timeAnchor := now, midActivated := true, activated := false,
                 bitsDone := 0 }, [.write ch.pin true now]))

/-! ### Receive -/

/-- R139: READ returns the oldest byte and removes it, and changes nothing else. -/
def Obligations.ReadPopsTheOldestByte : Prop :=
  ∀ (s : State) (a : Byte) (ch : Channel) (b : Byte) (bs : List Byte), s.Ready → s.cfg.Legal →
    s.listeners[a.toNat]? = some ch → ch.buf.Wf s.cfg.bufferMaxSize →
    ch.buf.contents s.cfg.bufferMaxSize = b :: bs →
    exec (.read a) s = .next
      { s with
        listeners := s.listeners.set a.toNat { ch with buf := { ch.buf with start := ch.buf.start + 1 } }
        responses := s.responses ++ [0#24 ++ b] } ∧
    ({ ch.buf with start := ch.buf.start + 1 } : Fifo).contents s.cfg.bufferMaxSize = bs

/-- R140: PEEK returns the oldest byte and changes nothing but the responses. -/
def Obligations.PeekReturnsTheOldestByte : Prop :=
  ∀ (s : State) (a : Byte) (ch : Channel) (b : Byte) (bs : List Byte), s.Ready → s.cfg.Legal →
    s.listeners[a.toNat]? = some ch → ch.buf.Wf s.cfg.bufferMaxSize →
    ch.buf.contents s.cfg.bufferMaxSize = b :: bs →
    exec (.peek a) s = .next { s with responses := s.responses ++ [0#24 ++ b] }

/-- R133: the step of an unavailable listener. -/
def Obligations.UnavailableListenerStep : Prop :=
  ∀ (p : Config) (ch : Channel) (now : Nat) (e : Env), ch.available = false →
    rxStep p ch now e =
      (if (e.readLine ch.pin).1 = false then { ch with timeAnchor := now, previousLevel := false }
       else if elapsed p.modulus now ch.timeAnchor ≥ p.minAvailableDelta then
         { ch with available := true, previousLevel := true }
       else { ch with previousLevel := true },
       (e.readLine ch.pin).2)

/-- R134: the step of a listener in HUNT. -/
def Obligations.HuntingListenerStep : Prop :=
  ∀ (p : Config) (ch : Channel) (now : Nat) (e : Env),
    ch.available = true → ch.activated = false → ch.midActivated = false →
    rxStep p ch now e =
      (match (e.readLine ch.pin).1, ch.previousLevel with
       | true, false => { ch with timeAnchor := now, previousLevel := true }
       | true, true => ch
       | false, false => ch
       | false, true =>
         if elapsed p.modulus now ch.timeAnchor ≥ ch.period / 2 then
           { ch with timeAnchor := now, midActivated := true, previousLevel := false }
         else { ch with previousLevel := false },
       (e.readLine ch.pin).2)

/-- R135: the step of a listener in CONFIRM. Before the half period it reads nothing and writes nothing. -/
def Obligations.ConfirmingListenerStep : Prop :=
  ∀ (p : Config) (ch : Channel) (now : Nat) (e : Env),
    ch.available = true → ch.activated = false → ch.midActivated = true →
    rxStep p ch now e =
      if elapsed p.modulus now ch.timeAnchor ≥ ch.period / 2 then
        (match (e.readLine ch.pin).1 with
         | false => { ch with previousLevel := false, activated := true,
                              timeAnchor := (ch.timeAnchor + ch.period / 2) % 2 ^ p.clkW }
         | true => { ch with previousLevel := true, midActivated := false, timeAnchor := now },
         (e.readLine ch.pin).2)
      else (ch, e)

/-- R136, R137: the step of a listener in SAMPLING. One bit is sampled once a full bit period has elapsed; the eighth bit
completes the byte, which is pushed if there is room and dropped if the FIFO is full, and resets the channel. -/
def Obligations.SamplingListenerStep : Prop :=
  ∀ (p : Config) (ch : Channel) (now : Nat) (e : Env), p.Legal → ch.buf.Wf p.bufferMaxSize →
    ch.available = true → ch.activated = true → ch.bitsDone.toNat < 8 →
    let acc := accInsert p.bitOrder ch.accumulator ch.bitsDone.toNat (e.readLine ch.pin).1
    (elapsed p.modulus now ch.timeAnchor < ch.period → rxStep p ch now e = (ch, e)) ∧
    (ch.period ≤ elapsed p.modulus now ch.timeAnchor → ch.bitsDone.toNat < 7 →
      rxStep p ch now e =
        ({ ch with previousLevel := (e.readLine ch.pin).1, accumulator := acc, bitsDone := ch.bitsDone + 1,
                   timeAnchor := (ch.timeAnchor + ch.period) % 2 ^ p.clkW }, (e.readLine ch.pin).2)) ∧
    (ch.period ≤ elapsed p.modulus now ch.timeAnchor → ch.bitsDone.toNat = 7 → ∃ buf' : Fifo,
      rxStep p ch now e =
        ({ ch with previousLevel := (e.readLine ch.pin).1, accumulator := 0, bitsDone := 0, timeAnchor := 0,
                   activated := false, midActivated := false, buf := buf' }, (e.readLine ch.pin).2) ∧
      (ch.buf.size < p.bufferMaxSize →
        buf'.contents p.bufferMaxSize = ch.buf.contents p.bufferMaxSize ++ [acc] ∧ buf'.start = ch.buf.start) ∧
      (ch.buf.size = p.bufferMaxSize → buf' = ch.buf))

/-- R141: acceptance of AWAIT on a listener that exists. -/
def Obligations.AwaitAcceptance : Prop :=
  ∀ (s : State) (a : Byte) (ch : Channel), s.Ready → s.listeners[a.toNat]? = some ch →
    (ch.configured = false →
      exec (.await a) s = .next { s with fault := some ⟨.notConfigured, 0xE8#8 ++ a ++ 0#16⟩ }) ∧
    (ch.configured = true → ch.available = true →
      exec (.await a) s = .next { s with responses := s.responses ++ [0] }) ∧
    (ch.configured = true → ch.available = false →
      exec (.await a) s = .next { s with engine := .await a.toNat })

/-- R141: a micro-step of AWAIT: one clock read, one sample, the availability step, and completion once available. -/
def Obligations.AwaitMicroStep : Prop :=
  ∀ (s : State) (i : Nat) (ch : Channel), s.fault = none → s.resetRequest = false → s.engine = .await i →
    s.listeners[i]? = some ch → ch.available = false →
    let r := s.envAfterClock.readLine ch.pin
    step s = .next (
      if r.1 = true ∧ s.cfg.minAvailableDelta ≤ elapsed s.cfg.modulus s.clockNow ch.timeAnchor then
        { s with listeners := s.listeners.set i { ch with available := true, previousLevel := true }
                 env := r.2, engine := .idle, responses := s.responses ++ [0] }
      else
        { s with listeners := s.listeners.set i
                   { ch with timeAnchor := if r.1 then ch.timeAnchor else s.clockNow, previousLevel := r.1 }
                 env := r.2 })

/-- R142: acceptance of RECIEVE on a listener that exists, the checks in their order. -/
def Obligations.RecieveAcceptance : Prop :=
  ∀ (s : State) (a : Byte) (n : BitVec 16) (ch : Channel), s.Ready → s.listeners[a.toNat]? = some ch →
    exec (.recieve a n) s = .next (
      if n.toNat > s.cfg.bufferMaxSize then { s with fault := some ⟨.receiveTooLong, 0xC8#8 ++ a ++ n⟩ }
      else if ch.configured = false then { s with fault := some ⟨.notConfigured, 0xC8#8 ++ a ++ n⟩ }
      else if ch.midActivated = true ∨ ch.activated = true then
        { s with fault := some ⟨.mixedPath, 0xC8#8 ++ a ++ n⟩ }
      else { s with engine := .recieve a.toNat n.toNat .avail 0 })

/-- R143, R144: the micro-steps of RECIEVE, phase by phase, with the completion test after each. -/
def Obligations.RecieveMicroSteps : Prop :=
  ∀ (s : State) (i n ts : Nat) (ph : RecievePhase) (ch : Channel), s.fault = none → s.resetRequest = false →
    s.engine = .recieve i n ph ts → s.listeners[i]? = some ch →
    let now := s.clockNow
    let e := s.envAfterClock
    let r := rxStep s.cfg ch now e
    let v := e.readLine ch.pin
    (ph = .avail → ch.available = false →
      step s = .next { s with listeners := s.listeners.set i r.1, env := r.2 }) ∧
    (ph = .avail → ch.available = true →
      step s = .next
        { s with listeners := s.listeners.set i { ch with buf := { ch.buf with start := 0, stop := 0 } }
                 env := e, engine := .recieve i n .settle now }) ∧
    (ph = .settle → elapsed s.cfg.modulus now ts < s.cfg.settlePeriods * ch.period →
      step s = .next { s with env := e }) ∧
    (ph = .settle → s.cfg.settlePeriods * ch.period ≤ elapsed s.cfg.modulus now ts →
      let ch' := { ch with previousLevel := v.1, timeAnchor := now }
      step s = .next (
        if ch.buf.size = n then
          { s with listeners := s.listeners.set i ch', env := v.2, engine := .idle,
                   responses := s.responses ++ [0] }
        else { s with listeners := s.listeners.set i ch', env := v.2, engine := .recieve i n .bytes ts })) ∧
    (ph = .bytes →
      step s = .next (
        if r.1.buf.size = n then
          { s with listeners := s.listeners.set i r.1, env := r.2, engine := .idle,
                   responses := s.responses ++ [0] }
        else { s with listeners := s.listeners.set i r.1, env := r.2 }))

/-! ### Transmit -/

/-- R160, R162: the step of a talker in IDLE: nothing with an empty FIFO, else the wake-up. -/
def Obligations.IdleTalkerStep : Prop :=
  ∀ (p : Config) (ch : Channel) (now : Nat), p.Legal → ch.buf.Wf p.bufferMaxSize →
    ch.activated = false → ch.midActivated = false →
    (ch.buf.contents p.bufferMaxSize = [] → txStep p ch now = (ch, [])) ∧
    (∀ b bs, ch.buf.contents p.bufferMaxSize = b :: bs →
      txStep p ch now =
        ({ ch with accumulator := b, previousLevel := true, timeAnchor := now, midActivated := true },
         [.write ch.pin true now]))

/-- R163: the step of a talker in RAISED. -/
def Obligations.RaisedTalkerStep : Prop :=
  ∀ (p : Config) (ch : Channel) (now : Nat), ch.activated = false → ch.midActivated = true →
    txStep p ch now =
      if elapsed p.modulus now ch.timeAnchor ≥ ch.period then
        ({ ch with previousLevel := false, timeAnchor := (ch.timeAnchor + ch.period) % 2 ^ p.clkW, activated := true },
         [.write ch.pin false now])
      else (ch, [])

/-- R164: the step of a talker in LOWERED or in STREAMING(k) with `k < 8`. -/
def Obligations.StreamingTalkerStep : Prop :=
  ∀ (p : Config) (ch : Channel) (now : Nat), ch.activated = true → ch.bitsDone.toNat < 8 →
    let b := frameBit p.bitOrder ch.accumulator ch.bitsDone.toNat
    txStep p ch now =
      if elapsed p.modulus now ch.timeAnchor ≥ ch.period then
        ({ ch with previousLevel := b, timeAnchor := (ch.timeAnchor + ch.period) % 2 ^ p.clkW,
                   bitsDone := ch.bitsDone + 1 }, [.write ch.pin b now])
      else (ch, [])

/-- R165: the step of a talker in STREAMING(8): the end mark pops the sent byte and resets the channel. -/
def Obligations.EndMarkTalkerStep : Prop :=
  ∀ (p : Config) (ch : Channel) (now : Nat), p.Legal → ch.buf.Wf p.bufferMaxSize → 0 < ch.buf.size →
    ch.activated = true → ch.bitsDone.toNat = 8 →
    txStep p ch now =
      if elapsed p.modulus now ch.timeAnchor ≥ ch.period then
        ({ ch with previousLevel := true, timeAnchor := 0, activated := false, midActivated := false, accumulator := 0,
                   bitsDone := 0, buf := { ch.buf with start := ch.buf.start + 1 } },
         [.write ch.pin true now])
      else (ch, [])

/-- R167: SEND queues all its bytes in order, or, where they do not all fit, queues none and returns BACKPRESSURE. -/
def Obligations.SendEnqueuesAllOrNothing : Prop :=
  ∀ (s : State) (a : Byte) (bytes : List Byte) (ch : Channel), s.Ready → s.cfg.Legal →
    s.talkers[a.toNat]? = some ch → ch.buf.Wf s.cfg.bufferMaxSize →
    (ch.buf.size + bytes.length ≤ s.cfg.bufferMaxSize → ∃ buf' : Fifo,
      exec (.send a bytes) s = .next
        { s with talkers := s.talkers.set a.toNat { ch with buf := buf' }, responses := s.responses ++ [0] } ∧
      buf'.contents s.cfg.bufferMaxSize = ch.buf.contents s.cfg.bufferMaxSize ++ bytes ∧
      buf'.start = ch.buf.start ∧ buf'.stop = ch.buf.stop + bytes.length) ∧
    (s.cfg.bufferMaxSize < ch.buf.size + bytes.length →
      exec (.send a bytes) s = .next { s with responses := s.responses ++ [0x00010000] })

/-- R168: acceptance of TELL on a talker that exists, the checks in their order. -/
def Obligations.TellAcceptance : Prop :=
  ∀ (s : State) (a : Byte) (bytes : List Byte) (ch : Channel), s.Ready → s.talkers[a.toNat]? = some ch →
    (ch.configured = false → exec (.tell a bytes) s = .next
      { s with fault := some ⟨.notConfigured, 0x70#8 ++ a ++ BitVec.ofNat 16 bytes.length⟩ }) ∧
    (ch.configured = true → (ch.midActivated = true ∨ ch.activated = true ∨ 0 < ch.buf.size) →
      exec (.tell a bytes) s = .next
        { s with fault := some ⟨.mixedPath, 0x70#8 ++ a ++ BitVec.ofNat 16 bytes.length⟩ }) ∧
    (ch.configured = true → ch.midActivated = false → ch.activated = false → ch.buf.size = 0 →
      exec (.tell a bytes) s = .next (
        if bytes = [] then { s with responses := s.responses ++ [0] }
        else { s with engine := .tell a.toNat (tellSchedule s.cfg.bitOrder ch.period bytes) 0 none }))

/-- R169: every entry of TELL's schedule. -/
def Obligations.TellScheduleEntries : Prop :=
  ∀ (o : BitOrder) (t : Nat) (bytes : List Byte),
    (tellSchedule o t bytes).length = 10 * bytes.length + 1 ∧
    (∀ i b, bytes[i]? = some b →
      (tellSchedule o t bytes)[10 * i]? = some (10 * t * i, true) ∧
      (tellSchedule o t bytes)[10 * i + 1]? = some (10 * t * i + t, false) ∧
      ∀ k, k < 8 → (tellSchedule o t bytes)[10 * i + (2 + k)]? = some (10 * t * i + (2 + k) * t, frameBit o b k)) ∧
    (tellSchedule o t bytes)[10 * bytes.length]? = some (10 * t * bytes.length, true)

/-- R170, R171: a micro-step of TELL: the next entry's level is driven once its offset from the start time has passed, at
most one entry a micro-step, and the last entry completes the command. -/
def Obligations.TellMicroStep : Prop :=
  ∀ (s : State) (i idx : Nat) (sched : List (Nat × Level)) (t0 : Option Nat) (ch : Channel) (off : Nat) (lvl : Level),
    s.fault = none → s.resetRequest = false → s.engine = .tell i sched idx t0 → s.talkers[i]? = some ch →
    sched[idx]? = some (off, lvl) →
    let now := s.clockNow
    let origin := t0.getD now
    let driven : State :=
      { s with talkers := s.talkers.set i { ch with previousLevel := lvl }, env := s.envAfterClock,
               history := s.history ++ [.write ch.pin lvl now] }
    (elapsed s.cfg.modulus now origin < off →
      step s = .next { s with env := s.envAfterClock, engine := .tell i sched idx (some origin) }) ∧
    (off ≤ elapsed s.cfg.modulus now origin → idx + 1 < sched.length →
      step s = .next { driven with engine := .tell i sched (idx + 1) (some origin) }) ∧
    (off ≤ elapsed s.cfg.modulus now origin → idx + 1 = sched.length →
      step s = .next { driven with engine := .idle, responses := s.responses ++ [0] })

/-- R143, R170: a settling wait or a deadline of `2^CLK_W` microseconds or more never passes: the command hangs. -/
def Obligations.TooLongWaitsHang : Prop :=
  (∀ (s t : State) (i n ts : Nat) (ch : Channel), s.resetRequest = false → s.engine = .recieve i n .settle ts →
    s.listeners[i]? = some ch → 2 ^ s.cfg.clkW ≤ s.cfg.settlePeriods * ch.period → step s = .next t →
    t.engine = s.engine ∧ t.listeners = s.listeners) ∧
  (∀ (s t : State) (i idx : Nat) (sched : List (Nat × Level)) (t0 off : Nat) (lvl : Level), s.resetRequest = false →
    s.engine = .tell i sched idx (some t0) → sched[idx]? = some (off, lvl) → 2 ^ s.cfg.clkW ≤ off →
    step s = .next t → t.engine = s.engine ∧ t.history = s.history)

/-! ### Aggregator -/

/-- R180, R181, R182: registration with its checks in order, and the zero record it writes. -/
def Obligations.RegistrationAddsAZeroRecord : Prop :=
  ∀ (s : State) (pin : Byte) (baud : Word), s.Ready →
    let record (k : Kind) : Channel :=
      { kind := k, pin := pin, bitPeriodUs := BitVec.ofNat 32 (1000000 / baud.toNat), timeAnchor := 0,
        activated := false, midActivated := false, available := false, previousLevel := false, accumulator := 0,
        bitsDone := 0, configured := false,
        buf := { slots := List.replicate s.cfg.bufferMaxSize 0, start := 0, stop := 0 } }
    exec (.listen pin baud) s = .next (
      if s.listeners.length = s.cfg.maxListeners then
        { s with fault := some ⟨.capacityExceeded, 0x10#8 ++ pin ++ 0#16⟩ }
      else if baud = 0 then { s with fault := some ⟨.zeroBaud, 0x10#8 ++ pin ++ 0#16⟩ }
      else
        { s with listeners := s.listeners ++ [record .listener],
                 order := s.order ++ [⟨.listener, s.listeners.length⟩],
                 responses := s.responses ++ [0#16 ++ BitVec.ofNat 16 s.listeners.length] }) ∧
    exec (.talk pin baud) s = .next (
      if s.talkers.length = s.cfg.maxTalkers then
        { s with fault := some ⟨.capacityExceeded, 0x20#8 ++ pin ++ 0#16⟩ }
      else if baud = 0 then { s with fault := some ⟨.zeroBaud, 0x20#8 ++ pin ++ 0#16⟩ }
      else
        { s with talkers := s.talkers ++ [record .talker],
                 order := s.order ++ [⟨.talker, s.talkers.length⟩],
                 responses := s.responses ++ [0#16 ++ BitVec.ofNat 16 s.talkers.length] })

/-- R102: the bit period register holds `floor(1000000 / baud)` for every nonzero baud rate, and the half bit period is half
of it, rounded down. -/
def Obligations.BitPeriodOfABaudRate : Prop :=
  ∀ (p : Config) (k : Kind) (pin : Byte) (baud : Word), baud ≠ 0 →
    (newChannel p k pin baud).period = 1000000 / baud.toNat ∧
    (newChannel p k pin baud).halfPeriod = 1000000 / baud.toNat / 2 ∧
    (1000000 < baud.toNat → (newChannel p k pin baud).period = 0)

/-- R183, R7, R10, R41: BEGIN configures each channel that is not configured, in registration order. `env k` is the
environment that the step of the `k`-th channel in registration order sees. That step makes one clock read, and its value
is a listener's anchor and the time of every line event of the channel; a configured channel reads no clock, drives
nothing and keeps its record. -/
def Obligations.BeginConfiguresEveryChannel : Prop :=
  ∀ s : State, s.Ready → s.Inv → ∃ (t : State) (env : Nat → Env), exec .begin s = .next t ∧ SameFrame s t ∧
    t.responses = s.responses ++ [0] ∧
    (∀ h ch, s.channel h = some ch → h ∈ s.order) ∧
    env 0 = s.env ∧ t.env = env s.order.length ∧
    (∀ (k : Nat) (h : Handle), s.order[k]? = some h → ∃ ch, s.channel h = some ch ∧
      let draw := (env k).now s.cfg
      draw.1 < 2 ^ s.cfg.clkW ∧
      env (k + 1) = (if ch.configured then env k else draw.2) ∧
      t.channel h = some (
        if ch.configured then ch
        else match ch.kind with
          | .listener => { ch with timeAnchor := draw.1, configured := true }
          | .talker => { ch with previousLevel := true, configured := true })) ∧
    t.history = s.history ++ (List.range s.order.length).flatMap (fun k =>
      (s.order[k]?.bind s.channel).elim [] fun ch => beginEvents ch ((env k).now s.cfg).1) ∧
    (let n := s.order.countP fun h => !s.isConfigured h
     n ≤ s.env.clock.length → t.env = { s.env with clock := s.env.clock.drop n })

/-- R184, R187: with every channel configured, TICK steps each channel exactly once: a listener by `rx_step` with a clock
value and a line level of its own, a talker by `tx_step` with a clock value of its own. A channel's record afterwards
depends on no other channel. -/
def Obligations.TickStepsEachChannelOnce : Prop :=
  ∀ s : State, s.Ready → s.Inv → (∀ h ∈ s.order, s.isConfigured h = true) →
    ∃ t : State, exec .tick s = .next t ∧ SameFrame s t ∧ t.responses = s.responses ++ [0] ∧
      (∀ (i : Nat) (ch : Channel), s.listeners[i]? = some ch → ∃ now v, now < 2 ^ s.cfg.clkW ∧
        t.listeners[i]? = some (rxStep s.cfg ch now (Env.line v)).1) ∧
      (∀ (i : Nat) (ch : Channel), s.talkers[i]? = some ch → ∃ now, now < 2 ^ s.cfg.clkW ∧
        t.talkers[i]? = some (txStep s.cfg ch now).1) ∧
      (∃ es, t.history = s.history ++ es ∧ es.length ≤ s.talkers.length) ∧
      (s.order.length ≤ s.env.clock.length → t.env.clock = s.env.clock.drop s.order.length)

/-- R184, R10: TICK's channel steps run in registration order, each on the state the one before it left and with the next
clock value: a talker's step by `tx_step`, a listener's by `rx_step`. -/
def Obligations.TickRunsInRegistrationOrder : Prop :=
  (∀ s : State, s.Ready → s.order = [] → exec .tick s = .next { s with responses := s.responses ++ [0] }) ∧
  (∀ (s t : State) (h : Handle) (rest : List Handle) (ch : Channel), s.Ready → s.order = h :: rest →
    (∀ h ∈ s.order, s.isConfigured h = true) → s.channel h = some ch → exec .tick s = .next t →
    ∃ s₁ t₁ : State,
      (match ch.kind with
       | .talker =>
         s₁ = { s.setChannel h (txStep s.cfg ch s.clockNow).1 with
                order := rest, env := s.envAfterClock,
                history := s.history ++ (txStep s.cfg ch s.clockNow).2 }
       | .listener =>
         s₁ = { s.setChannel h (rxStep s.cfg ch s.clockNow s.envAfterClock).1 with
                order := rest, env := (rxStep s.cfg ch s.clockNow s.envAfterClock).2 }) ∧
      exec .tick s₁ = .next t₁ ∧ t = { t₁ with order := s.order })

/-- R185, R186: acceptance of AWAIT_ALL. -/
def Obligations.AwaitAllAcceptance : Prop :=
  ∀ s : State, s.Ready →
    ((∃ ch ∈ s.listeners, ch.configured = false) →
      exec .awaitAll s = .next { s with fault := some ⟨.notConfigured, 0x50000000⟩ }) ∧
    ((∀ ch ∈ s.listeners, ch.configured = true ∧ ch.available = true) →
      exec .awaitAll s = .next { s with responses := s.responses ++ [0] }) ∧
    ((∀ ch ∈ s.listeners, ch.configured = true) → (∃ ch ∈ s.listeners, ch.available = false) →
      exec .awaitAll s = .next { s with engine := .awaitAll })

/-- R186, R10, R133: one pass of AWAIT_ALL, in index order. `env i` is the environment that listener `i`'s share of the pass
sees: a listener not yet available takes one clock value and then one sample of its pin from it, and an available one takes
nothing. Nothing but listeners and the environment is touched, and the command completes once every listener is
available. -/
def Obligations.AwaitAllPass : Prop :=
  ∀ s : State, s.fault = none → s.resetRequest = false → s.engine = .awaitAll →
    ∃ (t : State) (env : Nat → Env), step s = .next t ∧
      t.talkers = s.talkers ∧ t.listeners.length = s.listeners.length ∧ t.order = s.order ∧ t.fault = none ∧
      t.history = s.history ∧ t.cfg = s.cfg ∧ t.inbox = s.inbox ∧ t.resetRequest = false ∧
      env 0 = s.env ∧ t.env = env s.listeners.length ∧
      (∀ (i : Nat) (ch : Channel), s.listeners[i]? = some ch →
        let draw := (env i).now s.cfg
        let sample := draw.2.readLine ch.pin
        draw.1 < 2 ^ s.cfg.clkW ∧
        env (i + 1) = (if ch.available then env i else sample.2) ∧
        t.listeners[i]? = some (
          if ch.available then ch
          else if sample.1 = false then { ch with timeAnchor := draw.1, previousLevel := false }
          else if elapsed (2 ^ s.cfg.clkW) draw.1 ch.timeAnchor ≥ s.cfg.minAvailableDelta then
            { ch with available := true, previousLevel := true }
          else { ch with previousLevel := true })) ∧
      ((∀ ch ∈ t.listeners, ch.available = true) → t.engine = .idle ∧ t.responses = s.responses ++ [0]) ∧
      ((∃ ch ∈ t.listeners, ch.available = false) → t.engine = .awaitAll ∧ t.responses = s.responses)

/-! ### Whole-machine rules -/

/-- The invariant holds right after reset. -/
def Obligations.ResetStateMeetsTheInvariant : Prop := State.reset.Inv

/-- R20 to R37: every step keeps the invariant: legal parameters, bounded counts, well-formed channels and FIFOs, the flag
combinations of R30, the latched byte of R34, an `order` that names each slot once, an engine record that fits its
channel, and writes on talker pins only. -/
def Obligations.EveryStepKeepsTheInvariant : Prop :=
  ∀ s t : State, s.Inv → step s = .next t → t.Inv

/-- R22, R27, R29, R36, R145: short of power-on reset, no step frees a slot, changes a channel's kind, pin or bit period, or
clears `available` or `configured`. -/
def Obligations.ChannelsKeepTheirIdentity : Prop :=
  ∀ (s t : State) (h : Handle) (ch : Channel), s.resetRequest = false → step s = .next t → s.channel h = some ch →
    ∃ ch', t.channel h = some ch' ∧ ch'.kind = ch.kind ∧ ch'.pin = ch.pin ∧ ch'.bitPeriodUs = ch.bitPeriodUs ∧
      (ch.available = true → ch'.available = true) ∧ (ch.configured = true → ch'.configured = true)

/-- R23, R24, R42: only LISTEN and TALK write the counts and `order`, each adding at most one channel of its kind at the end
of `order`; and no step, power-on reset included, changes a parameter. -/
def Obligations.OnlyRegistrationAllocates : Prop :=
  (∀ (i : Instr) (s t : State), exec i s = .next t →
    t.cfg = s.cfg ∧
    (t.order = s.order ∧ t.talkers.length = s.talkers.length ∧ t.listeners.length = s.listeners.length ∨
     (∃ pin baud, i = .listen pin baud) ∧ t.order = s.order ++ [⟨.listener, s.listeners.length⟩] ∧
       t.talkers.length = s.talkers.length ∧ t.listeners.length = s.listeners.length + 1 ∨
     (∃ pin baud, i = .talk pin baud) ∧ t.order = s.order ++ [⟨.talker, s.talkers.length⟩] ∧
       t.talkers.length = s.talkers.length + 1 ∧ t.listeners.length = s.listeners.length)) ∧
  (∀ s t : State, s.engine ≠ .idle → s.resetRequest = false → step s = .next t →
    t.cfg = s.cfg ∧ t.order = s.order ∧ t.talkers.length = s.talkers.length ∧
    t.listeners.length = s.listeners.length) ∧
  (∀ s t : State, step s = .next t → t.cfg = s.cfg)

/-- R41, R212: short of power-on reset, the line history only grows; what a step adds are writes on talkers' pins and
directions for channels that were not configured, inputs for listeners and outputs for talkers. -/
def Obligations.LineHistoryOnlyGrows : Prop :=
  ∀ s t : State, s.Inv → s.resetRequest = false → step s = .next t →
    ∃ es, t.history = s.history ++ es ∧ ∀ e ∈ es, e.time < 2 ^ s.cfg.clkW ∧
      match e with
      | .write pin _ _ => ∃ ch ∈ s.talkers, ch.pin = pin
      | .dir pin .input _ => ∃ ch ∈ s.listeners, ch.pin = pin ∧ ch.configured = false
      | .dir pin .output _ => ∃ ch ∈ s.talkers, ch.pin = pin ∧ ch.configured = false

/-- R215: a micro-step of a blocking command changes only that command's own channel, or, for AWAIT_ALL, only listeners not
yet available. -/
def Obligations.BlockingStepsFreezeOtherChannels : Prop :=
  ∀ s t : State, s.resetRequest = false → step s = .next t →
    (∀ i, s.engine = .await i → t.talkers = s.talkers ∧ ∀ j, j ≠ i → t.listeners[j]? = s.listeners[j]?) ∧
    (∀ i n ph ts, s.engine = .recieve i n ph ts →
      t.talkers = s.talkers ∧ ∀ j, j ≠ i → t.listeners[j]? = s.listeners[j]?) ∧
    (∀ i sched idx t0, s.engine = .tell i sched idx t0 →
      t.listeners = s.listeners ∧ ∀ j, j ≠ i → t.talkers[j]? = s.talkers[j]?) ∧
    (s.engine = .awaitAll → t.talkers = s.talkers ∧
      ∀ (j : Nat) (ch : Channel), s.listeners[j]? = some ch → ch.available = true → t.listeners[j]? = some ch)

/-- R58 and the commands' frames: each command leaves alone every channel but its own, and every field of its own channel
but those its rule names; a command that drives no line leaves the history, and one that reads no clock the draws. -/
def Obligations.CommandFrames : Prop :=
  (∀ (i : Instr) (s t : State), exec i s = .next t → i ≠ .begin → i ≠ .tick →
    t.history = s.history ∧ t.env = s.env ∧ t.inbox = s.inbox ∧ t.resetRequest = s.resetRequest) ∧
  (∀ (s t : State) (a : Byte), exec (.peek a) s = .next t ∨ exec (.await a) s = .next t ∨
      (∃ n, exec (.recieve a n) s = .next t) ∨ (∃ bytes, exec (.tell a bytes) s = .next t) ∨
      (∃ k, exec (.bufferedCount k a) s = .next t ∨ exec (.isAvailable k a) s = .next t ∨
        exec (.isActivated k a) s = .next t) ∨ exec .awaitAll s = .next t →
    t.talkers = s.talkers ∧ t.listeners = s.listeners) ∧
  (∀ (s t : State) (a : Byte), exec (.read a) s = .next t →
    t.talkers = s.talkers ∧ (∀ j, j ≠ a.toNat → t.listeners[j]? = s.listeners[j]?) ∧
    ∀ ch, s.listeners[a.toNat]? = some ch → ∃ start, t.listeners[a.toNat]? =
      some { ch with buf := { ch.buf with start := start } }) ∧
  (∀ (s t : State) (a : Byte) (bytes : List Byte), exec (.send a bytes) s = .next t →
    t.listeners = s.listeners ∧ (∀ j, j ≠ a.toNat → t.talkers[j]? = s.talkers[j]?) ∧
    ∀ ch, s.talkers[a.toNat]? = some ch → ∃ slots stop, t.talkers[a.toNat]? =
      some { ch with buf := { ch.buf with slots := slots, stop := stop } }) ∧
  (∀ (s t : State) (a : Byte), exec (.reset .talker a) s = .next t →
    t.listeners = s.listeners ∧ ∀ j, j ≠ a.toNat → t.talkers[j]? = s.talkers[j]?) ∧
  (∀ (s t : State) (a : Byte), exec (.reset .listener a) s = .next t →
    t.talkers = s.talkers ∧ ∀ j, j ≠ a.toNat → t.listeners[j]? = s.listeners[j]?)

/-- R146: a listener's bit count rises by exactly 1 with each bit sampled and returns to 0 with the eighth, and a step adds at
most one byte to its FIFO. -/
def Obligations.OneByteForEachSynchronizedWindow : Prop :=
  ∀ (p : Config) (ch : Channel) (now : Nat) (e : Env), p.Legal → ListenerWf p ch →
    let ch' := (rxStep p ch now e).1
    (ch'.bitsDone.toNat = ch.bitsDone.toNat ∧ ch'.buf = ch.buf) ∨
    (ch'.bitsDone.toNat = ch.bitsDone.toNat + 1 ∧ ch'.buf = ch.buf ∧ ch.activated = true ∧ ch'.activated = true) ∨
    (ch.bitsDone.toNat = 7 ∧ ch'.bitsDone = 0 ∧ ch.activated = true ∧ ch'.activated = false ∧
      ch'.midActivated = false ∧
      ((ch.buf.size < p.bufferMaxSize ∧ ch'.buf.size = ch.buf.size + 1) ∨
       (ch.buf.size = p.bufferMaxSize ∧ ch'.buf = ch.buf)))

/-- R56, R166 with steps at the nominal times: an idle talker with the byte `b` at the head of its FIFO, stepped one bit
period apart from `start`, drives exactly the frame of `b`, pops it, and is idle again. -/
def Obligations.TalkerDrivesTheFrame : Prop :=
  ∀ (p : Config) (ch : Channel) (b : Byte) (bs : List Byte) (start : Nat), p.Legal → TalkerWf p ch →
    ch.midActivated = false → ch.buf.contents p.bufferMaxSize = b :: bs →
    let t (k : Nat) : Nat := (start + k * ch.period) % 2 ^ p.clkW
    let r := txRun p ch ((List.range 11).map t)
    r.2 = [.write ch.pin true (t 0), .write ch.pin false (t 1)] ++
      (List.range 8).map (fun k => LineEvent.write ch.pin (frameBit p.bitOrder b k) (t (k + 2))) ++
      [.write ch.pin true (t 10)] ∧
    r.1 = { ch with previousLevel := true, timeAnchor := 0, activated := false, midActivated := false,
                    accumulator := 0, bitsDone := 0, buf := { ch.buf with start := ch.buf.start + 1 } } ∧
    r.1.buf.contents p.bufferMaxSize = bs

/-- R56, R138, R166: a frame sent is the byte received. A talker's frame for the byte `b`, on a line that carries it alone,
is read by a listener of the same bit period that is hunting with the line high since at least `H` and steps at the sync
pulse's falling edge, half a bit period later, and then once a bit period: the listener's FIFO gains exactly `b`. -/
def Obligations.FrameSentIsTheByteReceived : Prop :=
  ∀ (p : Config) (tx rx : Channel) (b : Byte) (bs : List Byte) (start : Nat), p.Legal →
    TalkerWf p tx → tx.midActivated = false → tx.buf.contents p.bufferMaxSize = b :: bs →
    ListenerWf p rx → rx.available = true → rx.midActivated = false → rx.previousLevel = true →
    rx.buf.size < p.bufferMaxSize → rx.period = tx.period → 1 ≤ tx.period → start + 10 * tx.period < 2 ^ p.clkW →
    rx.halfPeriod ≤ elapsed p.modulus (start + tx.period) rx.timeAnchor →
    let frame := (txRun p tx ((List.range 11).map fun k => start + k * tx.period)).2
    let edge := start + tx.period
    let times := edge :: (List.range 9).map fun k => edge + tx.period / 2 + k * tx.period
    let rx' := rxRun p rx (times.map fun x => (x, lineLevel frame x))
    rx'.buf.contents p.bufferMaxSize = rx.buf.contents p.bufferMaxSize ++ [b] ∧ rx'.rxPhase = .hunt
end

