-- ==== Sys2Proof/Laws/Fifo.lean ====
section
/-! SUPPORT. The FIFO primitives on the bytes a FIFO holds: each primitive once, and the sequence law of R111. -/

namespace Sys2Proof.Machine

theorem slotOf_eq_mod {c : Nat} (hc : ∃ k : Fin 16, c = 2 ^ k.val) (k : Nat) : slotOf c k = k % c := by
  obtain ⟨e, rfl⟩ := hc
  exact Nat.and_two_pow_sub_one_eq_mod k e

theorem capacity_pos {p : Config} (hp : p.Legal) : 0 < p.bufferMaxSize := by
  obtain ⟨e, he⟩ := hp.2.2.1
  rw [he]; exact Nat.two_pow_pos _

/-- Two cursors less than `c` apart lie in different slots. -/
theorem slotOf_ne {c a b : Nat} (hc : ∃ k : Fin 16, c = 2 ^ k.val) (h1 : a < b) (h2 : b < a + c) :
    slotOf c a ≠ slotOf c b := by
  rw [slotOf_eq_mod hc, slotOf_eq_mod hc]
  intro h
  have hd : c ∣ b - a := (Nat.modEq_iff_dvd' h1.le).mp h
  have := Nat.le_of_dvd (by omega) hd
  omega

theorem slotOf_lt {c : Nat} (hc : ∃ k : Fin 16, c = 2 ^ k.val) (k : Nat) : slotOf c k < c := by
  rw [slotOf_eq_mod hc]
  obtain ⟨e, rfl⟩ := hc
  exact Nat.mod_lt _ (Nat.two_pow_pos _)

@[simp] theorem Fifo.contents_length (c : Nat) (f : Fifo) : (f.contents c).length = f.size := by
  simp [Fifo.contents]

theorem Fifo.contents_eq_nil {c : Nat} {f : Fifo} : f.contents c = [] ↔ f.size = 0 := by
  rw [← List.length_eq_zero_iff, Fifo.contents_length]

theorem Fifo.size_le {c : Nat} {f : Fifo} (h : f.Wf c) : f.size ≤ c := by
  unfold Fifo.size; omega

/-- `Push` with room: the byte joins the contents at the end. -/
theorem Fifo.push_spec {c : Nat} (hc : ∃ k : Fin 16, c = 2 ^ k.val) {f : Fifo} (hf : f.Wf c) (hs : f.size < c)
    (b : Byte) : ∃ f', f.push c b = some f' ∧ f'.Wf c ∧ f'.start = f.start ∧ f'.stop = f.stop + 1 ∧
      f'.contents c = f.contents c ++ [b] := by
  refine ⟨{ f with slots := f.slots.set (slotOf c f.stop) b, stop := f.stop + 1 }, ?_, ?_, rfl, rfl, ?_⟩
  · simp [Fifo.push, hs.ne]
  · refine ⟨?_, ?_, ?_⟩ <;> simp_all [Fifo.size] <;> omega
  · obtain ⟨hl, h1, h2⟩ := hf
    unfold Fifo.size at hs
    simp only [Fifo.contents, Fifo.size]
    rw [show f.stop + 1 - f.start = (f.stop - f.start) + 1 by omega, List.range_succ, List.map_append]
    congr 1
    · refine List.map_congr_left fun j hj => ?_
      have hj := List.mem_range.mp hj
      have := slotOf_ne hc (a := f.start + j) (b := f.stop) (by omega) (by omega)
      simp [List.getElem?_set_ne this.symm]
    · have := slotOf_lt hc f.stop
      simp [show f.start + (f.stop - f.start) = f.stop by omega, hl, this]

theorem Fifo.push_full {c : Nat} {f : Fifo} (h : f.size = c) (b : Byte) : f.push c b = none := by
  simp [Fifo.push, h]

theorem Fifo.peek_empty {c : Nat} {f : Fifo} (h : f.size = 0) : f.peek c = none := by simp [Fifo.peek, h]

theorem Fifo.pop_empty {c : Nat} {f : Fifo} (h : f.size = 0) : f.pop c = none := by
  simp [Fifo.pop, Fifo.peek_empty h]

/-- The FIFO without its oldest byte. -/
theorem Fifo.contents_tail {c : Nat} {f : Fifo} (h : 0 < f.size) :
    f.contents c = f.slots.getD (slotOf c f.start) 0 :: ({ f with start := f.start + 1 } : Fifo).contents c := by
  unfold Fifo.size at h
  simp only [Fifo.contents, Fifo.size]
  rw [show f.stop - f.start = (f.stop - (f.start + 1)) + 1 by omega, List.range_succ_eq_map, List.map_cons, List.map_map]
  refine congrArg₂ _ (by simp) (List.map_congr_left fun j _ => ?_)
  simp [Nat.add_assoc, Nat.add_comm 1 j]

/-- `Peek` and `Pop` where the contents begin with `b`. -/
theorem Fifo.pop_spec {c : Nat} {f : Fifo} {b : Byte} {bs : List Byte} (h : f.contents c = b :: bs) :
    f.peek c = some b ∧ f.pop c = some (b, { f with start := f.start + 1 }) ∧
      ({ f with start := f.start + 1 } : Fifo).contents c = bs := by
  have hs : 0 < f.size := by rw [← Fifo.contents_length c f, h]; simp
  rw [Fifo.contents_tail hs] at h
  obtain ⟨h1, h2⟩ := List.cons.inj h
  have hp : f.peek c = some b := by simp [Fifo.peek, hs.ne', ← h1]
  exact ⟨hp, by simp [Fifo.pop, hp], h2⟩

theorem Fifo.wf_advance {c : Nat} {f : Fifo} (hf : f.Wf c) (h : 0 < f.size) :
    ({ f with start := f.start + 1 } : Fifo).Wf c := by
  unfold Fifo.size at h
  refine ⟨hf.1, ?_, ?_⟩ <;> simp only <;> omega

theorem Fifo.peek_eq_some {c : Nat} {f : Fifo} {b : Byte} (h : f.peek c = some b) :
    0 < f.size ∧ ∃ bs, f.contents c = b :: bs := by
  unfold Fifo.peek at h
  split at h
  · cases h
  · rename_i hs
    have hs : 0 < f.size := by omega
    rw [Fifo.contents_tail hs, Option.some.inj h]
    exact ⟨hs, _, rfl⟩

/-- `SEND`'s pushes where all bytes fit. -/
theorem Fifo.pushAll_spec {c : Nat} (hc : ∃ k : Fin 16, c = 2 ^ k.val) (bytes : List Byte) :
    ∀ {f : Fifo}, f.Wf c → f.size + bytes.length ≤ c →
    ∃ f', f.pushAll c bytes = some f' ∧ f'.Wf c ∧ f'.start = f.start ∧ f'.stop = f.stop + bytes.length ∧
      f'.contents c = f.contents c ++ bytes := by
  induction bytes with
  | nil => intro f hf _; exact ⟨f, rfl, hf, rfl, rfl, by simp⟩
  | cons b bs ih =>
    intro f hf hs
    simp only [List.length_cons] at hs
    obtain ⟨f₁, e₁, w₁, s₁, p₁, c₁⟩ := Fifo.push_spec hc hf (by omega) b
    have hz : f₁.size = f.size + 1 := by
      rw [← Fifo.contents_length c, c₁]; simp
    obtain ⟨f₂, e₂, w₂, s₂, p₂, c₂⟩ := ih w₁ (by omega)
    exact ⟨f₂, by simp [Fifo.pushAll, e₁, e₂], w₂, by omega, by simp only [List.length_cons]; omega, by simp [c₂, c₁]⟩

/-- No push of `SEND` finds the FIFO full, in any state (R107). -/
theorem Fifo.pushAll_ne_none {c : Nat} (bytes : List Byte) :
    ∀ {f : Fifo}, f.size + bytes.length ≤ c → f.pushAll c bytes ≠ none := by
  induction bytes with
  | nil => intro f _; simp [Fifo.pushAll]
  | cons b bs ih =>
    intro f hs
    simp only [List.length_cons] at hs
    have hn : f.size ≠ c := by omega
    simp only [Fifo.pushAll, Fifo.push, hn, if_false, Option.bind_some]
    refine ih ?_
    simp only [Fifo.size] at hs ⊢
    omega

/-- `SEND`'s pushes leave `start` as it was. -/
theorem Fifo.pushAll_start {c : Nat} (bytes : List Byte) :
    ∀ {f f' : Fifo}, f.pushAll c bytes = some f' → f'.start = f.start := by
  induction bytes with
  | nil => intro f f' h; cases h; rfl
  | cons b bs ih =>
    intro f f' h
    simp only [Fifo.pushAll, Option.bind_eq_some_iff] at h
    obtain ⟨f₁, h₁, h₂⟩ := h
    unfold Fifo.push at h₁
    split at h₁
    · cases h₁
    · cases h₁; rw [ih h₂]

end Sys2Proof.Machine
end

