-- ==== Sys2Proof/Laws/State.lean ====
section
/-! SUPPORT. What each named update of a state does to each field: one lemma a field and update. -/

namespace Sys2Proof.Machine

/-! ### Slots of one kind -/

@[simp] theorem State.setSlots_order (s : State) (k : Kind) (cs : List Channel) : (s.setSlots k cs).order = s.order := rfl
@[simp] theorem State.setSlots_fault (s : State) (k : Kind) (cs : List Channel) : (s.setSlots k cs).fault = s.fault := rfl
@[simp] theorem State.setSlots_engine (s : State) (k : Kind) (cs : List Channel) : (s.setSlots k cs).engine = s.engine := rfl
@[simp] theorem State.setSlots_history (s : State) (k : Kind) (cs : List Channel) : (s.setSlots k cs).history = s.history := rfl
@[simp] theorem State.setSlots_cfg (s : State) (k : Kind) (cs : List Channel) : (s.setSlots k cs).cfg = s.cfg := rfl
@[simp] theorem State.setSlots_inbox (s : State) (k : Kind) (cs : List Channel) : (s.setSlots k cs).inbox = s.inbox := rfl
@[simp] theorem State.setSlots_responses (s : State) (k : Kind) (cs : List Channel) : (s.setSlots k cs).responses = s.responses := rfl
@[simp] theorem State.setSlots_env (s : State) (k : Kind) (cs : List Channel) : (s.setSlots k cs).env = s.env := rfl
@[simp] theorem State.setSlots_resetRequest (s : State) (k : Kind) (cs : List Channel) : (s.setSlots k cs).resetRequest = s.resetRequest := rfl

@[simp] theorem State.setSlots_talker (s : State) (cs : List Channel) :
    s.setSlots .talker cs = { s with talkers := cs } := rfl
@[simp] theorem State.setSlots_listener (s : State) (cs : List Channel) :
    s.setSlots .listener cs = { s with listeners := cs } := rfl
@[simp] theorem State.slots_talker (s : State) : s.slots .talker = s.talkers := rfl
@[simp] theorem State.slots_listener (s : State) : s.slots .listener = s.listeners := rfl

/-! ### One channel -/

@[simp] theorem State.setChannel_order (s : State) (h : Handle) (ch : Channel) : (s.setChannel h ch).order = s.order := rfl
@[simp] theorem State.setChannel_fault (s : State) (h : Handle) (ch : Channel) : (s.setChannel h ch).fault = s.fault := rfl
@[simp] theorem State.setChannel_engine (s : State) (h : Handle) (ch : Channel) : (s.setChannel h ch).engine = s.engine := rfl
@[simp] theorem State.setChannel_history (s : State) (h : Handle) (ch : Channel) : (s.setChannel h ch).history = s.history := rfl
@[simp] theorem State.setChannel_cfg (s : State) (h : Handle) (ch : Channel) : (s.setChannel h ch).cfg = s.cfg := rfl
@[simp] theorem State.setChannel_inbox (s : State) (h : Handle) (ch : Channel) : (s.setChannel h ch).inbox = s.inbox := rfl
@[simp] theorem State.setChannel_responses (s : State) (h : Handle) (ch : Channel) : (s.setChannel h ch).responses = s.responses := rfl
@[simp] theorem State.setChannel_env (s : State) (h : Handle) (ch : Channel) : (s.setChannel h ch).env = s.env := rfl
@[simp] theorem State.setChannel_resetRequest (s : State) (h : Handle) (ch : Channel) : (s.setChannel h ch).resetRequest = s.resetRequest := rfl

@[simp] theorem State.setChannel_talker (s : State) (i : Nat) (ch : Channel) :
    s.setChannel ⟨.talker, i⟩ ch = { s with talkers := s.talkers.set i ch } := rfl
@[simp] theorem State.setChannel_listener (s : State) (i : Nat) (ch : Channel) :
    s.setChannel ⟨.listener, i⟩ ch = { s with listeners := s.listeners.set i ch } := rfl
@[simp] theorem State.channel_talker (s : State) (i : Nat) : s.channel ⟨.talker, i⟩ = s.talkers[i]? := rfl
@[simp] theorem State.channel_listener (s : State) (i : Nat) : s.channel ⟨.listener, i⟩ = s.listeners[i]? := rfl

/-! ### A response -/

@[simp] theorem State.respond_talkers (s : State) (st : Status) (v : BitVec 16) : (s.respond st v).talkers = s.talkers := rfl
@[simp] theorem State.respond_listeners (s : State) (st : Status) (v : BitVec 16) : (s.respond st v).listeners = s.listeners := rfl
@[simp] theorem State.respond_order (s : State) (st : Status) (v : BitVec 16) : (s.respond st v).order = s.order := rfl
@[simp] theorem State.respond_fault (s : State) (st : Status) (v : BitVec 16) : (s.respond st v).fault = s.fault := rfl
@[simp] theorem State.respond_engine (s : State) (st : Status) (v : BitVec 16) : (s.respond st v).engine = s.engine := rfl
@[simp] theorem State.respond_history (s : State) (st : Status) (v : BitVec 16) : (s.respond st v).history = s.history := rfl
@[simp] theorem State.respond_cfg (s : State) (st : Status) (v : BitVec 16) : (s.respond st v).cfg = s.cfg := rfl
@[simp] theorem State.respond_inbox (s : State) (st : Status) (v : BitVec 16) : (s.respond st v).inbox = s.inbox := rfl
@[simp] theorem State.respond_responses (s : State) (st : Status) (v : BitVec 16) : (s.respond st v).responses = s.responses ++ [st.bits ++ v] := rfl
@[simp] theorem State.respond_env (s : State) (st : Status) (v : BitVec 16) : (s.respond st v).env = s.env := rfl
@[simp] theorem State.respond_resetRequest (s : State) (st : Status) (v : BitVec 16) : (s.respond st v).resetRequest = s.resetRequest := rfl

/-! ### A fault taken -/

@[simp] theorem State.raise_talkers (s : State) (c : FaultCode) (w : Word) : (s.raise c w).talkers = s.talkers := rfl
@[simp] theorem State.raise_listeners (s : State) (c : FaultCode) (w : Word) : (s.raise c w).listeners = s.listeners := rfl
@[simp] theorem State.raise_order (s : State) (c : FaultCode) (w : Word) : (s.raise c w).order = s.order := rfl
@[simp] theorem State.raise_fault (s : State) (c : FaultCode) (w : Word) : (s.raise c w).fault = some ⟨c, w⟩ := rfl
@[simp] theorem State.raise_engine (s : State) (c : FaultCode) (w : Word) : (s.raise c w).engine = s.engine := rfl
@[simp] theorem State.raise_history (s : State) (c : FaultCode) (w : Word) : (s.raise c w).history = s.history := rfl
@[simp] theorem State.raise_cfg (s : State) (c : FaultCode) (w : Word) : (s.raise c w).cfg = s.cfg := rfl
@[simp] theorem State.raise_inbox (s : State) (c : FaultCode) (w : Word) : (s.raise c w).inbox = s.inbox := rfl
@[simp] theorem State.raise_responses (s : State) (c : FaultCode) (w : Word) : (s.raise c w).responses = s.responses := rfl
@[simp] theorem State.raise_env (s : State) (c : FaultCode) (w : Word) : (s.raise c w).env = s.env := rfl
@[simp] theorem State.raise_resetRequest (s : State) (c : FaultCode) (w : Word) : (s.raise c w).resetRequest = s.resetRequest := rfl

/-! ### Power-on reset -/

@[simp] theorem State.powerOn_talkers (s : State) : s.powerOn.talkers = [] := rfl
@[simp] theorem State.powerOn_listeners (s : State) : s.powerOn.listeners = [] := rfl
@[simp] theorem State.powerOn_order (s : State) : s.powerOn.order = [] := rfl
@[simp] theorem State.powerOn_fault (s : State) : s.powerOn.fault = none := rfl
@[simp] theorem State.powerOn_engine (s : State) : s.powerOn.engine = .idle := rfl
@[simp] theorem State.powerOn_history (s : State) : s.powerOn.history = [] := rfl
@[simp] theorem State.powerOn_cfg (s : State) : s.powerOn.cfg = s.cfg := rfl
@[simp] theorem State.powerOn_inbox (s : State) : s.powerOn.inbox = s.inbox := rfl
@[simp] theorem State.powerOn_responses (s : State) : s.powerOn.responses = s.responses := rfl
@[simp] theorem State.powerOn_env (s : State) : s.powerOn.env = s.env := rfl
@[simp] theorem State.powerOn_resetRequest (s : State) : s.powerOn.resetRequest = false := rfl

/-! ### Completion of a blocking command -/

@[simp] theorem State.complete_talkers (s : State) : s.complete.talkers = s.talkers := rfl
@[simp] theorem State.complete_listeners (s : State) : s.complete.listeners = s.listeners := rfl
@[simp] theorem State.complete_order (s : State) : s.complete.order = s.order := rfl
@[simp] theorem State.complete_fault (s : State) : s.complete.fault = s.fault := rfl
@[simp] theorem State.complete_engine (s : State) : s.complete.engine = .idle := rfl
@[simp] theorem State.complete_history (s : State) : s.complete.history = s.history := rfl
@[simp] theorem State.complete_cfg (s : State) : s.complete.cfg = s.cfg := rfl
@[simp] theorem State.complete_inbox (s : State) : s.complete.inbox = s.inbox := rfl
@[simp] theorem State.complete_responses (s : State) : s.complete.responses = s.responses ++ [0] := rfl
@[simp] theorem State.complete_env (s : State) : s.complete.env = s.env := rfl
@[simp] theorem State.complete_resetRequest (s : State) : s.complete.resetRequest = s.resetRequest := rfl

/-! ### Words delivered by the host -/

@[simp] theorem State.deliver_talkers (s : State) (ws : List Word) : (s.deliver ws).talkers = s.talkers := rfl
@[simp] theorem State.deliver_listeners (s : State) (ws : List Word) : (s.deliver ws).listeners = s.listeners := rfl
@[simp] theorem State.deliver_order (s : State) (ws : List Word) : (s.deliver ws).order = s.order := rfl
@[simp] theorem State.deliver_fault (s : State) (ws : List Word) : (s.deliver ws).fault = s.fault := rfl
@[simp] theorem State.deliver_engine (s : State) (ws : List Word) : (s.deliver ws).engine = s.engine := rfl
@[simp] theorem State.deliver_history (s : State) (ws : List Word) : (s.deliver ws).history = s.history := rfl
@[simp] theorem State.deliver_cfg (s : State) (ws : List Word) : (s.deliver ws).cfg = s.cfg := rfl
@[simp] theorem State.deliver_inbox (s : State) (ws : List Word) : (s.deliver ws).inbox = s.inbox ++ ws := rfl
@[simp] theorem State.deliver_responses (s : State) (ws : List Word) : (s.deliver ws).responses = s.responses := rfl
@[simp] theorem State.deliver_env (s : State) (ws : List Word) : (s.deliver ws).env = s.env := rfl
@[simp] theorem State.deliver_resetRequest (s : State) (ws : List Word) : (s.deliver ws).resetRequest = s.resetRequest := rfl

/-! ### A reset asked for by the host -/

@[simp] theorem State.requestReset_talkers (s : State) : s.requestReset.talkers = s.talkers := rfl
@[simp] theorem State.requestReset_listeners (s : State) : s.requestReset.listeners = s.listeners := rfl
@[simp] theorem State.requestReset_order (s : State) : s.requestReset.order = s.order := rfl
@[simp] theorem State.requestReset_fault (s : State) : s.requestReset.fault = s.fault := rfl
@[simp] theorem State.requestReset_engine (s : State) : s.requestReset.engine = s.engine := rfl
@[simp] theorem State.requestReset_history (s : State) : s.requestReset.history = s.history := rfl
@[simp] theorem State.requestReset_cfg (s : State) : s.requestReset.cfg = s.cfg := rfl
@[simp] theorem State.requestReset_inbox (s : State) : s.requestReset.inbox = s.inbox := rfl
@[simp] theorem State.requestReset_responses (s : State) : s.requestReset.responses = s.responses := rfl
@[simp] theorem State.requestReset_env (s : State) : s.requestReset.env = s.env := rfl
@[simp] theorem State.requestReset_resetRequest (s : State) : s.requestReset.resetRequest = true := rfl

/-! ### Words at the port of a ready block -/

@[simp] theorem State.withWords_talkers (s : State) (ws : List Word) : (s.withWords ws).talkers = s.talkers := rfl
@[simp] theorem State.withWords_listeners (s : State) (ws : List Word) : (s.withWords ws).listeners = s.listeners := rfl
@[simp] theorem State.withWords_order (s : State) (ws : List Word) : (s.withWords ws).order = s.order := rfl
@[simp] theorem State.withWords_fault (s : State) (ws : List Word) : (s.withWords ws).fault = none := rfl
@[simp] theorem State.withWords_engine (s : State) (ws : List Word) : (s.withWords ws).engine = .idle := rfl
@[simp] theorem State.withWords_history (s : State) (ws : List Word) : (s.withWords ws).history = s.history := rfl
@[simp] theorem State.withWords_cfg (s : State) (ws : List Word) : (s.withWords ws).cfg = s.cfg := rfl
@[simp] theorem State.withWords_inbox (s : State) (ws : List Word) : (s.withWords ws).inbox = ws := rfl
@[simp] theorem State.withWords_responses (s : State) (ws : List Word) : (s.withWords ws).responses = s.responses := rfl
@[simp] theorem State.withWords_env (s : State) (ws : List Word) : (s.withWords ws).env = s.env := rfl
@[simp] theorem State.withWords_resetRequest (s : State) (ws : List Word) : (s.withWords ws).resetRequest = false := rfl

end Sys2Proof.Machine
end

