-- ==== Sys2Proof/Laws/Ops.lean ====
section
/-! SUPPORT. One lemma for each shared operation that says everything it can do, and the small facts about clock values,
draws and channel slots that proofs cite instead of unfolding. -/

namespace Sys2Proof.Machine

/-! ### Clock values and draws -/

theorem Config.Legal.modulus_pos {p : Config} : 0 < p.modulus := Nat.two_pow_pos _

/-- Every legal clock is wider than the largest bit period. -/
theorem period_lt_modulus {p : Config} (hp : p.Legal) {ch : Channel} (h : ch.period ≤ 1000000) :
    ch.period < p.modulus := by
  obtain ⟨-, -, -, -, hw, -⟩ := hp
  have : 2 ^ 32 ≤ p.modulus := Nat.pow_le_pow_right (by omega) (by omega)
  omega

theorem elapsed_lt {m now since : Nat} (h : now < m) : elapsed m now since < m := by
  unfold elapsed
  split <;> omega

theorem elapsed_add {m since d : Nat} (h : since < m) : elapsed m ((since + d) % m) since = d % m := by
  have hd : d % m < m := Nat.mod_lt _ (by omega)
  have e : (since + d) % m = (since + d % m) % m := by rw [Nat.add_mod_mod]
  rw [e, elapsed]
  by_cases c : since + d % m < m
  · rw [Nat.mod_eq_of_lt c]; split <;> omega
  · rw [Nat.mod_eq_sub_mod (by omega), Nat.mod_eq_of_lt (by omega)]; split <;> omega

theorem Env.now_lt (p : Config) (e : Env) : (e.now p).1 < p.modulus := by
  unfold Env.now
  split <;> exact Nat.mod_lt _ (Nat.two_pow_pos _)

@[simp] theorem Env.now_lines (p : Config) (e : Env) : (e.now p).2.lines = e.lines := by
  unfold Env.now
  split <;> rfl

@[simp] theorem Env.readLine_line (v : Level) (pin : Byte) : ((Env.line v).readLine pin).1 = v := rfl

@[simp] theorem Env.readLine_clock (pin : Byte) (e : Env) : (e.readLine pin).2.clock = e.clock := by
  unfold Env.readLine
  split <;> rfl

theorem Env.now_clock {p : Config} {e : Env} (h : e.clock ≠ []) :
    (e.now p).2 = { e with clock := e.clock.drop 1 } := by
  unfold Env.now
  split
  · rename_i h'; simp [h']
  · contradiction

theorem Channel.due_iff {p : Config} {ch : Channel} {now x : Nat} :
    ch.due p now x = true ↔ x ≤ elapsed p.modulus now ch.timeAnchor := by
  simp [Channel.due]

/-! ### Channel slots -/

theorem State.channel_isSome_iff {s : State} {h : Handle} : (s.channel h).isSome ↔ h.index < s.count h.kind := by
  simp [State.channel, State.count]

theorem State.channel_setChannel_self {s : State} {h : Handle} {ch ch' : Channel} (hs : s.channel h = some ch) :
    (s.setChannel h ch').channel h = some ch' := by
  obtain ⟨k, i⟩ := h
  cases k <;>
  · simp only [State.channel_talker, State.channel_listener] at hs
    have := (List.getElem?_eq_some_iff.mp hs).1
    simp [this]

theorem State.channel_setChannel_ne {s : State} {h h' : Handle} {ch : Channel} (hn : h' ≠ h) :
    (s.setChannel h ch).channel h' = s.channel h' := by
  obtain ⟨k, i⟩ := h
  obtain ⟨k', i'⟩ := h'
  cases k <;> cases k' <;> simp only [State.setChannel_talker, State.setChannel_listener, State.channel_talker, State.channel_listener]
  · exact List.getElem?_set_ne (by rintro rfl; exact hn rfl)
  · exact List.getElem?_set_ne (by rintro rfl; exact hn rfl)

@[simp] theorem State.count_setChannel (s : State) (h : Handle) (ch : Channel) (k : Kind) :
    (s.setChannel h ch).count k = s.count k := by
  obtain ⟨k', i⟩ := h
  cases k <;> cases k' <;> simp [State.count, State.slots]

theorem State.setChannel_eq_self {s : State} {h : Handle} {ch : Channel} (hs : s.channel h = some ch) :
    s.setChannel h ch = s := by
  obtain ⟨k, i⟩ := h
  cases k <;>
  · simp only [State.channel_talker, State.channel_listener] at hs
    obtain ⟨hi, rfl⟩ := List.getElem?_eq_some_iff.mp hs
    simp

/-! ### Starting a command, the handle check, taking a fault -/

theorem accept_ready {s : State} (h : s.Ready) (body : Result) : accept s body = body := by
  simp [accept, h.1, h.2]

/-- If a command starts at all, the block was ready for it. -/
theorem accept_next {s t : State} {body : Result} (h : accept s body = .next t) : s.Ready ∧ body = .next t := by
  unfold accept at h
  split at h
  · cases h
  · rename_i hf
    split at h
    · rename_i he; exact ⟨⟨hf, he⟩, h⟩
    all_goals cases h

theorem accept_faulted {s : State} {f : FaultRecord} (h : s.fault = some f) (body : Result) :
    accept s body = .fault (.stopped f.code f.header) := by
  simp [accept, h]

theorem withChannel_some {s : State} {k : Kind} {i : Byte} {ch : Channel} (h : s.channel ⟨k, i.toNat⟩ = some ch)
    (header : Word) (body : Channel → Result) : withChannel s k i header body = body ch := by
  simp [withChannel, handleOf, h]

theorem withChannel_none {s : State} {k : Kind} {i : Byte} (h : s.count k ≤ i.toNat)
    (header : Word) (body : Channel → Result) :
    withChannel s k i header body = .next { s with fault := some ⟨.invalidHandle, header⟩ } := by
  have : s.channel ⟨k, i.toNat⟩ = none := by simpa [State.channel, State.count] using h
  simp [withChannel, handleOf, this, takeFault, State.raise]

/-- If a per-channel command answers a next state, it took INVALID_HANDLE or found its channel. -/
theorem withChannel_next {s t : State} {k : Kind} {i : Byte} {header : Word} {body : Channel → Result}
    (h : withChannel s k i header body = .next t) :
    (s.count k ≤ i.toNat ∧ t = { s with fault := some ⟨.invalidHandle, header⟩ }) ∨
    ∃ ch, s.channel ⟨k, i.toNat⟩ = some ch ∧ body ch = .next t := by
  unfold withChannel at h
  split at h
  · rename_i hc
    refine .inl ⟨by simpa [State.channel, State.count, handleOf] using hc, ?_⟩
    cases h; rfl
  · rename_i ch hc; exact .inr ⟨ch, hc, h⟩

/-- A byte as the value of a response is its low byte (R79). -/
theorem response_byte (b : Byte) : (0#16 ++ b.setWidth 16 : Word) = 0#24 ++ b := by revert b; decide

/-- A flag as the value of a response is its bit 0 (R79). -/
theorem response_flag (b : Bool) : (0#16 ++ flagValue b : Word) = 0#31 ++ BitVec.ofBool b := by revert b; decide

theorem takeFault_eq (c : FaultCode) (w : Word) (s : State) :
    takeFault c w s = .next { s with fault := some ⟨c, w⟩ } := rfl

end Sys2Proof.Machine
end

