-- ==== Sys2Proof/Laws/Channels.lean ====
section
/-! SUPPORT. What one step of a listener or of a talker can do to its channel: the fields it never writes, and that it keeps
the channel well formed. -/

namespace Sys2Proof.Machine

/-! ### Listeners -/

/-- A listener's step samples once and acts, or does nothing at all. -/
theorem rxStep_cases (p : Config) (ch : Channel) (now : Nat) (e : Env) :
    rxStep p ch now e = (rxAction p ch now (e.readLine ch.pin).1, (e.readLine ch.pin).2) ∨
    rxStep p ch now e = (ch, e) := by
  unfold rxStep
  split
  · exact .inl rfl
  · exact .inr rfl

/-- The fields that no step of a channel writes, and the flags no step clears (R22, R27, R29, R36). -/
structure KeepsIdentity (ch ch' : Channel) : Prop where
  kind : ch'.kind = ch.kind
  pin : ch'.pin = ch.pin
  bitPeriodUs : ch'.bitPeriodUs = ch.bitPeriodUs
  configured : ch.configured = true → ch'.configured = true
  available : ch.available = true → ch'.available = true

theorem KeepsIdentity.refl (ch : Channel) : KeepsIdentity ch ch := ⟨rfl, rfl, rfl, id, id⟩

theorem KeepsIdentity.trans {a b c : Channel} (h : KeepsIdentity a b) (h' : KeepsIdentity b c) : KeepsIdentity a c :=
  ⟨h'.kind.trans h.kind, h'.pin.trans h.pin, h'.bitPeriodUs.trans h.bitPeriodUs, h'.configured ∘ h.configured,
    h'.available ∘ h.available⟩

theorem rxAction_keepsIdentity (p : Config) (ch : Channel) (now : Nat) (lvl : Level) :
    KeepsIdentity ch (rxAction p ch now lvl) := by
  unfold rxAction
  split
  · unfold unavailableStep
    split
    · exact ⟨rfl, rfl, rfl, id, id⟩
    split <;> exact ⟨rfl, rfl, rfl, id, fun h => by simp [h]⟩
  · unfold samplingStep byteComplete
    simp only
    split <;> exact ⟨rfl, rfl, rfl, id, id⟩
  · unfold confirmStep
    simp only
    split <;> exact ⟨rfl, rfl, rfl, id, id⟩
  · unfold huntStep
    simp only
    split
    · exact ⟨rfl, rfl, rfl, id, id⟩
    split <;> exact ⟨rfl, rfl, rfl, id, id⟩

theorem rxStep_keepsIdentity (p : Config) (ch : Channel) (now : Nat) (e : Env) :
    KeepsIdentity ch (rxStep p ch now e).1 := by
  obtain h | h := rxStep_cases p ch now e <;> rw [h]
  · exact rxAction_keepsIdentity ..
  · exact .refl ch

@[simp] theorem rxStep_configured (p : Config) (ch : Channel) (now : Nat) (e : Env) :
    (rxStep p ch now e).1.configured = ch.configured := by
  obtain h | h := rxStep_cases p ch now e <;> rw [h]
  unfold rxAction unavailableStep samplingStep byteComplete confirmStep huntStep
  simp only
  split <;> (repeat' split) <;> rfl

@[simp] theorem rxStep_clock (p : Config) (ch : Channel) (now : Nat) (e : Env) :
    (rxStep p ch now e).2.clock = e.clock := by
  obtain h | h := rxStep_cases p ch now e <;> rw [h]
  exact Env.readLine_clock ..

/-- An accumulator below `2^n` stays below `2^(n+1)` when the next bit is inserted. -/
theorem accInsert_lt (o : BitOrder) {acc : Byte} {n : Nat} (v : Level) (h : acc.toNat < 2 ^ n) (hn : n < 8) :
    (accInsert o acc n v).toNat < 2 ^ (n + 1) := by
  have key : ∀ (o : BitOrder) (n : Fin 8) (acc : Byte) (v : Bool), acc.toNat < 2 ^ n.val →
      (accInsert o acc n.val v).toNat < 2 ^ (n.val + 1) := by
    intro o n
    cases o <;> revert n <;> decide
  exact key o ⟨n, hn⟩ acc v h

/-- `byte_complete` keeps a listener's FIFO well formed, and adds at most one byte to it. -/
theorem byteComplete_buf {p : Config} (hp : p.Legal) {ch : Channel} (h : ch.buf.Wf p.bufferMaxSize) :
    (byteComplete p ch).buf.Wf p.bufferMaxSize ∧
    ((ch.buf.size < p.bufferMaxSize ∧
        (byteComplete p ch).buf.contents p.bufferMaxSize = ch.buf.contents p.bufferMaxSize ++ [ch.accumulator]) ∨
     (ch.buf.size = p.bufferMaxSize ∧ (byteComplete p ch).buf = ch.buf)) := by
  unfold byteComplete
  by_cases hs : ch.buf.size < p.bufferMaxSize
  · obtain ⟨f, hf, hw, -, -, hc⟩ := Fifo.push_spec hp.2.2.1 h hs ch.accumulator
    simp only [hs, if_true, hf, Option.getD_some, Channel.reset]
    exact ⟨hw, .inl ⟨trivial, hc⟩⟩
  · simp only [hs, if_false, Channel.reset]
    exact ⟨h, .inr ⟨by have := Fifo.size_le h; omega, trivial⟩⟩

/-- A configured listener stays well formed. -/
theorem rxAction_wf {p : Config} (hp : p.Legal) {ch : Channel} {now : Nat} (hn : now < p.modulus) (lvl : Level)
    (hc : ch.configured = true) (h : ListenerWf p ch) : ListenerWf p (rxAction p ch now lvl) := by
  obtain ⟨⟨hk, ht, hT, hb, ham, hbd, hcf⟩, hav, h8, hacc⟩ := h
  have hcf' : ∀ {P : Prop}, ch.configured = false → P := fun h => by simp [hc] at h
  unfold rxAction
  split
  case h_1 hph =>
    have ha : ch.available = false := by
      unfold Channel.rxPhase at hph
      split at hph
      · assumption
      · split at hph <;> try split at hph
        all_goals cases hph
    have hm := hav ha
    unfold unavailableStep
    split
    · exact ⟨⟨hk, hn, hT, hb, ham, hbd, hcf'⟩, hav, h8, hacc⟩
    split
    · exact ⟨⟨hk, ht, hT, hb, ham, hbd, hcf'⟩, by simp, h8, hacc⟩
    · exact ⟨⟨hk, ht, hT, hb, ham, hbd, hcf'⟩, hav, h8, hacc⟩
  case h_2 hph =>
    have ha : ch.available = true ∧ ch.activated = true := by
      unfold Channel.rxPhase at hph
      split at hph
      · cases hph
      rename_i h1
      split at hph
      · rename_i h2; exact ⟨by simpa using h1, h2⟩
      split at hph <;> cases hph
    have hm := ham ha.2
    have hb1 : (ch.bitsDone + 1).toNat = ch.bitsDone.toNat + 1 := by
      rw [BitVec.toNat_add]; simp; omega
    have hmod : ∀ x, x % p.modulus < p.modulus := fun x => Nat.mod_lt _ (Nat.two_pow_pos _)
    unfold samplingStep
    simp only [Channel.advanceAnchor]
    split
    · obtain ⟨hw, -⟩ := byteComplete_buf hp (ch := { ch with
        previousLevel := lvl, accumulator := accInsert p.bitOrder ch.accumulator ch.bitsDone.toNat lvl
        bitsDone := ch.bitsDone + 1, timeAnchor := (ch.timeAnchor + Channel.period ch) % p.modulus }) hb
      exact ⟨⟨hk, Nat.two_pow_pos _, hT, hw, by simp [byteComplete, Channel.reset], fun _ => rfl, hcf'⟩, fun _ => rfl,
        by simp [byteComplete, Channel.reset], by simp [byteComplete, Channel.reset]⟩
    · rename_i h9
      have h9' : ch.bitsDone.toNat + 1 ≠ 8 := by
        intro h; apply h9; apply BitVec.eq_of_toNat_eq; rw [hb1, h]; rfl
      exact ⟨⟨hk, hmod _, hT, hb, ham, fun h => by simp [ha.2] at h, hcf'⟩, hav, by simp only [hb1]; omega,
        by simp only [hb1]; exact accInsert_lt _ _ hacc h8⟩
  case h_3 hph =>
    have ha : ch.available = true ∧ ch.activated = false ∧ ch.midActivated = true := by
      unfold Channel.rxPhase at hph
      split at hph
      · cases hph
      rename_i h1
      split at hph
      · cases hph
      rename_i h2
      split at hph
      · rename_i h3; exact ⟨by simpa using h1, by simpa using h2, h3⟩
      · cases hph
    unfold confirmStep
    simp only [Channel.advanceAnchor]
    split
    · exact ⟨⟨hk, Nat.mod_lt _ (Nat.two_pow_pos _), hT, hb, fun _ => ha.2.2, by simp, hcf'⟩, hav, h8, hacc⟩
    · exact ⟨⟨hk, hn, hT, hb, by simp [ha.2.1], hbd, hcf'⟩, by simp, h8, hacc⟩
  case h_4 hph =>
    have ha : ch.available = true ∧ ch.activated = false := by
      unfold Channel.rxPhase at hph
      split at hph
      · cases hph
      rename_i h1
      split at hph
      · cases hph
      rename_i h2
      exact ⟨by simpa using h1, by simpa using h2⟩
    unfold huntStep
    simp only
    split
    · exact ⟨⟨hk, hn, hT, hb, ham, hbd, hcf'⟩, hav, h8, hacc⟩
    split
    · exact ⟨⟨hk, hn, hT, hb, fun _ => rfl, hbd, hcf'⟩, by simp [ha.1], h8, hacc⟩
    · exact ⟨⟨hk, ht, hT, hb, ham, hbd, hcf'⟩, hav, h8, hacc⟩

theorem rxStep_wf {p : Config} (hp : p.Legal) {ch : Channel} {now : Nat} (hn : now < p.modulus) (e : Env)
    (hc : ch.configured = true) (h : ListenerWf p ch) : ListenerWf p (rxStep p ch now e).1 := by
  obtain h' | h' := rxStep_cases p ch now e <;> rw [h']
  · exact rxAction_wf hp hn _ hc h
  · exact h

/-! ### Talkers -/

theorem txStep_keepsIdentity (p : Config) (ch : Channel) (now : Nat) : KeepsIdentity ch (txStep p ch now).1 := by
  unfold txStep raisedStep idleStep streamStep endMark
  simp only
  split <;> (repeat' split) <;> exact ⟨rfl, rfl, rfl, id, id⟩

@[simp] theorem txStep_configured (p : Config) (ch : Channel) (now : Nat) :
    (txStep p ch now).1.configured = ch.configured := by
  unfold txStep raisedStep idleStep streamStep endMark
  simp only
  split <;> (repeat' split) <;> rfl

/-- A talker's step issues at most one line event: a write on its own pin at the clock value of the step (R160). -/
theorem txStep_events (p : Config) (ch : Channel) (now : Nat) :
    (txStep p ch now).2 = [] ∨ ∃ level, (txStep p ch now).2 = [.write ch.pin level now] := by
  unfold txStep raisedStep idleStep streamStep endMark
  simp only
  split <;> (repeat' split) <;> first | exact .inl rfl | exact .inr ⟨_, rfl⟩

/-- A configured talker stays well formed. -/
theorem txStep_wf {p : Config} {ch : Channel} {now : Nat} (hn : now < p.modulus)
    (hc : ch.configured = true) (h : TalkerWf p ch) : TalkerWf p (txStep p ch now).1 := by
  obtain ⟨⟨hk, ht, hT, hb, ham, hbd, hcf⟩, hav, h8, hlat, hz⟩ := h
  have hcf' : ∀ {P : Prop}, ch.configured = false → P := fun h => by simp [hc] at h
  have hmod : ∀ x, x % p.modulus < p.modulus := fun x => Nat.mod_lt _ (Nat.two_pow_pos _)
  unfold txStep
  split
  · rename_i ha
    have hm := ham ha
    split
    · split
      · rename_i h7
        have hb1 : (ch.bitsDone + 1).toNat = ch.bitsDone.toNat + 1 := by
          rw [BitVec.toNat_add]; simp; omega
        exact ⟨⟨hk, hmod _, hT, hb, ham, fun h => by simp [ha, streamStep, Channel.advanceAnchor] at h, hcf'⟩, hav,
          by simp only [streamStep, hb1]; omega, hlat, hz⟩
      · obtain ⟨hs, bs, hcont⟩ := Fifo.peek_eq_some (hlat hm)
        obtain ⟨-, hpop, -⟩ := Fifo.pop_spec hcont
        simp only [endMark, hpop, Channel.reset]
        exact ⟨⟨hk, Nat.two_pow_pos _, hT, Fifo.wf_advance hb hs, by simp, fun _ => rfl, hcf'⟩, hav, by simp, by simp,
          fun _ => rfl⟩
    · exact ⟨⟨hk, ht, hT, hb, ham, hbd, hcf⟩, hav, h8, hlat, hz⟩
  split
  · rename_i ha hm
    unfold raisedStep
    split
    · exact ⟨⟨hk, hmod _, hT, hb, fun _ => hm, by simp, hcf'⟩, hav, h8, hlat, hz⟩
    · exact ⟨⟨hk, ht, hT, hb, ham, hbd, hcf⟩, hav, h8, hlat, hz⟩
  · unfold idleStep
    split
    · exact ⟨⟨hk, ht, hT, hb, ham, hbd, hcf⟩, hav, h8, hlat, hz⟩
    · rename_i b hpk
      exact ⟨⟨hk, hn, hT, hb, fun _ => rfl, hbd, hcf'⟩, hav, h8, fun _ => hpk, by simp⟩

end Sys2Proof.Machine
end

