-- ==== Sys2Proof/Laws/Decode.lean ====
section
/-! SUPPORT. The fields of a header, which row of the opcode map a header selects in terms of its fields, and the packing
of payload bytes. -/

namespace Sys2Proof

/-! ### Fields -/

theorem append_inj {m n : Nat} {x x' : BitVec m} {y y' : BitVec n} : x ++ y = x' ++ y' ↔ x = x' ∧ y = y' := by
  constructor
  · intro h
    exact ⟨by simpa only [BitVec.extractLsb'_append_eq_left] using congrArg (BitVec.extractLsb' n m) h,
      by simpa only [BitVec.extractLsb'_append_eq_right] using congrArg (BitVec.extractLsb' 0 n) h⟩
  · rintro ⟨rfl, rfl⟩; rfl

/-- A word from the five fields of R71. -/
abbrev ofFields (o : BitVec 4) (k : BitVec 1) (r : BitVec 3) (a : BitVec 8) (b : BitVec 16) : Word :=
  o ++ k ++ r ++ a ++ b

theorem word_eq_ofFields (h : Word) :
    h = ofFields (h.extractLsb' 28 4) (h.extractLsb' 27 1) (h.extractLsb' 24 3) (h.extractLsb' 16 8)
      (h.extractLsb' 0 16) := by
  rw [ofFields, BitVec.extractLsb'_append_extractLsb'_eq_extractLsb' (by rfl),
    BitVec.extractLsb'_append_extractLsb'_eq_extractLsb' (by rfl),
    BitVec.extractLsb'_append_extractLsb'_eq_extractLsb' (by rfl),
    BitVec.extractLsb'_append_extractLsb'_eq_extractLsb' (by rfl)]
  simp

variable (o : BitVec 4) (k : BitVec 1) (r : BitVec 3) (a : BitVec 8) (b : BitVec 16)

theorem bField_ofFields : (ofFields o k r a b).extractLsb' 0 16 = b := BitVec.extractLsb'_append_eq_right

theorem aField_ofFields : (ofFields o k r a b).extractLsb' 16 8 = a := by
  show BitVec.extractLsb' 16 8 ((o ++ k ++ r ++ a) ++ b) = a
  rw [BitVec.extractLsb'_append_eq_of_le (by omega)]
  exact BitVec.extractLsb'_append_eq_right

theorem rField_ofFields : (ofFields o k r a b).extractLsb' 24 3 = r := by
  show BitVec.extractLsb' 24 3 ((o ++ k ++ r ++ a) ++ b) = r
  rw [BitVec.extractLsb'_append_eq_of_le (by omega)]
  show BitVec.extractLsb' 8 3 ((o ++ k ++ r) ++ a) = r
  rw [BitVec.extractLsb'_append_eq_of_le (by omega)]
  exact BitVec.extractLsb'_append_eq_right

theorem kField_ofFields : (ofFields o k r a b).extractLsb' 27 1 = k := by
  show BitVec.extractLsb' 27 1 ((o ++ k ++ r ++ a) ++ b) = k
  rw [BitVec.extractLsb'_append_eq_of_le (by omega)]
  show BitVec.extractLsb' 11 1 ((o ++ k ++ r) ++ a) = k
  rw [BitVec.extractLsb'_append_eq_of_le (by omega)]
  show BitVec.extractLsb' 3 1 ((o ++ k) ++ r) = k
  rw [BitVec.extractLsb'_append_eq_of_le (by omega)]
  exact BitVec.extractLsb'_append_eq_right

theorem opField_ofFields : (ofFields o k r a b).extractLsb' 28 4 = o := by
  show BitVec.extractLsb' 28 4 ((o ++ k ++ r ++ a) ++ b) = o
  rw [BitVec.extractLsb'_append_eq_of_le (by omega)]
  show BitVec.extractLsb' 12 4 ((o ++ k ++ r) ++ a) = o
  rw [BitVec.extractLsb'_append_eq_of_le (by omega)]
  show BitVec.extractLsb' 4 4 ((o ++ k) ++ r) = o
  rw [BitVec.extractLsb'_append_eq_of_le (by omega)]
  exact BitVec.extractLsb'_append_eq_left

theorem kBit_ofFields : (ofFields o k r a b).getLsbD 27 = k.getLsbD 0 := by
  conv_rhs => rw [← kField_ofFields o k r a b]
  simp

/-- A masked comparison of words is a masked comparison of each field. -/
theorem masked_ofFields (mo po : BitVec 4) (mk pk : BitVec 1) (mr pr : BitVec 3) (ma pa : BitVec 8) (mb pb : BitVec 16) :
    (ofFields o k r a b &&& ofFields mo mk mr ma mb = ofFields po pk pr pa pb) ↔
      o &&& mo = po ∧ k &&& mk = pk ∧ r &&& mr = pr ∧ a &&& ma = pa ∧ b &&& mb = pb := by
  have e : ofFields o k r a b &&& ofFields mo mk mr ma mb =
      ofFields (o &&& mo) (k &&& mk) (r &&& mr) (a &&& ma) (b &&& mb) := by
    simp only [ofFields]
    rw [← BitVec.and_append, ← BitVec.and_append, ← BitVec.and_append, ← BitVec.and_append]
  rw [e]
  constructor
  · intro h
    obtain ⟨h, h5⟩ := append_inj.mp h
    obtain ⟨h, h4⟩ := append_inj.mp h
    obtain ⟨h, h3⟩ := append_inj.mp h
    obtain ⟨h, h2⟩ := append_inj.mp h
    exact ⟨h, h2, h3, h4, h5⟩
  · rintro ⟨rfl, rfl, rfl, rfl, rfl⟩; rfl

theorem and_ones4 : o &&& 15#4 = o := BitVec.and_allOnes
theorem and_ones1 : k &&& 1#1 = k := BitVec.and_allOnes
theorem and_ones3 : r &&& 7#3 = r := BitVec.and_allOnes
theorem and_ones8 : a &&& 255#8 = a := BitVec.and_allOnes
theorem and_ones16 : b &&& 65535#16 = b := BitVec.and_allOnes

/-! ### Rows -/

theorem selects_listen : (⟨.listen, 0x10000000, 0xFF00FFFF⟩ : OpcodeRow).selects (ofFields o k r a b) =
    decide (o = 1#4 ∧ k = 0#1 ∧ r = 0#3 ∧ b = 0#16) := by
  rw [OpcodeRow.selects, beq_eq_decide]
  exact decide_eq_decide.mpr ((masked_ofFields o k r a b 15 1 1 0 7 0 0 0 65535 0).trans
    (by simp [and_ones4, and_ones1, and_ones3, and_ones16]))

theorem selects_talk : (⟨.talk, 0x20000000, 0xFF00FFFF⟩ : OpcodeRow).selects (ofFields o k r a b) =
    decide (o = 2#4 ∧ k = 0#1 ∧ r = 0#3 ∧ b = 0#16) := by
  rw [OpcodeRow.selects, beq_eq_decide]
  exact decide_eq_decide.mpr ((masked_ofFields o k r a b 15 2 1 0 7 0 0 0 65535 0).trans
    (by simp [and_ones4, and_ones1, and_ones3, and_ones16]))

theorem selects_begin : (⟨.begin, 0x30000000, 0xFFFFFFFF⟩ : OpcodeRow).selects (ofFields o k r a b) =
    decide (o = 3#4 ∧ k = 0#1 ∧ r = 0#3 ∧ a = 0#8 ∧ b = 0#16) := by
  rw [OpcodeRow.selects, beq_eq_decide]
  exact decide_eq_decide.mpr ((masked_ofFields o k r a b 15 3 1 0 7 0 255 0 65535 0).trans
    (by simp [and_ones4, and_ones1, and_ones3, and_ones8, and_ones16]))

theorem selects_tick : (⟨.tick, 0x40000000, 0xFFFFFFFF⟩ : OpcodeRow).selects (ofFields o k r a b) =
    decide (o = 4#4 ∧ k = 0#1 ∧ r = 0#3 ∧ a = 0#8 ∧ b = 0#16) := by
  rw [OpcodeRow.selects, beq_eq_decide]
  exact decide_eq_decide.mpr ((masked_ofFields o k r a b 15 4 1 0 7 0 255 0 65535 0).trans
    (by simp [and_ones4, and_ones1, and_ones3, and_ones8, and_ones16]))

theorem selects_awaitAll : (⟨.awaitAll, 0x50000000, 0xFFFFFFFF⟩ : OpcodeRow).selects (ofFields o k r a b) =
    decide (o = 5#4 ∧ k = 0#1 ∧ r = 0#3 ∧ a = 0#8 ∧ b = 0#16) := by
  rw [OpcodeRow.selects, beq_eq_decide]
  exact decide_eq_decide.mpr ((masked_ofFields o k r a b 15 5 1 0 7 0 255 0 65535 0).trans
    (by simp [and_ones4, and_ones1, and_ones3, and_ones8, and_ones16]))

theorem selects_send : (⟨.send, 0x60000000, 0xFF000000⟩ : OpcodeRow).selects (ofFields o k r a b) =
    decide (o = 6#4 ∧ k = 0#1 ∧ r = 0#3) := by
  rw [OpcodeRow.selects, beq_eq_decide]
  exact decide_eq_decide.mpr ((masked_ofFields o k r a b 15 6 1 0 7 0 0 0 0 0).trans
    (by simp [and_ones4, and_ones1, and_ones3]))

theorem selects_tell : (⟨.tell, 0x70000000, 0xFF000000⟩ : OpcodeRow).selects (ofFields o k r a b) =
    decide (o = 7#4 ∧ k = 0#1 ∧ r = 0#3) := by
  rw [OpcodeRow.selects, beq_eq_decide]
  exact decide_eq_decide.mpr ((masked_ofFields o k r a b 15 7 1 0 7 0 0 0 0 0).trans
    (by simp [and_ones4, and_ones1, and_ones3]))

theorem selects_read : (⟨.read, 0x88000000, 0xFF00FFFF⟩ : OpcodeRow).selects (ofFields o k r a b) =
    decide (o = 8#4 ∧ k = 1#1 ∧ r = 0#3 ∧ b = 0#16) := by
  rw [OpcodeRow.selects, beq_eq_decide]
  exact decide_eq_decide.mpr ((masked_ofFields o k r a b 15 8 1 1 7 0 0 0 65535 0).trans
    (by simp [and_ones4, and_ones1, and_ones3, and_ones16]))

theorem selects_peek : (⟨.peek, 0x98000000, 0xFF00FFFF⟩ : OpcodeRow).selects (ofFields o k r a b) =
    decide (o = 9#4 ∧ k = 1#1 ∧ r = 0#3 ∧ b = 0#16) := by
  rw [OpcodeRow.selects, beq_eq_decide]
  exact decide_eq_decide.mpr ((masked_ofFields o k r a b 15 9 1 1 7 0 0 0 65535 0).trans
    (by simp [and_ones4, and_ones1, and_ones3, and_ones16]))

theorem selects_bufferedCount : (⟨.bufferedCount, 0xA0000000, 0xF700FFFF⟩ : OpcodeRow).selects (ofFields o k r a b) =
    decide (o = 10#4 ∧ r = 0#3 ∧ b = 0#16) := by
  rw [OpcodeRow.selects, beq_eq_decide]
  exact decide_eq_decide.mpr ((masked_ofFields o k r a b 15 10 0 0 7 0 0 0 65535 0).trans
    (by simp [and_ones4, and_ones3, and_ones16]))

theorem selects_isAvailable : (⟨.isAvailable, 0xB0000000, 0xF700FFFF⟩ : OpcodeRow).selects (ofFields o k r a b) =
    decide (o = 11#4 ∧ r = 0#3 ∧ b = 0#16) := by
  rw [OpcodeRow.selects, beq_eq_decide]
  exact decide_eq_decide.mpr ((masked_ofFields o k r a b 15 11 0 0 7 0 0 0 65535 0).trans
    (by simp [and_ones4, and_ones3, and_ones16]))

theorem selects_recieve : (⟨.recieve, 0xC8000000, 0xFF000000⟩ : OpcodeRow).selects (ofFields o k r a b) =
    decide (o = 12#4 ∧ k = 1#1 ∧ r = 0#3) := by
  rw [OpcodeRow.selects, beq_eq_decide]
  exact decide_eq_decide.mpr ((masked_ofFields o k r a b 15 12 1 1 7 0 0 0 0 0).trans
    (by simp [and_ones4, and_ones1, and_ones3]))

theorem selects_isActivated : (⟨.isActivated, 0xD0000000, 0xF700FFFF⟩ : OpcodeRow).selects (ofFields o k r a b) =
    decide (o = 13#4 ∧ r = 0#3 ∧ b = 0#16) := by
  rw [OpcodeRow.selects, beq_eq_decide]
  exact decide_eq_decide.mpr ((masked_ofFields o k r a b 15 13 0 0 7 0 0 0 65535 0).trans
    (by simp [and_ones4, and_ones3, and_ones16]))

theorem selects_await : (⟨.await, 0xE8000000, 0xFF00FFFF⟩ : OpcodeRow).selects (ofFields o k r a b) =
    decide (o = 14#4 ∧ k = 1#1 ∧ r = 0#3 ∧ b = 0#16) := by
  rw [OpcodeRow.selects, beq_eq_decide]
  exact decide_eq_decide.mpr ((masked_ofFields o k r a b 15 14 1 1 7 0 0 0 65535 0).trans
    (by simp [and_ones4, and_ones1, and_ones3, and_ones16]))

theorem selects_reset : (⟨.reset, 0xF0000000, 0xF700FFFF⟩ : OpcodeRow).selects (ofFields o k r a b) =
    decide (o = 15#4 ∧ r = 0#3 ∧ b = 0#16) := by
  rw [OpcodeRow.selects, beq_eq_decide]
  exact decide_eq_decide.mpr ((masked_ofFields o k r a b 15 15 0 0 7 0 0 0 65535 0).trans
    (by simp [and_ones4, and_ones3, and_ones16]))

/-- The row a header selects, by its fields (R74). -/
theorem selectOpcode_ofFields : selectOpcode (ofFields o k r a b) =
    if r = 0#3 then
      (match o.toNat with
       | 1 => if k = 0#1 ∧ b = 0#16 then some .listen else none
       | 2 => if k = 0#1 ∧ b = 0#16 then some .talk else none
       | 3 => if k = 0#1 ∧ a = 0#8 ∧ b = 0#16 then some .begin else none
       | 4 => if k = 0#1 ∧ a = 0#8 ∧ b = 0#16 then some .tick else none
       | 5 => if k = 0#1 ∧ a = 0#8 ∧ b = 0#16 then some .awaitAll else none
       | 6 => if k = 0#1 then some .send else none
       | 7 => if k = 0#1 then some .tell else none
       | 8 => if k = 1#1 ∧ b = 0#16 then some .read else none
       | 9 => if k = 1#1 ∧ b = 0#16 then some .peek else none
       | 10 => if b = 0#16 then some .bufferedCount else none
       | 11 => if b = 0#16 then some .isAvailable else none
       | 12 => if k = 1#1 then some .recieve else none
       | 13 => if b = 0#16 then some .isActivated else none
       | 14 => if k = 1#1 ∧ b = 0#16 then some .await else none
       | 15 => if b = 0#16 then some .reset else none
       | _ => none)
    else none := by
  simp only [selectOpcode, opcodeTable, List.find?_cons, List.find?_nil, selects_listen, selects_talk, selects_begin, selects_tick, selects_awaitAll, selects_send, selects_tell, selects_read, selects_peek, selects_bufferedCount, selects_isAvailable, selects_recieve, selects_isActivated, selects_await, selects_reset]
  obtain ⟨n, hn⟩ : ∃ n : Fin 16, o = BitVec.ofFin n := ⟨o.toFin, rfl⟩
  subst hn
  by_cases hr : r = 0#3
  · fin_cases n <;> simp [hr] <;> split <;> simp_all
  · simp [hr]

/-! ### Headers and payloads the encoder writes -/

theorem headerWord_eq (op : BitVec 4) (kd : Kind) (a : Byte) (b : BitVec 16) :
    headerWord op kd a b = ofFields op (BitVec.ofBool (kd == .listener)) 0 a b := rfl

theorem fieldA_headerWord (op : BitVec 4) (kd : Kind) (a : Byte) (b : BitVec 16) :
    fieldA (headerWord op kd a b) = a := aField_ofFields ..

theorem fieldB_headerWord (op : BitVec 4) (kd : Kind) (a : Byte) (b : BitVec 16) :
    fieldB (headerWord op kd a b) = b := bField_ofFields ..

theorem fieldK_headerWord (op : BitVec 4) (kd : Kind) (a : Byte) (b : BitVec 16) :
    fieldK (headerWord op kd a b) = kd := by
  rw [fieldK, headerWord_eq, kBit_ofFields]
  cases kd <;> rfl

theorem wordBytes_packWord (b0 b1 b2 b3 : Byte) : wordBytes (packWord b0 b1 b2 b3) = [b0, b1, b2, b3] := by
  have h0 : (packWord b0 b1 b2 b3).extractLsb' 0 8 = b0 := BitVec.extractLsb'_append_eq_right
  have h1 : (packWord b0 b1 b2 b3).extractLsb' 8 8 = b1 := by
    show BitVec.extractLsb' 8 8 ((b3 ++ b2 ++ b1) ++ b0) = b1
    rw [BitVec.extractLsb'_append_eq_of_le (by omega)]
    exact BitVec.extractLsb'_append_eq_right
  have h2 : (packWord b0 b1 b2 b3).extractLsb' 16 8 = b2 := by
    show BitVec.extractLsb' 16 8 ((b3 ++ b2 ++ b1) ++ b0) = b2
    rw [BitVec.extractLsb'_append_eq_of_le (by omega)]
    show BitVec.extractLsb' 8 8 ((b3 ++ b2) ++ b1) = b2
    rw [BitVec.extractLsb'_append_eq_of_le (by omega)]
    exact BitVec.extractLsb'_append_eq_right
  have h3 : (packWord b0 b1 b2 b3).extractLsb' 24 8 = b3 := by
    show BitVec.extractLsb' 24 8 ((b3 ++ b2 ++ b1) ++ b0) = b3
    rw [BitVec.extractLsb'_append_eq_of_le (by omega)]
    show BitVec.extractLsb' 16 8 ((b3 ++ b2) ++ b1) = b3
    rw [BitVec.extractLsb'_append_eq_of_le (by omega)]
    exact BitVec.extractLsb'_append_eq_left
  rw [wordBytes, h0, h1, h2, h3]

theorem packBytes_length (bytes : List Byte) : (packBytes bytes).length = (bytes.length + 3) / 4 := by
  induction bytes using packBytes.induct with
  | case1 => simp [packBytes]
  | case2 => simp [packBytes]
  | case3 => simp [packBytes]
  | case4 => simp [packBytes]
  | case5 b0 b1 b2 b3 bs ih => simp only [packBytes, List.length_cons, ih]; omega

/-- The payload words carry the bytes, then zeros up to the end of the last word (R73). -/
theorem flatMap_packBytes (bytes : List Byte) :
    (packBytes bytes).flatMap wordBytes = bytes ++ List.replicate (4 * ((bytes.length + 3) / 4) - bytes.length) 0 := by
  induction bytes using packBytes.induct with
  | case1 => rfl
  | case2 b0 => simp [packBytes, wordBytes_packWord]
  | case3 b0 b1 => simp [packBytes, wordBytes_packWord]
  | case4 b0 b1 b2 => simp [packBytes, wordBytes_packWord]
  | case5 b0 b1 b2 b3 bs ih =>
    simp only [packBytes, List.flatMap_cons, wordBytes_packWord, ih, List.length_cons, List.cons_append, List.nil_append]
    rw [show 4 * ((bs.length + 1 + 1 + 1 + 1 + 3) / 4) - (bs.length + 1 + 1 + 1 + 1) =
      4 * ((bs.length + 3) / 4) - bs.length by omega]

/-- What the decoder reads from the payload words of a byte string. -/
theorem payload_packBytes (bytes : List Byte) : payload (packBytes bytes) bytes.length = some bytes := by
  simp [payload, flatMap_packBytes]

end Sys2Proof
end

