-- ==== Sys2Proof/Laws/Meanings.lean ====
section
/-! SUPPORT. What each meaning can do, said once: if it answers a next state, the block was ready and one of the listed
cases holds. Then the same for a step. -/

namespace Sys2Proof.Machine

/-- The state after a fault is taken. -/
abbrev State.faulted (s : State) (c : FaultCode) (w : Word) : State := { s with fault := some ⟨c, w⟩ }

/-- The state after a response with status OK. -/
abbrev State.answered (s : State) (v : BitVec 16) : State := { s with responses := s.responses ++ [0#16 ++ v] }

theorem respond_ok (s : State) (v : BitVec 16) : s.respond .ok v = s.answered v := rfl

theorem next_inj {a b : State} (h : (.next a : Result) = .next b) : a = b := by cases h; rfl

theorem execReset_next {k : Kind} {i : Byte} {s t : State} (h : execReset k i s = .next t) :
    s.Ready ∧ ((s.count k ≤ i.toNat ∧ t = s.faulted .invalidHandle (encodeHeader (.reset k i))) ∨
      ∃ ch, s.channel ⟨k, i.toNat⟩ = some ch ∧ t = (s.setChannel ⟨k, i.toNat⟩ ch.reset).answered 0) := by
  obtain ⟨hr, h⟩ := accept_next h
  refine ⟨hr, (withChannel_next h).imp id fun ⟨ch, hc, h⟩ => ⟨ch, hc, (next_inj h).symm⟩⟩

theorem execIsAvailable_next {k : Kind} {i : Byte} {s t : State} (h : execIsAvailable k i s = .next t) :
    s.Ready ∧ ((s.count k ≤ i.toNat ∧ t = s.faulted .invalidHandle (encodeHeader (.isAvailable k i))) ∨
      ∃ ch, s.channel ⟨k, i.toNat⟩ = some ch ∧ t = s.answered (flagValue ch.available)) := by
  obtain ⟨hr, h⟩ := accept_next h
  refine ⟨hr, (withChannel_next h).imp id fun ⟨ch, hc, h⟩ => ⟨ch, hc, (next_inj h).symm⟩⟩

theorem execIsActivated_next {k : Kind} {i : Byte} {s t : State} (h : execIsActivated k i s = .next t) :
    s.Ready ∧ ((s.count k ≤ i.toNat ∧ t = s.faulted .invalidHandle (encodeHeader (.isActivated k i))) ∨
      ∃ ch, s.channel ⟨k, i.toNat⟩ = some ch ∧ t = s.answered (flagValue ch.activated)) := by
  obtain ⟨hr, h⟩ := accept_next h
  refine ⟨hr, (withChannel_next h).imp id fun ⟨ch, hc, h⟩ => ⟨ch, hc, (next_inj h).symm⟩⟩

theorem execBufferedCount_next {k : Kind} {i : Byte} {s t : State} (h : execBufferedCount k i s = .next t) :
    s.Ready ∧ ((s.count k ≤ i.toNat ∧ t = s.faulted .invalidHandle (encodeHeader (.bufferedCount k i))) ∨
      ∃ ch, s.channel ⟨k, i.toNat⟩ = some ch ∧ t = s.answered (BitVec.ofNat 16 ch.buf.size)) := by
  obtain ⟨hr, h⟩ := accept_next h
  refine ⟨hr, (withChannel_next h).imp id fun ⟨ch, hc, h⟩ => ⟨ch, hc, (next_inj h).symm⟩⟩

theorem execRead_next {i : Byte} {s t : State} (h : execRead i s = .next t) :
    s.Ready ∧ ((s.count .listener ≤ i.toNat ∧ t = s.faulted .invalidHandle (encodeHeader (.read i))) ∨
      ∃ ch, s.listeners[i.toNat]? = some ch ∧
        ((ch.buf.size = 0 ∧ t = s.faulted .bufferEmpty (encodeHeader (.read i))) ∨
         ∃ b, ch.buf.peek s.cfg.bufferMaxSize = some b ∧
          t = { s with
                listeners := s.listeners.set i.toNat { ch with buf := { ch.buf with start := ch.buf.start + 1 } }
                responses := s.responses ++ [0#16 ++ b.setWidth 16] })) := by
  obtain ⟨hr, h⟩ := accept_next h
  refine ⟨hr, (withChannel_next h).imp id fun ⟨ch, hc, h⟩ => ⟨ch, hc, ?_⟩⟩
  unfold Fifo.pop at h
  cases hp : ch.buf.peek s.cfg.bufferMaxSize with
  | none =>
    rw [hp] at h
    refine .inl ⟨?_, (next_inj h).symm⟩
    unfold Fifo.peek at hp
    split at hp
    · assumption
    · cases hp
  | some b => rw [hp] at h; exact .inr ⟨b, rfl, (next_inj h).symm⟩

theorem execPeek_next {i : Byte} {s t : State} (h : execPeek i s = .next t) :
    s.Ready ∧ ((s.count .listener ≤ i.toNat ∧ t = s.faulted .invalidHandle (encodeHeader (.peek i))) ∨
      ∃ ch, s.listeners[i.toNat]? = some ch ∧
        ((ch.buf.size = 0 ∧ t = s.faulted .bufferEmpty (encodeHeader (.peek i))) ∨
         ∃ b, ch.buf.peek s.cfg.bufferMaxSize = some b ∧ t = s.answered (b.setWidth 16))) := by
  obtain ⟨hr, h⟩ := accept_next h
  refine ⟨hr, (withChannel_next h).imp id fun ⟨ch, hc, h⟩ => ⟨ch, hc, ?_⟩⟩
  cases hp : ch.buf.peek s.cfg.bufferMaxSize with
  | none =>
    rw [hp] at h
    refine .inl ⟨?_, (next_inj h).symm⟩
    unfold Fifo.peek at hp
    split at hp
    · assumption
    · cases hp
  | some b => rw [hp] at h; exact .inr ⟨b, rfl, (next_inj h).symm⟩

theorem execAwait_next {i : Byte} {s t : State} (h : execAwait i s = .next t) :
    s.Ready ∧ ((s.count .listener ≤ i.toNat ∧ t = s.faulted .invalidHandle (encodeHeader (.await i))) ∨
      ∃ ch, s.listeners[i.toNat]? = some ch ∧
        ((ch.configured = false ∧ t = s.faulted .notConfigured (encodeHeader (.await i))) ∨
         (ch.configured = true ∧ ch.available = true ∧ t = s.answered 0) ∨
         (ch.configured = true ∧ ch.available = false ∧ t = { s with engine := .await i.toNat }))) := by
  obtain ⟨hr, h⟩ := accept_next h
  refine ⟨hr, (withChannel_next h).imp id fun ⟨ch, hc, h⟩ => ⟨ch, hc, ?_⟩⟩
  by_cases c : ch.configured = false
  · rw [if_pos c] at h; exact .inl ⟨c, (next_inj h).symm⟩
  rw [if_neg c] at h
  rw [Bool.not_eq_false] at c
  by_cases a : ch.available = true
  · rw [if_pos a] at h; exact .inr (.inl ⟨c, a, (next_inj h).symm⟩)
  · rw [if_neg a] at h; exact .inr (.inr ⟨c, by simpa using a, (next_inj h).symm⟩)

theorem execRecieve_next {i : Byte} {n : BitVec 16} {s t : State} (h : execRecieve i n s = .next t) :
    s.Ready ∧ ((s.count .listener ≤ i.toNat ∧ t = s.faulted .invalidHandle (encodeHeader (.recieve i n))) ∨
      ∃ ch, s.listeners[i.toNat]? = some ch ∧
        ((n.toNat > s.cfg.bufferMaxSize ∧ t = s.faulted .receiveTooLong (encodeHeader (.recieve i n))) ∨
         (ch.configured = false ∧ t = s.faulted .notConfigured (encodeHeader (.recieve i n))) ∨
         ((ch.midActivated = true ∨ ch.activated = true) ∧ t = s.faulted .mixedPath (encodeHeader (.recieve i n))) ∨
         (n.toNat ≤ s.cfg.bufferMaxSize ∧ ch.configured = true ∧ ch.midActivated = false ∧ ch.activated = false ∧
          t = { s with engine := .recieve i.toNat n.toNat .avail 0 }))) := by
  obtain ⟨hr, h⟩ := accept_next h
  refine ⟨hr, (withChannel_next h).imp id fun ⟨ch, hc, h⟩ => ⟨ch, hc, ?_⟩⟩
  by_cases c1 : n.toNat > s.cfg.bufferMaxSize
  · rw [if_pos c1] at h; exact .inl ⟨c1, (next_inj h).symm⟩
  rw [if_neg c1] at h
  by_cases c2 : ch.configured = false
  · rw [if_pos c2] at h; exact .inr (.inl ⟨c2, (next_inj h).symm⟩)
  rw [if_neg c2] at h
  by_cases c3 : ch.midActivated = true ∨ ch.activated = true
  · rw [if_pos c3] at h; exact .inr (.inr (.inl ⟨c3, (next_inj h).symm⟩))
  · rw [if_neg c3] at h
    simp only [not_or, Bool.not_eq_true, Bool.not_eq_false] at c2 c3
    exact .inr (.inr (.inr ⟨by omega, c2, c3.1, c3.2, (next_inj h).symm⟩))

theorem execSend_next {i : Byte} {bytes : List Byte} {s t : State} (h : execSend i bytes s = .next t) :
    s.Ready ∧ ((s.count .talker ≤ i.toNat ∧ t = s.faulted .invalidHandle (encodeHeader (.send i bytes))) ∨
      ∃ ch, s.talkers[i.toNat]? = some ch ∧
        ((s.cfg.bufferMaxSize < ch.buf.size + bytes.length ∧
            t = { s with responses := s.responses ++ [0x00010000] }) ∨
         (ch.buf.size + bytes.length ≤ s.cfg.bufferMaxSize ∧
          ∃ buf', ch.buf.pushAll s.cfg.bufferMaxSize bytes = some buf' ∧
            t = { s with talkers := s.talkers.set i.toNat { ch with buf := buf' }
                         responses := s.responses ++ [0] }))) := by
  obtain ⟨hr, h⟩ := accept_next h
  refine ⟨hr, (withChannel_next h).imp id fun ⟨ch, hc, h⟩ => ⟨ch, hc, ?_⟩⟩
  by_cases c : ch.buf.size + bytes.length > s.cfg.bufferMaxSize
  · rw [if_pos c] at h; exact .inl ⟨c, (next_inj h).symm⟩
  · rw [if_neg c] at h
    cases hp : ch.buf.pushAll s.cfg.bufferMaxSize bytes with
    | none => exact absurd hp (Fifo.pushAll_ne_none bytes (by omega))
    | some buf' => rw [hp] at h; exact .inr ⟨by omega, buf', rfl, (next_inj h).symm⟩

theorem execTell_next {i : Byte} {bytes : List Byte} {s t : State} (h : execTell i bytes s = .next t) :
    s.Ready ∧ ((s.count .talker ≤ i.toNat ∧ t = s.faulted .invalidHandle (encodeHeader (.tell i bytes))) ∨
      ∃ ch, s.talkers[i.toNat]? = some ch ∧
        ((ch.configured = false ∧ t = s.faulted .notConfigured (encodeHeader (.tell i bytes))) ∨
         ((ch.midActivated = true ∨ ch.activated = true ∨ ch.buf.size > 0) ∧
            t = s.faulted .mixedPath (encodeHeader (.tell i bytes))) ∨
         (ch.configured = true ∧ ch.midActivated = false ∧ ch.activated = false ∧ ch.buf.size = 0 ∧
          ((bytes = [] ∧ t = s.answered 0) ∨
           (bytes ≠ [] ∧
            t = { s with engine := .tell i.toNat (tellSchedule s.cfg.bitOrder ch.period bytes) 0 none }))))) := by
  obtain ⟨hr, h⟩ := accept_next h
  refine ⟨hr, (withChannel_next h).imp id fun ⟨ch, hc, h⟩ => ⟨ch, hc, ?_⟩⟩
  by_cases c2 : ch.configured = false
  · rw [if_pos c2] at h; exact .inl ⟨c2, (next_inj h).symm⟩
  rw [if_neg c2] at h
  by_cases c3 : ch.midActivated = true ∨ ch.activated = true ∨ ch.buf.size > 0
  · rw [if_pos c3] at h; exact .inr (.inl ⟨c3, (next_inj h).symm⟩)
  · rw [if_neg c3] at h
    simp only [not_or, Bool.not_eq_true, Bool.not_eq_false, gt_iff_lt, Nat.not_lt, Nat.le_zero_eq] at c2 c3
    refine .inr (.inr ⟨c2, c3.1, c3.2.1, c3.2.2, ?_⟩)
    cases bytes with
    | nil => exact .inl ⟨rfl, (next_inj h).symm⟩
    | cons b bs => exact .inr ⟨by simp, (next_inj h).symm⟩

theorem register_next {k : Kind} {pin : Byte} {baud w : Word} {s t : State} (h : register k pin baud w s = .next t) :
    (s.count k = maxChannels s.cfg k ∧ t = s.faulted .capacityExceeded w) ∨
    (baud = 0 ∧ t = s.faulted .zeroBaud w) ∨
    (s.count k ≠ maxChannels s.cfg k ∧ baud ≠ 0 ∧
      t = { s.setSlots k (s.slots k ++ [newChannel s.cfg k pin baud]) with
            order := s.order ++ [⟨k, s.count k⟩]
            responses := s.responses ++ [0#16 ++ BitVec.ofNat 16 (s.count k)] }) := by
  unfold register at h
  split at h
  · exact .inl ⟨by assumption, (next_inj h).symm⟩
  split at h
  · exact .inr (.inl ⟨by assumption, (next_inj h).symm⟩)
  · exact .inr (.inr ⟨by assumption, by assumption, (next_inj h).symm⟩)

theorem execBegin_next {s t : State} (h : execBegin s = .next t) :
    s.Ready ∧ t = (s.order.foldl beginChannel s).answered 0 := by
  obtain ⟨hr, h⟩ := accept_next h
  exact ⟨hr, (next_inj h).symm⟩

theorem execTick_next {s t : State} (h : execTick s = .next t) :
    s.Ready ∧ ((s.allConfigured = false ∧ t = s.faulted .notConfigured (encodeHeader .tick)) ∨
      (s.allConfigured = true ∧ t = (s.order.foldl stepChannel s).answered 0)) := by
  obtain ⟨hr, h⟩ := accept_next h
  refine ⟨hr, ?_⟩
  split at h
  · exact .inr ⟨by assumption, (next_inj h).symm⟩
  · rename_i c; exact .inl ⟨by simpa using c, (next_inj h).symm⟩

theorem execAwaitAll_next {s t : State} (h : execAwaitAll s = .next t) :
    s.Ready ∧ ((s.listenersConfigured = false ∧ t = s.faulted .notConfigured (encodeHeader .awaitAll)) ∨
      (s.listenersConfigured = true ∧ s.listenersAvailable = true ∧ t = s.answered 0) ∨
      (s.listenersConfigured = true ∧ s.listenersAvailable = false ∧ t = { s with engine := .awaitAll })) := by
  obtain ⟨hr, h⟩ := accept_next h
  refine ⟨hr, ?_⟩
  by_cases c : s.listenersConfigured = false
  · rw [if_pos c] at h; exact .inl ⟨c, (next_inj h).symm⟩
  rw [if_neg c] at h
  rw [Bool.not_eq_false] at c
  by_cases a : s.listenersAvailable = true
  · rw [if_pos a] at h; exact .inr (.inl ⟨c, a, (next_inj h).symm⟩)
  · rw [if_neg a] at h; exact .inr (.inr ⟨c, by simpa using a, (next_inj h).symm⟩)

/-- What a command that answers a next state can have done, in the seven shapes the commands have. -/
theorem exec_next {i : Instr} {s t : State} (h : exec i s = .next t) : s.Ready ∧ (
    (∃ c, c ≠ .bufferFull ∧ t = s.faulted c (encodeHeader i)) ∨
    (∃ w : Word, (w.extractLsb' 16 16 = 0 ∨ w = 0x00010000 ∧ ∃ a bytes, i = .send a bytes) ∧
      t = { s with responses := s.responses ++ [w] }) ∨
    (∃ e, e ≠ .idle ∧ t = { s with engine := e } ∧
      ((i = .awaitAll ∧ e = .awaitAll ∧ s.listenersConfigured = true ∧ s.listenersAvailable = false) ∨
       (∃ a bytes ch, i = .tell a bytes ∧ s.talkers[a.toNat]? = some ch ∧
          e = .tell a.toNat (tellSchedule s.cfg.bitOrder ch.period bytes) 0 none ∧
          ch.configured = true ∧ ch.midActivated = false ∧ ch.activated = false ∧ ch.buf.size = 0) ∨
       (∃ a n ch, i = .recieve a n ∧ s.listeners[a.toNat]? = some ch ∧ e = .recieve a.toNat n.toNat .avail 0 ∧
          n.toNat ≤ s.cfg.bufferMaxSize ∧ ch.configured = true ∧ ch.midActivated = false ∧ ch.activated = false) ∨
       (∃ a ch, i = .await a ∧ s.listeners[a.toNat]? = some ch ∧ e = .await a.toNat ∧
          ch.configured = true ∧ ch.available = false))) ∨
    (∃ h ch ch' v, s.channel h = some ch ∧ t = (s.setChannel h ch').answered v ∧
      ((∃ a, i = .read a ∧ h = ⟨.listener, a.toNat⟩ ∧ 0 < ch.buf.size ∧
          ch' = { ch with buf := { ch.buf with start := ch.buf.start + 1 } }) ∨
       (∃ a bytes buf', i = .send a bytes ∧ h = ⟨.talker, a.toNat⟩ ∧
          ch.buf.size + bytes.length ≤ s.cfg.bufferMaxSize ∧
          ch.buf.pushAll s.cfg.bufferMaxSize bytes = some buf' ∧ ch' = { ch with buf := buf' }) ∨
       (∃ k a, i = .reset k a ∧ h = ⟨k, a.toNat⟩ ∧ ch' = ch.reset))) ∨
    (∃ k pin baud, (i = .listen pin baud ∧ k = .listener ∨ i = .talk pin baud ∧ k = .talker) ∧
      s.count k ≠ maxChannels s.cfg k ∧ baud ≠ 0 ∧
      t = { s.setSlots k (s.slots k ++ [newChannel s.cfg k pin baud]) with
            order := s.order ++ [⟨k, s.count k⟩]
            responses := s.responses ++ [0#16 ++ BitVec.ofNat 16 (s.count k)] }) ∨
    (i = .begin ∧ t = (s.order.foldl beginChannel s).answered 0) ∨
    (i = .tick ∧ s.allConfigured = true ∧ t = (s.order.foldl stepChannel s).answered 0)) := by
  have ok (v : BitVec 16) : (0#16 ++ v : Word).extractLsb' 16 16 = 0 := BitVec.extractLsb'_append_eq_left
  cases i with
  | listen pin baud =>
    obtain ⟨hr, h⟩ := accept_next h
    refine ⟨hr, ?_⟩
    obtain ⟨-, rfl⟩ | ⟨-, rfl⟩ | ⟨h1, h2, rfl⟩ := register_next h
    · exact .inl ⟨_, by decide, rfl⟩
    · exact .inl ⟨_, by decide, rfl⟩
    · exact .inr (.inr (.inr (.inr (.inl ⟨.listener, pin, baud, .inl ⟨rfl, rfl⟩, h1, h2, rfl⟩))))
  | talk pin baud =>
    obtain ⟨hr, h⟩ := accept_next h
    refine ⟨hr, ?_⟩
    obtain ⟨-, rfl⟩ | ⟨-, rfl⟩ | ⟨h1, h2, rfl⟩ := register_next h
    · exact .inl ⟨_, by decide, rfl⟩
    · exact .inl ⟨_, by decide, rfl⟩
    · exact .inr (.inr (.inr (.inr (.inl ⟨.talker, pin, baud, .inr ⟨rfl, rfl⟩, h1, h2, rfl⟩))))
  | begin =>
    obtain ⟨hr, rfl⟩ := execBegin_next h
    exact ⟨hr, .inr (.inr (.inr (.inr (.inr (.inl ⟨rfl, rfl⟩)))))⟩
  | tick =>
    obtain ⟨hr, ⟨-, rfl⟩ | ⟨hc, rfl⟩⟩ := execTick_next h
    · exact ⟨hr, .inl ⟨_, by decide, rfl⟩⟩
    · exact ⟨hr, .inr (.inr (.inr (.inr (.inr (.inr ⟨rfl, hc, rfl⟩)))))⟩
  | awaitAll =>
    obtain ⟨hr, ⟨-, rfl⟩ | ⟨-, -, rfl⟩ | ⟨h1, h2, rfl⟩⟩ := execAwaitAll_next h
    · exact ⟨hr, .inl ⟨_, by decide, rfl⟩⟩
    · exact ⟨hr, .inr (.inl ⟨_, .inl (ok 0), rfl⟩)⟩
    · exact ⟨hr, .inr (.inr (.inl ⟨_, by simp, rfl, .inl ⟨rfl, rfl, h1, h2⟩⟩))⟩
  | send a bytes =>
    obtain ⟨hr, ⟨-, rfl⟩ | ⟨ch, hc, ⟨-, rfl⟩ | ⟨h1, buf', h2, rfl⟩⟩⟩ := execSend_next h
    · exact ⟨hr, .inl ⟨_, by decide, rfl⟩⟩
    · exact ⟨hr, .inr (.inl ⟨_, .inr ⟨rfl, a, bytes, rfl⟩, rfl⟩)⟩
    · exact ⟨hr, .inr (.inr (.inr (.inl ⟨⟨.talker, a.toNat⟩, ch, _, 0, hc, rfl,
        .inr (.inl ⟨a, bytes, buf', rfl, rfl, h1, h2, rfl⟩)⟩)))⟩
  | tell a bytes =>
    obtain ⟨hr, ⟨-, rfl⟩ | ⟨ch, hc, ⟨-, rfl⟩ | ⟨-, rfl⟩ | ⟨h1, h2, h3, h4, ⟨-, rfl⟩ | ⟨-, rfl⟩⟩⟩⟩ := execTell_next h
    · exact ⟨hr, .inl ⟨_, by decide, rfl⟩⟩
    · exact ⟨hr, .inl ⟨_, by decide, rfl⟩⟩
    · exact ⟨hr, .inl ⟨_, by decide, rfl⟩⟩
    · exact ⟨hr, .inr (.inl ⟨_, .inl (ok 0), rfl⟩)⟩
    · exact ⟨hr, .inr (.inr (.inl ⟨_, by simp, rfl, .inr (.inl ⟨a, bytes, ch, rfl, hc, rfl, h1, h2, h3, h4⟩)⟩))⟩
  | read a =>
    obtain ⟨hr, ⟨-, rfl⟩ | ⟨ch, hc, ⟨-, rfl⟩ | ⟨b, hb, rfl⟩⟩⟩ := execRead_next h
    · exact ⟨hr, .inl ⟨_, by decide, rfl⟩⟩
    · exact ⟨hr, .inl ⟨_, by decide, rfl⟩⟩
    · exact ⟨hr, .inr (.inr (.inr (.inl ⟨⟨.listener, a.toNat⟩, ch, _, _, hc, rfl,
        .inl ⟨a, rfl, rfl, (Fifo.peek_eq_some hb).1, rfl⟩⟩)))⟩
  | peek a =>
    obtain ⟨hr, ⟨-, rfl⟩ | ⟨ch, hc, ⟨-, rfl⟩ | ⟨b, hb, rfl⟩⟩⟩ := execPeek_next h
    · exact ⟨hr, .inl ⟨_, by decide, rfl⟩⟩
    · exact ⟨hr, .inl ⟨_, by decide, rfl⟩⟩
    · exact ⟨hr, .inr (.inl ⟨_, .inl (ok _), rfl⟩)⟩
  | bufferedCount k a =>
    obtain ⟨hr, ⟨-, rfl⟩ | ⟨ch, hc, rfl⟩⟩ := execBufferedCount_next h
    · exact ⟨hr, .inl ⟨_, by decide, rfl⟩⟩
    · exact ⟨hr, .inr (.inl ⟨_, .inl (ok _), rfl⟩)⟩
  | isAvailable k a =>
    obtain ⟨hr, ⟨-, rfl⟩ | ⟨ch, hc, rfl⟩⟩ := execIsAvailable_next h
    · exact ⟨hr, .inl ⟨_, by decide, rfl⟩⟩
    · exact ⟨hr, .inr (.inl ⟨_, .inl (ok _), rfl⟩)⟩
  | recieve a n =>
    obtain ⟨hr, ⟨-, rfl⟩ | ⟨ch, hc, ⟨-, rfl⟩ | ⟨-, rfl⟩ | ⟨-, rfl⟩ | ⟨h1, h2, h3, h4, rfl⟩⟩⟩ := execRecieve_next h
    · exact ⟨hr, .inl ⟨_, by decide, rfl⟩⟩
    · exact ⟨hr, .inl ⟨_, by decide, rfl⟩⟩
    · exact ⟨hr, .inl ⟨_, by decide, rfl⟩⟩
    · exact ⟨hr, .inl ⟨_, by decide, rfl⟩⟩
    · exact ⟨hr, .inr (.inr (.inl ⟨_, by simp, rfl, .inr (.inr (.inl ⟨a, n, ch, rfl, hc, rfl, h1, h2, h3, h4⟩))⟩))⟩
  | isActivated k a =>
    obtain ⟨hr, ⟨-, rfl⟩ | ⟨ch, hc, rfl⟩⟩ := execIsActivated_next h
    · exact ⟨hr, .inl ⟨_, by decide, rfl⟩⟩
    · exact ⟨hr, .inr (.inl ⟨_, .inl (ok _), rfl⟩)⟩
  | await a =>
    obtain ⟨hr, ⟨-, rfl⟩ | ⟨ch, hc, ⟨-, rfl⟩ | ⟨-, -, rfl⟩ | ⟨h1, h2, rfl⟩⟩⟩ := execAwait_next h
    · exact ⟨hr, .inl ⟨_, by decide, rfl⟩⟩
    · exact ⟨hr, .inl ⟨_, by decide, rfl⟩⟩
    · exact ⟨hr, .inr (.inl ⟨_, .inl (ok 0), rfl⟩)⟩
    · exact ⟨hr, .inr (.inr (.inl ⟨_, by simp, rfl, .inr (.inr (.inr ⟨a, ch, rfl, hc, rfl, h1, h2⟩))⟩))⟩
  | reset k a =>
    obtain ⟨hr, ⟨-, rfl⟩ | ⟨ch, hc, rfl⟩⟩ := execReset_next h
    · exact ⟨hr, .inl ⟨_, by decide, rfl⟩⟩
    · exact ⟨hr, .inr (.inr (.inr (.inl ⟨⟨k, a.toNat⟩, ch, _, 0, hc, rfl, .inr (.inr ⟨k, a, rfl, rfl, rfl⟩)⟩)))⟩

/-- What a step that answers a next state can have done. -/
theorem step_next {s t : State} (h : step s = .next t) :
    (s.resetRequest = true ∧ t = s.powerOn) ∨
    (s.resetRequest = false ∧ s.fault = none ∧
      ((s.engine = .idle ∧
        ((decode s.inbox = .incomplete ∧ t = s) ∨
         (∃ i rest, decode s.inbox = .command i rest ∧ exec i { s with inbox := rest } = .next t) ∨
         (∃ w rest, t = { s with inbox := rest, fault := some ⟨.illegalCommand, w⟩ }))) ∨
       (s.engine ≠ .idle ∧ microStep s = .next t))) := by
  unfold step at h
  split at h
  · rename_i c; exact .inl ⟨c, (next_inj h).symm⟩
  rename_i c
  split at h
  · cases h
  rename_i hf
  refine .inr ⟨by simpa using c, hf, ?_⟩
  split at h
  · rename_i he
    refine .inl ⟨he, ?_⟩
    unfold fetch at h
    cases hd : decode s.inbox with
    | incomplete => rw [hd] at h; exact .inl ⟨rfl, (next_inj h).symm⟩
    | command i rest => rw [hd] at h; exact .inr (.inl ⟨i, rest, rfl, h⟩)
    | unknownHeader w rest => rw [hd] at h; exact .inr (.inr ⟨w, rest, (next_inj h).symm⟩)
    | reservedPayload w rest => rw [hd] at h; exact .inr (.inr ⟨w, rest, (next_inj h).symm⟩)
  all_goals rename_i he; exact .inr ⟨by simp [he], h⟩

/-- A step while a blocking command runs is its micro-step. -/
theorem step_eq_microStep {s : State} (hr : s.resetRequest = false) (hf : s.fault = none) (he : s.engine ≠ .idle) :
    step s = microStep s := by
  unfold step
  rw [if_neg (by simp [hr])]
  simp only [hf]
  split
  · contradiction
  all_goals rfl

/-- A step of a ready block whose port holds a whole command. -/
theorem step_eq_exec {s : State} {i : Instr} {rest : List Word} (hs : s.Ready) (hr : s.resetRequest = false)
    (hd : decode s.inbox = .command i rest) : step s = exec i { s with inbox := rest } := by
  simp [step, hr, hs.1, hs.2, fetch, hd]

end Sys2Proof.Machine
end

