-- ==== Sys2Proof/Laws/PerInstr.lean ====
section
/-! SUPPORT. The per-instruction family HeaderFields: the header the encoder writes for a command selects the command's row
of the opcode map, fixes the number of its extension words, and gives the operands back. -/

namespace Sys2Proof.Laws.HeaderFields

/-- The row of the opcode map each command belongs to (R74). -/
def opcode : Instr → Opcode
  | .listen _ _ => .listen
  | .talk _ _ => .talk
  | .begin => .begin
  | .tick => .tick
  | .awaitAll => .awaitAll
  | .send _ _ => .send
  | .tell _ _ => .tell
  | .read _ => .read
  | .peek _ => .peek
  | .bufferedCount _ _ => .bufferedCount
  | .isAvailable _ _ => .isAvailable
  | .recieve _ _ => .recieve
  | .isActivated _ _ => .isActivated
  | .await _ => .await
  | .reset _ _ => .reset

/-- R74, R75, R77 for one command. -/
def Statement (i : Instr) : Prop :=
  i.wellFormed = true →
    selectOpcode (encodeHeader i) = some (opcode i) ∧
    (encodeExt i).length = extWords (opcode i) (fieldB (encodeHeader i)) ∧
    operands (opcode i) (encodeHeader i) (encodeExt i) = some i

theorem length_field {bytes : List Byte} (h : payloadFits bytes = true) :
    (BitVec.ofNat 16 bytes.length).toNat = bytes.length := by
  simp only [payloadFits, decide_eq_true_eq] at h
  rw [BitVec.toNat_ofNat, Nat.mod_eq_of_lt (by omega)]

theorem listen (pin : Byte) (baud : Word) : Statement (.listen pin baud) := fun _ =>
  ⟨by rw [encodeHeader, headerWord_eq, selectOpcode_ofFields]; rfl, rfl,
   by simp [opcode, operands, encodeHeader, encodeExt, fieldA_headerWord]⟩

theorem talk (pin : Byte) (baud : Word) : Statement (.talk pin baud) := fun _ =>
  ⟨by rw [encodeHeader, headerWord_eq, selectOpcode_ofFields]; rfl, rfl,
   by simp [opcode, operands, encodeHeader, encodeExt, fieldA_headerWord]⟩

theorem begin : Statement .begin := fun _ => ⟨by decide, rfl, rfl⟩

theorem tick : Statement .tick := fun _ => ⟨by decide, rfl, rfl⟩

theorem awaitAll : Statement .awaitAll := fun _ => ⟨by decide, rfl, rfl⟩

theorem send (a : Byte) (bytes : List Byte) : Statement (.send a bytes) := fun h =>
  ⟨by rw [encodeHeader, headerWord_eq, selectOpcode_ofFields]; rfl,
   by simp only [opcode, encodeExt, encodeHeader, extWords, fieldB_headerWord, packBytes_length, length_field h],
   by simp only [opcode, operands, encodeHeader, encodeExt, fieldA_headerWord, fieldB_headerWord, length_field h,
        payload_packBytes, Option.map_some]⟩

theorem tell (a : Byte) (bytes : List Byte) : Statement (.tell a bytes) := fun h =>
  ⟨by rw [encodeHeader, headerWord_eq, selectOpcode_ofFields]; rfl,
   by simp only [opcode, encodeExt, encodeHeader, extWords, fieldB_headerWord, packBytes_length, length_field h],
   by simp only [opcode, operands, encodeHeader, encodeExt, fieldA_headerWord, fieldB_headerWord, length_field h,
        payload_packBytes, Option.map_some]⟩

theorem read (a : Byte) : Statement (.read a) := fun _ =>
  ⟨by rw [encodeHeader, headerWord_eq, selectOpcode_ofFields]; rfl, rfl,
   by simp [opcode, operands, encodeHeader, fieldA_headerWord]⟩

theorem peek (a : Byte) : Statement (.peek a) := fun _ =>
  ⟨by rw [encodeHeader, headerWord_eq, selectOpcode_ofFields]; rfl, rfl,
   by simp [opcode, operands, encodeHeader, fieldA_headerWord]⟩

theorem bufferedCount (k : Kind) (a : Byte) : Statement (.bufferedCount k a) := fun _ =>
  ⟨by rw [encodeHeader, headerWord_eq, selectOpcode_ofFields]; rfl, rfl,
   by simp [opcode, operands, encodeHeader, fieldA_headerWord, fieldK_headerWord]⟩

theorem isAvailable (k : Kind) (a : Byte) : Statement (.isAvailable k a) := fun _ =>
  ⟨by rw [encodeHeader, headerWord_eq, selectOpcode_ofFields]; rfl, rfl,
   by simp [opcode, operands, encodeHeader, fieldA_headerWord, fieldK_headerWord]⟩

theorem recieve (a : Byte) (n : BitVec 16) : Statement (.recieve a n) := fun _ =>
  ⟨by rw [encodeHeader, headerWord_eq, selectOpcode_ofFields]; rfl, rfl,
   by simp [opcode, operands, encodeHeader, fieldA_headerWord, fieldB_headerWord]⟩

theorem isActivated (k : Kind) (a : Byte) : Statement (.isActivated k a) := fun _ =>
  ⟨by rw [encodeHeader, headerWord_eq, selectOpcode_ofFields]; rfl, rfl,
   by simp [opcode, operands, encodeHeader, fieldA_headerWord, fieldK_headerWord]⟩

theorem await (a : Byte) : Statement (.await a) := fun _ =>
  ⟨by rw [encodeHeader, headerWord_eq, selectOpcode_ofFields]; rfl, rfl,
   by simp [opcode, operands, encodeHeader, fieldA_headerWord]⟩

theorem reset (k : Kind) (a : Byte) : Statement (.reset k a) := fun _ =>
  ⟨by rw [encodeHeader, headerWord_eq, selectOpcode_ofFields]; rfl, rfl,
   by simp [opcode, operands, encodeHeader, fieldA_headerWord, fieldK_headerWord]⟩

end Sys2Proof.Laws.HeaderFields
end

