-- ==== Sys2Proof/Laws/Steps.lean ====
section
/-! SUPPORT. What channel steps and micro-steps leave alone: the frame of each, once, and what a micro-step that answers a
next state can do to the rest of the state. -/

namespace Sys2Proof.Machine

/-- Nothing differs but channel records, line history and draws. -/
structure ChannelFrame (s t : State) : Prop where
  fault : t.fault = s.fault
  engine : t.engine = s.engine
  inbox : t.inbox = s.inbox
  order : t.order = s.order
  cfg : t.cfg = s.cfg
  responses : t.responses = s.responses
  resetRequest : t.resetRequest = s.resetRequest
  talkers : t.talkers.length = s.talkers.length
  listeners : t.listeners.length = s.listeners.length

theorem ChannelFrame.refl (s : State) : ChannelFrame s s := ⟨rfl, rfl, rfl, rfl, rfl, rfl, rfl, rfl, rfl⟩

theorem ChannelFrame.trans {s t u : State} (a : ChannelFrame s t) (b : ChannelFrame t u) : ChannelFrame s u :=
  ⟨b.fault.trans a.fault, b.engine.trans a.engine, b.inbox.trans a.inbox, b.order.trans a.order, b.cfg.trans a.cfg,
    b.responses.trans a.responses, b.resetRequest.trans a.resetRequest, b.talkers.trans a.talkers,
    b.listeners.trans a.listeners⟩

theorem ChannelFrame.setChannel (s : State) (h : Handle) (ch : Channel) : ChannelFrame s (s.setChannel h ch) :=
  ⟨rfl, rfl, rfl, rfl, rfl, rfl, rfl, State.count_setChannel s h ch .talker, State.count_setChannel s h ch .listener⟩

theorem ChannelFrame.listenerStep (s : State) (h : Handle) (ch : Channel) : ChannelFrame s (listenerStep h ch s) :=
  have f := ChannelFrame.setChannel s h (rxStep s.cfg ch (s.env.now s.cfg).1 (s.env.now s.cfg).2).1
  ⟨rfl, rfl, rfl, rfl, rfl, rfl, rfl, f.talkers, f.listeners⟩

theorem ChannelFrame.talkerStep (s : State) (h : Handle) (ch : Channel) : ChannelFrame s (talkerStep h ch s) :=
  have f := ChannelFrame.setChannel s h (txStep s.cfg ch (s.env.now s.cfg).1).1
  ⟨rfl, rfl, rfl, rfl, rfl, rfl, rfl, f.talkers, f.listeners⟩

theorem ChannelFrame.stepChannel (s : State) (h : Handle) : ChannelFrame s (stepChannel s h) := by
  unfold Machine.stepChannel
  split
  · exact .refl s
  · split
    · exact .listenerStep ..
    · exact .talkerStep ..

theorem ChannelFrame.beginChannel (s : State) (h : Handle) : ChannelFrame s (beginChannel s h) := by
  unfold Machine.beginChannel
  split
  · exact .refl s
  split
  · exact .refl s
  · rename_i ch _ _
    have f := fun ch' => ChannelFrame.setChannel s h ch'
    cases ch.kind <;> exact ⟨rfl, rfl, rfl, rfl, rfl, rfl, rfl, (f _).talkers, (f _).listeners⟩

theorem ChannelFrame.awaitListener (s : State) (i : Nat) : ChannelFrame s (awaitListener s i) := by
  unfold Machine.awaitListener
  split
  · exact .refl s
  split
  · exact .refl s
  · exact .listenerStep ..

theorem ChannelFrame.foldl {α : Type} {f : State → α → State} (hf : ∀ s a, ChannelFrame s (f s a)) (l : List α)
    (s : State) : ChannelFrame s (l.foldl f s) := by
  induction l generalizing s with
  | nil => exact .refl s
  | cons a l ih => exact (hf s a).trans (ih _)

/-- A pass of steps over states keeps what each of its steps keeps. -/
theorem foldl_preserves {α : Type} {P : State → Prop} {f : State → α → State} (hf : ∀ s a, P s → P (f s a))
    (l : List α) {s : State} (h : P s) : P (l.foldl f s) := by
  induction l generalizing s with
  | nil => exact h
  | cons a l ih => exact ih (hf _ _ h)

theorem awaitMicro_next {i : Nat} {s t : State} (h : awaitMicro i s = .next t) :
    ∃ ch, s.listeners[i]? = some ch ∧
      let s' := listenerStep ⟨.listener, i⟩ ch s
      (((s'.channel ⟨.listener, i⟩).any (·.available) = true ∧ t = s'.complete) ∨
       ((s'.channel ⟨.listener, i⟩).any (·.available) = false ∧ t = s')) := by
  simp only [awaitMicro] at h
  split at h
  · cases h
  · rename_i ch hc
    refine ⟨ch, hc, ?_⟩
    split at h
    · exact .inl ⟨by assumption, (next_inj h).symm⟩
    · rename_i c; exact .inr ⟨by simpa using c, (next_inj h).symm⟩

theorem awaitAllMicro_next {s t : State} (h : awaitAllMicro s = .next t) :
    let s' := (List.range (s.count .listener)).foldl awaitListener s
    (s'.listenersAvailable = true ∧ t = s'.complete) ∨ (s'.listenersAvailable = false ∧ t = s') := by
  simp only [awaitAllMicro] at h
  split at h
  · exact .inl ⟨by assumption, (next_inj h).symm⟩
  · rename_i c; exact .inr ⟨by simpa using c, (next_inj h).symm⟩

theorem tellMicro_next {i idx : Nat} {sched : List (Nat × Level)} {t0 : Option Nat} {s t : State}
    (h : tellMicro i sched idx t0 s = .next t) :
    ∃ ch off lvl, s.talkers[i]? = some ch ∧ sched[idx]? = some (off, lvl) ∧
      let now := (s.env.now s.cfg).1
      let origin := t0.getD now
      let driven : State :=
        { s with talkers := s.talkers.set i { ch with previousLevel := lvl }, env := (s.env.now s.cfg).2,
                 history := s.history ++ [.write ch.pin lvl now] }
      ((elapsed s.cfg.modulus now origin < off ∧
          t = { s with env := (s.env.now s.cfg).2, engine := .tell i sched idx (some origin) }) ∨
       (off ≤ elapsed s.cfg.modulus now origin ∧ idx + 1 = sched.length ∧
          t = { driven with engine := .idle, responses := s.responses ++ [0] }) ∨
       (off ≤ elapsed s.cfg.modulus now origin ∧ idx + 1 ≠ sched.length ∧
          t = { driven with engine := .tell i sched (idx + 1) (some origin) })) := by
  simp only [tellMicro] at h
  split at h
  · rename_i ch off lvl h1 h2
    refine ⟨ch, off, lvl, h1, h2, ?_⟩
    split at h
    · rename_i c
      split at h
      · rename_i d; exact .inr (.inl ⟨c, d, (next_inj h).symm⟩)
      · rename_i d; exact .inr (.inr ⟨c, d, (next_inj h).symm⟩)
    · rename_i c; exact .inl ⟨by omega, (next_inj h).symm⟩
  · cases h

theorem recieveMicro_next {i n ts : Nat} {ph : RecievePhase} {s t : State}
    (h : recieveMicro i n ph ts s = .next t) :
    ∃ ch, s.listeners[i]? = some ch ∧
      let r := recieveStep s.cfg ch (s.env.now s.cfg).1 (s.env.now s.cfg).2 ph ts
      ((r.2.2.1 = .bytes ∧ r.1.buf.size = n ∧
          t = { s with listeners := s.listeners.set i r.1, env := r.2.1, engine := .idle,
                       responses := s.responses ++ [0] }) ∨
       (¬(r.2.2.1 = .bytes ∧ r.1.buf.size = n) ∧
          t = { s with listeners := s.listeners.set i r.1, env := r.2.1,
                       engine := .recieve i n r.2.2.1 r.2.2.2 })) := by
  simp only [recieveMicro] at h
  split at h
  · cases h
  · rename_i ch hc
    refine ⟨ch, hc, ?_⟩
    split at h
    · rename_i c; exact .inl ⟨c.1, c.2, (next_inj h).symm⟩
    · rename_i c; exact .inr ⟨c, (next_inj h).symm⟩

/-- What a micro-step does to everything but channel records, line history and draws. -/
theorem microStep_next {s t : State} (he : s.engine ≠ .idle) (h : microStep s = .next t) :
    t.fault = s.fault ∧ t.inbox = s.inbox ∧ t.order = s.order ∧ t.cfg = s.cfg ∧ t.resetRequest = s.resetRequest ∧
    t.talkers.length = s.talkers.length ∧ t.listeners.length = s.listeners.length ∧
    ((t.engine ≠ .idle ∧ t.responses = s.responses) ∨ (t.engine = .idle ∧ t.responses = s.responses ++ [0])) := by
  unfold microStep at h
  cases hE : s.engine with
  | idle => exact absurd hE he
  | await i =>
    rw [hE] at h
    obtain ⟨ch, -, h⟩ := awaitMicro_next h
    have f := ChannelFrame.listenerStep s ⟨.listener, i⟩ ch
    obtain ⟨-, rfl⟩ | ⟨-, rfl⟩ := h
    · exact ⟨f.fault, f.inbox, f.order, f.cfg, f.resetRequest, f.talkers, f.listeners, .inr ⟨rfl, rfl⟩⟩
    · exact ⟨f.fault, f.inbox, f.order, f.cfg, f.resetRequest, f.talkers, f.listeners,
        .inl ⟨by rw [f.engine, hE]; simp, rfl⟩⟩
  | awaitAll =>
    rw [hE] at h
    have f := ChannelFrame.foldl ChannelFrame.awaitListener (List.range (s.count .listener)) s
    obtain ⟨-, rfl⟩ | ⟨-, rfl⟩ := awaitAllMicro_next h
    · exact ⟨f.fault, f.inbox, f.order, f.cfg, f.resetRequest, f.talkers, f.listeners,
        .inr ⟨rfl, by rw [State.complete_responses, f.responses]⟩⟩
    · exact ⟨f.fault, f.inbox, f.order, f.cfg, f.resetRequest, f.talkers, f.listeners,
        .inl ⟨by rw [f.engine, hE]; simp, f.responses⟩⟩
  | tell i sched idx t0 =>
    rw [hE] at h
    obtain ⟨ch, off, lvl, -, -, ⟨-, rfl⟩ | ⟨-, -, rfl⟩ | ⟨-, -, rfl⟩⟩ := tellMicro_next h
    · exact ⟨rfl, rfl, rfl, rfl, rfl, rfl, rfl, .inl ⟨by simp, rfl⟩⟩
    · exact ⟨rfl, rfl, rfl, rfl, rfl, List.length_set, rfl, .inr ⟨rfl, rfl⟩⟩
    · exact ⟨rfl, rfl, rfl, rfl, rfl, List.length_set, rfl, .inl ⟨by simp, rfl⟩⟩
  | recieve i n ph ts =>
    rw [hE] at h
    obtain ⟨ch, -, ⟨-, -, rfl⟩ | ⟨-, rfl⟩⟩ := recieveMicro_next h
    · exact ⟨rfl, rfl, rfl, rfl, rfl, rfl, List.length_set, .inr ⟨rfl, rfl⟩⟩
    · exact ⟨rfl, rfl, rfl, rfl, rfl, rfl, List.length_set, .inl ⟨by simp, rfl⟩⟩

/-! ### Passes over the channels -/

/-- A pass over handles that differ, each step of which touches only the channel it is at: each channel of the pass is
stepped once, from the record it had before the pass, and the others are left alone. -/
theorem foldl_channel {P : Channel → Channel → Prop} {p : Config} {f : State → Handle → State}
    (hc : ∀ s h, (f s h).cfg = s.cfg) (hf : ∀ s h h', h' ≠ h → (f s h).channel h' = s.channel h')
    (l : List Handle) (hl : l.Nodup)
    (hs : ∀ s h ch, h ∈ l → s.cfg = p → s.channel h = some ch → ∃ ch', (f s h).channel h = some ch' ∧ P ch ch') :
    ∀ s h ch, s.cfg = p → s.channel h = some ch →
      ∃ ch', (l.foldl f s).channel h = some ch' ∧ ((h ∈ l ∧ P ch ch') ∨ (h ∉ l ∧ ch' = ch)) := by
  induction l with
  | nil => intro s h ch _ hch; exact ⟨ch, hch, .inr ⟨by simp, rfl⟩⟩
  | cons a l ih =>
    intro s h ch hp hch
    obtain ⟨hal, hl'⟩ := List.nodup_cons.mp hl
    have ih := ih hl' fun s h ch hm => hs s h ch (List.mem_cons_of_mem _ hm)
    by_cases ha : h = a
    · subst ha
      obtain ⟨ch', h1, h2⟩ := hs s h ch List.mem_cons_self hp hch
      obtain ⟨ch'', h3, h4⟩ := ih (f s h) h ch' ((hc s h).trans hp) h1
      obtain ⟨h4, -⟩ | ⟨-, rfl⟩ := h4
      · exact absurd h4 hal
      · exact ⟨_, h3, .inl ⟨by simp, h2⟩⟩
    · obtain ⟨ch'', h3, h4⟩ := ih (f s a) h ch ((hc s a).trans hp) ((hf s a h ha).trans hch)
      refine ⟨ch'', h3, h4.imp (fun h => ⟨by simp [h.1], h.2⟩) (fun h => ⟨by simp [ha, h.1], h.2⟩)⟩

/-- The state that the `k`-th step of a pass sees, stepped once, is the state that the next one sees. -/
theorem foldl_take_succ {α : Type} {f : State → α → State} {l : List α} {k : Nat} {a : α} (hk : l[k]? = some a)
    (s : State) : (l.take (k + 1)).foldl f s = f ((l.take k).foldl f s) a := by
  rw [List.take_add_one, hk, List.foldl_append]; rfl

/-- A pass each step of which touches only the channel that `g` names leaves the channels it does not name. -/
theorem foldl_channel_ne {α : Type} {f : State → α → State} {g : α → Handle}
    (hf : ∀ s a h, h ≠ g a → (f s a).channel h = s.channel h) {l : List α} {h : Handle} (hl : h ∉ l.map g) (s : State) :
    (l.foldl f s).channel h = s.channel h := by
  induction l generalizing s with
  | nil => rfl
  | cons a l ih =>
    simp only [List.map_cons, List.mem_cons, not_or] at hl
    exact (ih hl.2 _).trans (hf s a h hl.1)

/-- The `k`-th step of such a pass finds its channel as the pass found it, and leaves it as the pass leaves it. -/
theorem foldl_channel_at {α : Type} {f : State → α → State} {g : α → Handle}
    (hf : ∀ s a h, h ≠ g a → (f s a).channel h = s.channel h) {l : List α} (hl : (l.map g).Nodup) {k : Nat} {a : α}
    (hk : l[k]? = some a) (s : State) :
    ((l.take k).foldl f s).channel (g a) = s.channel (g a) ∧
    (l.foldl f s).channel (g a) = (f ((l.take k).foldl f s) a).channel (g a) := by
  have hs : l = l.take k ++ a :: l.drop (k + 1) := by
    obtain ⟨hlt, rfl⟩ := List.getElem?_eq_some_iff.mp hk
    simp
  rw [hs, List.map_append, List.map_cons] at hl
  obtain ⟨-, hr, hd⟩ := List.nodup_append.mp hl
  refine ⟨foldl_channel_ne hf (fun h => hd _ h _ List.mem_cons_self rfl) s, ?_⟩
  conv_lhs => rw [hs, List.foldl_append, List.foldl_cons]
  exact foldl_channel_ne hf (List.nodup_cons.mp hr).1 _

/-- `order` names a handle exactly if its slot is allocated (R24). -/
theorem mem_order {s : State} (ho : s.OrderWf) {h : Handle} : h ∈ s.order ↔ h.index < s.count h.kind := by
  obtain ⟨k, i⟩ := h
  cases k
  · have := congrArg (⟨.talker, i⟩ ∈ ·) ho.1
    simpa [List.mem_filter] using this
  · have := congrArg (⟨.listener, i⟩ ∈ ·) ho.2
    simpa [List.mem_filter] using this

/-- `order` names no handle twice (R24). -/
theorem order_nodup {s : State} (ho : s.OrderWf) : s.order.Nodup := by
  have hn : ∀ k n, ((List.range n).map fun i => (⟨k, i⟩ : Handle)).Nodup := fun k n =>
    List.nodup_range.map fun a b h => by cases h; rfl
  rw [List.nodup_iff_count_le_one]
  rintro ⟨k, i⟩
  cases k
  · rw [← List.count_filter (p := fun h => h.kind == .talker) (by rfl), ho.1]
    exact List.nodup_iff_count_le_one.mp (hn ..) _
  · rw [← List.count_filter (p := fun h => h.kind == .listener) (by rfl), ho.2]
    exact List.nodup_iff_count_le_one.mp (hn ..) _

theorem channel_of_mem_order {s : State} (ho : s.OrderWf) {h : Handle} (hm : h ∈ s.order) :
    ∃ ch, s.channel h = some ch :=
  Option.isSome_iff_exists.mp (State.channel_isSome_iff.mpr ((mem_order ho).mp hm))

theorem mem_order_of_channel {s : State} (ho : s.OrderWf) {h : Handle} {ch : Channel} (hc : s.channel h = some ch) :
    h ∈ s.order :=
  (mem_order ho).mpr (State.channel_isSome_iff.mp (by rw [hc]; rfl))

theorem listenerStep_channel {s : State} {h : Handle} {ch ch' : Channel} (hc : s.channel h = some ch') :
    (listenerStep h ch s).channel h = some (rxStep s.cfg ch s.clockNow s.envAfterClock).1 :=
  State.channel_setChannel_self hc

theorem talkerStep_channel {s : State} {h : Handle} {ch ch' : Channel} (hc : s.channel h = some ch') :
    (talkerStep h ch s).channel h = some (txStep s.cfg ch s.clockNow).1 :=
  State.channel_setChannel_self hc

theorem listenerStep_channel_ne {s : State} {h h' : Handle} (ch : Channel) (hn : h' ≠ h) :
    (listenerStep h ch s).channel h' = s.channel h' :=
  State.channel_setChannel_ne (s := s) hn

theorem talkerStep_channel_ne {s : State} {h h' : Handle} (ch : Channel) (hn : h' ≠ h) :
    (talkerStep h ch s).channel h' = s.channel h' :=
  State.channel_setChannel_ne (s := s) hn

theorem stepChannel_channel_ne (s : State) (h h' : Handle) (hn : h' ≠ h) :
    (stepChannel s h).channel h' = s.channel h' := by
  unfold stepChannel
  split
  · rfl
  split
  · exact listenerStep_channel_ne _ hn
  · exact talkerStep_channel_ne _ hn

theorem awaitListener_channel_ne (s : State) (i : Nat) (h' : Handle) (hn : h' ≠ ⟨.listener, i⟩) :
    (awaitListener s i).channel h' = s.channel h' := by
  unfold awaitListener
  split
  · rfl
  split
  · rfl
  · exact listenerStep_channel_ne _ hn

theorem beginChannel_channel_ne (s : State) (h h' : Handle) (hn : h' ≠ h) :
    (beginChannel s h).channel h' = s.channel h' := by
  unfold beginChannel
  split
  · rfl
  split
  · rfl
  simp only
  split <;> exact State.channel_setChannel_ne (s := s) hn

/-- `BEGIN`'s step on the channel at `h`: its record, the draws and the line events, all of one clock value (R183). -/
theorem beginChannel_at {s : State} {h : Handle} {ch : Channel} (hc : s.channel h = some ch) :
    let draw := s.env.now s.cfg
    (beginChannel s h).channel h = some (
      if ch.configured then ch
      else match ch.kind with
        | .listener => { ch with timeAnchor := draw.1, configured := true }
        | .talker => { ch with previousLevel := true, configured := true }) ∧
    (beginChannel s h).env = (if ch.configured then s.env else draw.2) ∧
    (beginChannel s h).history = s.history ++ beginEvents ch draw.1 := by
  simp only [beginChannel, hc, beginEvents]
  by_cases c : ch.configured = true
  · simp only [c, if_true]; exact ⟨hc, trivial, by simp⟩
  · simp only [if_neg c]
    cases hk : ch.kind <;> exact ⟨State.channel_setChannel_self hc, rfl, rfl⟩

/-- `AWAIT_ALL`'s step on listener `i`: its record and the draws (R133, R186). -/
theorem awaitListener_at {s : State} {i : Nat} {ch : Channel} (hc : s.listeners[i]? = some ch) :
    let draw := s.env.now s.cfg
    let sample := draw.2.readLine ch.pin
    (awaitListener s i).env = (if ch.available then s.env else sample.2) ∧
    (awaitListener s i).listeners[i]? = some (
      if ch.available then ch
      else if sample.1 = false then { ch with timeAnchor := draw.1, previousLevel := false }
      else if elapsed (2 ^ s.cfg.clkW) draw.1 ch.timeAnchor ≥ s.cfg.minAvailableDelta then
        { ch with available := true, previousLevel := true }
      else { ch with previousLevel := true }) := by
  have hc' : s.channel ⟨.listener, i⟩ = some ch := hc
  simp only [awaitListener, hc']
  by_cases c : ch.available = true
  · simp only [c, if_true]; exact ⟨trivial, hc⟩
  have c' : ch.available = false := by simpa using c
  have hs : ch.samplesNow s.cfg (s.env.now s.cfg).1 = true := by simp [Channel.samplesNow, Channel.rxPhase, c']
  have hs' : ch.samplesNow s.cfg s.clockNow = true := hs
  simp only [if_neg c]
  refine ⟨by simp [listenerStep, rxStep, hs], (listenerStep_channel hc').trans ?_⟩
  rw [rxStep, if_pos hs']
  simp only [rxAction, Channel.rxPhase, c', unavailableStep, State.clockNow, State.envAfterClock, Channel.due,
    Config.modulus, if_true]
  cases h : ((s.env.now s.cfg).2.readLine ch.pin).1
  · simp
  · by_cases d : s.cfg.minAvailableDelta ≤ elapsed (2 ^ s.cfg.clkW) (s.env.now s.cfg).1 ch.timeAnchor <;> simp [d, c']

@[simp] theorem awaitListener_talkers (s : State) (i : Nat) : (awaitListener s i).talkers = s.talkers := by
  unfold awaitListener
  split
  · rfl
  split <;> rfl

@[simp] theorem awaitListener_history (s : State) (i : Nat) : (awaitListener s i).history = s.history := by
  unfold awaitListener
  split
  · rfl
  split <;> rfl

end Sys2Proof.Machine
end

