-- ==== Sys2Proof/Machine/Assembly.lean ====
section
/-! DEFINITION. The assembly syntax of R83: the command that one line of text writes, `none` for a line that writes none.
The block never sees this text; it sees the words that `encode` gives (log entry 16). -/

namespace Sys2Proof.Machine

/-- The parts of a line: a mnemonic, handle or number, or one of the punctuation marks of R83. -/
inductive Token where
  | word (cs : List Char)
  | comma
  | lbracket
  | rbracket
deriving DecidableEq, Repr

/-- The word read so far, if any, in front of the tokens after it. -/
def endWord (acc : List Char) (ts : List Token) : List Token :=
  match acc with
  | [] => ts
  | _ :: _ => .word acc.reverse :: ts

/-- The tokens of a line; `acc` is the word being read, last character first. Blanks only separate. -/
def lex (acc : List Char) : List Char → List Token
  | [] => endWord acc []
  | c :: cs =>
    if c = ',' then endWord acc (.comma :: lex [] cs)
    else if c = '[' then endWord acc (.lbracket :: lex [] cs)
    else if c = ']' then endWord acc (.rbracket :: lex [] cs)
    else if c = ' ' ∨ c = '\t' then endWord acc (lex [] cs)
    else lex (c :: acc) cs

/-- The value of a digit of a base up to 16. -/
def digit (base : Nat) (c : Char) : Option Nat :=
  let n := c.toNat
  let v := if 48 ≤ n ∧ n ≤ 57 then n - 48
    else if 97 ≤ n ∧ n ≤ 102 then n - 87
    else if 65 ≤ n ∧ n ≤ 70 then n - 55
    else base
  if v < base then some v else none

/-- The value of a string of digits, `acc` for the digits before them. -/
def digits (base acc : Nat) : List Char → Option Nat
  | [] => some acc
  | c :: cs => (digit base c).bind fun d => digits base (acc * base + d) cs

/-- A number below `bound`: decimal, or `0x` and hexadecimal digits (R83). -/
def number (bound : Nat) (cs : List Char) : Option Nat :=
  let v := match cs with
    | [] => none
    | '0' :: 'x' :: c :: hex => digits 16 0 (c :: hex)
    | c :: dec => digits 10 0 (c :: dec)
  v.filter (· < bound)

/-- A handle: `t` or `l` and a slot number (R26, R83). -/
def handle : List Char → Option (Kind × Byte)
  | 't' :: cs => (number 256 cs).map fun i => (.talker, BitVec.ofNat 8 i)
  | 'l' :: cs => (number 256 cs).map fun i => (.listener, BitVec.ofNat 8 i)
  | _ => none

/-- The slot of a handle of this kind. -/
def slotNamed (k : Kind) (cs : List Char) : Option Byte :=
  (handle cs).bind fun h => if h.1 = k then some h.2 else none

/-- The bytes of a list after its `[` and a first byte: `, b` again and again and then `]` at the end of the line. -/
def bytesAfter : List Token → Option (List Byte)
  | [.rbracket] => some []
  | .comma :: .word cs :: ts =>
    (number 256 cs).bind fun b => (bytesAfter ts).map fun bs => BitVec.ofNat 8 b :: bs
  | _ => none

/-- A byte list `[b0, b1, ...]` (R83). -/
def byteList : List Token → Option (List Byte)
  | [.lbracket, .rbracket] => some []
  | .lbracket :: .word cs :: ts =>
    (number 256 cs).bind fun b => (bytesAfter ts).map fun bs => BitVec.ofNat 8 b :: bs
  | _ => none

/-- The operands of `listen` and `talk`: `<pin>, <baud>`. -/
def pinBaud : List Token → Option (Byte × Word)
  | [.word p, .comma, .word b] =>
    (number 256 p).bind fun pin => (number (2 ^ 32) b).map fun baud => (BitVec.ofNat 8 pin, BitVec.ofNat 32 baud)
  | _ => none

/-- The operands of `send` and `tell`: `t<i>, [bytes]`. -/
def talkerBytes : List Token → Option (Byte × List Byte)
  | .word h :: .comma :: ts => (slotNamed .talker h).bind fun i => (byteList ts).map fun bs => (i, bs)
  | _ => none

/-- The operands of `recieve`: `l<i>, <n>`. -/
def listenerCount : List Token → Option (Byte × BitVec 16)
  | [.word h, .comma, .word n] =>
    (slotNamed .listener h).bind fun i => (number 65536 n).map fun n => (i, BitVec.ofNat 16 n)
  | _ => none

/-- The operand of `read`, `peek` and `await`: `l<i>`. -/
def oneListener : List Token → Option Byte
  | [.word h] => slotNamed .listener h
  | _ => none

/-- The operand of the commands on either kind: `<h>`. -/
def oneHandle : List Token → Option (Kind × Byte)
  | [.word h] => handle h
  | _ => none

/-- No operand. -/
def noOperand (i : Instr) : List Token → Option Instr
  | [] => some i
  | _ :: _ => none

/-- The command of a mnemonic, in lower case, and its operands (R83). -/
def assembleTokens (mnemonic : String) (ts : List Token) : Option Instr :=
  if mnemonic = "listen" then (pinBaud ts).map fun o => .listen o.1 o.2
  else if mnemonic = "talk" then (pinBaud ts).map fun o => .talk o.1 o.2
  else if mnemonic = "begin" then noOperand .begin ts
  else if mnemonic = "tick" then noOperand .tick ts
  else if mnemonic = "await_all" then noOperand .awaitAll ts
  else if mnemonic = "send" then (talkerBytes ts).map fun o => .send o.1 o.2
  else if mnemonic = "tell" then (talkerBytes ts).map fun o => .tell o.1 o.2
  else if mnemonic = "read" then (oneListener ts).map .read
  else if mnemonic = "peek" then (oneListener ts).map .peek
  else if mnemonic = "buffered_count" then (oneHandle ts).map fun o => .bufferedCount o.1 o.2
  else if mnemonic = "is_available" then (oneHandle ts).map fun o => .isAvailable o.1 o.2
  else if mnemonic = "recieve" then (listenerCount ts).map fun o => .recieve o.1 o.2
  else if mnemonic = "is_activated" then (oneHandle ts).map fun o => .isActivated o.1 o.2
  else if mnemonic = "await" then (oneListener ts).map .await
  else if mnemonic = "reset" then (oneHandle ts).map fun o => .reset o.1 o.2
  else none

/-- The well-formed command that a line of assembly writes (R83). -/
def assemble (line : String) : Option Instr :=
  match lex [] line.toList with
  | .word m :: ts => (assembleTokens (String.ofList m) ts).filter (·.wellFormed)
  | _ => none

end Sys2Proof.Machine
end

