-- ==== Sys2Proof/Tests/Slice0.lean ====
section
/-! SUPPORT. The model's own tests. Expected results are those of spec/95_test_vectors.md, named in each comment, or of the
rule named there. After them, for each statement with hypotheses, a witness that meets the hypotheses together. -/

namespace Sys2Proof.Tests

open Sys2Proof.Machine

/-! ### Small states -/

/-- A FIFO of 16 slots that holds these bytes from cursor 0. -/
def fifo (bytes : List Byte) : Fifo :=
  { slots := bytes ++ List.replicate (16 - bytes.length) 0, start := 0, stop := bytes.length }

/-- Pin 2, 10000 baud, configured, available, hunting. -/
def lis : Channel where
  kind := .listener
  pin := 2
  bitPeriodUs := 100
  timeAnchor := 0
  activated := false
  midActivated := false
  available := true
  previousLevel := true
  accumulator := 0
  bitsDone := 0
  configured := true
  buf := fifo []

/-- `lis` before it is available. -/
def waiting : Channel := { lis with available := false, previousLevel := false }

/-- Pin 3, 10000 baud, configured, idle. -/
def tal : Channel := { lis with kind := .talker, pin := 3, available := false }

/-- The channels as registration leaves them. -/
def newLis : Channel := newChannel defaultConfig .listener 2 10000
def newTal : Channel := newChannel defaultConfig .talker 3 10000

/-- A talker driving data bit `bits` of 0x41, and one at its end mark. -/
def streaming (bits : BitVec 4) : Channel :=
  { tal with activated := true, midActivated := true, bitsDone := bits, accumulator := 0x41, timeAnchor := 1900,
             buf := fifo [0x41, 0x42] }

/-- A listener sampling data bit `bits`. -/
def sampling (bits : BitVec 4) (acc : Byte) (buf : Fifo) : Channel :=
  { lis with activated := true, midActivated := true, bitsDone := bits, accumulator := acc, timeAnchor := 600850,
             buf := buf }

/-- A block with these talkers and listeners, and foretold clock values and line levels. -/
def block (ts ls : List Channel) (clock : List (BitVec 64)) (lines : List Level) : State :=
  { State.reset with
    talkers := ts, listeners := ls,
    order := (List.range ls.length).map (⟨.listener, ·⟩) ++ (List.range ts.length).map (⟨.talker, ·⟩)
    env := { clock := clock, lines := lines, clockReads := 0, lineReads := 0 } }

/-- The next state of an outcome, if it is one. -/
def got : Result → Option State
  | .next s => some s
  | .fault _ => none
  | .refused _ => none

/-- The state after `n` steps. -/
def stepped : Nat → State → Option State
  | 0, s => some s
  | n + 1, s => (got (step s)).bind (stepped n)

/-- What one command does: the fault, the responses and the channels after it. -/
def told (i : Instr) (s : State) : Option (Option FaultRecord × List Word × List Channel × List Channel) :=
  (got (exec i s)).map fun t => (t.fault, t.responses, t.talkers, t.listeners)

/-- The outcome is this fault. -/
def faults (i : Instr) (s : State) (c : FaultCode) (w : Word) : Bool :=
  (got (exec i s)).any fun t => decide (t = { s with fault := some ⟨c, w⟩ })

/-! ### Well-formedness -/

/-- R71, R77: the count field `B` is 16 bits. -/
theorem test_wellFormed_refuses_long_send : (Instr.send 0 (List.replicate 65536 0)).wellFormed = false := by
  rw [Instr.wellFormed, payloadFits, List.length_replicate]; decide

theorem test_wellFormed_refuses_long_tell : (Instr.tell 0 (List.replicate 65536 0)).wellFormed = false := by
  rw [Instr.wellFormed, payloadFits, List.length_replicate]; decide

theorem test_wellFormed_longest : (Instr.send 0 (List.replicate 65535 0)).wellFormed = true := by
  rw [Instr.wellFormed, payloadFits, List.length_replicate]; decide

/-! ### Decoding: words written out by the spec -/

/-- P1, P2 of L3. -/
theorem test_decode_listen : decode [0x10020000, 0x00002710] = .command (.listen 2 10000) [] := by decide
theorem test_decode_talk : decode [0x20030000, 0x00002710] = .command (.talk 3 10000) [] := by decide
theorem test_decode_begin : decode [0x30000000] = .command .begin [] := by decide
theorem test_decode_tick : decode [0x40000000] = .command .tick [] := by decide
theorem test_decode_awaitAll : decode [0x50000000] = .command .awaitAll [] := by decide
/-- V-E-9, V-E-10. -/
theorem test_decode_send : decode [0x60000003, 0x0000FF41] = .command (.send 0 [0x41, 0xFF, 0x00]) [] := by decide
theorem test_decode_send_five :
    decode [0x60000005, 0x03020100, 0x00000004, 7] = .command (.send 0 [0, 1, 2, 3, 4]) [7] := by decide
/-- P7. -/
theorem test_decode_tell : decode [0x70000001, 0x000000A5] = .command (.tell 0 [0xA5]) [] := by decide
/-- V-CH-6, R140, V-E-13, V-CH-3, V-E-11, V-CH-4, R141, V-E-12. -/
theorem test_decode_read : decode [0x88030000] = .command (.read 3) [] := by decide
theorem test_decode_peek : decode [0x98010000] = .command (.peek 1) [] := by decide
theorem test_decode_bufferedCount : decode [0xA0010000] = .command (.bufferedCount .talker 1) [] := by decide
theorem test_decode_isAvailable : decode [0xB8000000] = .command (.isAvailable .listener 0) [] := by decide
theorem test_decode_recieve : decode [0xC8010004] = .command (.recieve 1 4) [] := by decide
theorem test_decode_isActivated : decode [0xD8010000] = .command (.isActivated .listener 1) [] := by decide
theorem test_decode_await : decode [0xE8000000] = .command (.await 0) [] := by decide
theorem test_decode_reset : decode [0xF8020000] = .command (.reset .listener 2) [] := by decide

/-- V-E-1 to V-E-7: illegal headers; only the header is consumed. -/
theorem test_decode_illegal :
    [0x00000000, 0x31000000, 0x38000000, 0x30010000, 0x80000000, 0x88000001, 0x18020000].all
      (fun h : Word => decode [h, 0x00002710] = .unknownHeader h [0x00002710]) = true := by decide

/-- V-E-8: an unused payload byte that is not 0. -/
theorem test_decode_reserved_payload :
    decode [0x70000001, 0x00000141, 5] = .reservedPayload 0x70000001 [5] := by decide

/-- R70: a command waits for its extension words. -/
theorem test_decode_incomplete : decode [0x60000005, 0x03020100] = .incomplete := by decide

/-- The encoder spells P5's words. -/
theorem test_encode_send : encode (.send 0 [0x41, 0xFF, 0x00]) = [0x60000003, 0x0000FF41] := by decide
theorem test_encode_reset : encode (.reset .listener 2) = [0xF8020000] := by decide

/-- The opcode table's bit numbering: bit 0 is the least significant bit of the header. -/
theorem test_table_word : decodeTableWord 64 0x0000271010020000 = some (.listen 2 10000) := by decide
theorem test_table_word_header_only : decodeTableWord 32 0x60000001 = some (.send 0 [0]) := by decide
theorem test_fetch_word :
    got (step (State.reset.withFetchWord 32 0x88000000)) =
      some { State.reset with fault := some ⟨.invalidHandle, 0x88000000⟩ } := by decide

/-- The assembly lines of R180, R181, R167, R121, R140 and R186 and the words beside them. -/
theorem test_assemble :
    ["listen 2, 10000", "talk 3, 10000", "send t0, [0x41, 0xFF, 0x00]", "reset l2", "peek l1", "await_all"].map
      (fun line => (assemble line).map encode) =
      [some [0x10020000, 0x00002710], some [0x20030000, 0x00002710], some [0x60000003, 0x0000FF41],
       some [0xF8020000], some [0x98010000], some [0x50000000]] := by decide

/-- R83: lines that write no command. -/
theorem test_assemble_refuses :
    ["listen 2", "LISTEN 2, 1", "read t0", "send t0, [256]", "tick l0", "tell t0, [1", "", "recieve l0, 65536"].all
      (fun line => decide (assemble line = none)) = true := by decide

/-! ### Clock arithmetic, FIFO, bits -/

/-- V-L1-1, V-C-2, V-C-3, V-C-4. -/
theorem test_elapsed :
    elapsed (2 ^ 32) 5 (2 ^ 32 - 10) = 15 ∧ elapsed (2 ^ 32) 700 701 = 2 ^ 32 - 1 ∧
    elapsed (2 ^ 32) 0 0xFFFFFF9C = 100 ∧ elapsed (2 ^ 64) 5 (2 ^ 64 - 10) = 15 := by decide

/-- V-F-1 to V-F-3. -/
theorem test_fifo_wraps :
    (({ slots := List.replicate 16 0, start := 15, stop := 15 } : Fifo).pushAll 16 [0x41, 0x42]).map
      (fun f => (f.slots.getD 15 0, f.slots.getD 0 0, f.start, f.stop, (f.pop 16).map (·.1))) =
      some (0x41, 0x42, 15, 17, some 0x41) := by decide

/-- V-B-1, V-B-2: the last accumulator values. -/
theorem test_accInsert :
    accInsert .lsbFirst 0x01 6 true = 0x41 ∧ accInsert .msbFirst 0x20 7 true = 0x41 ∧
    accInsert .msbFirst 0x01 2 false = 0x02 := by decide

/-- V-B-3, V-B-5. -/
theorem test_frameBit :
    (List.range 8).map (frameBit .lsbFirst 0xA5) = [true, false, true, false, false, true, false, true] ∧
    (List.range 8).map (frameBit .msbFirst 0x41) = [false, true, false, false, false, false, false, true] := by decide

/-! ### Registration, BEGIN, TICK, AWAIT_ALL -/

/-- V-A-1 and V-L1-9: pin, period 104 at 9600 baud, order, response 1. -/
theorem test_listen :
    (got (exec (.listen 4 9600) (block [newTal] [newLis] [] []))).map
      (fun t => (t.responses, t.order.drop 2, (t.listeners.getD 1 lis).pin, (t.listeners.getD 1 lis).period)) =
      some ([1], [⟨.listener, 1⟩], 4, 104) := by decide

/-- V-A-2: CAPACITY_EXCEEDED comes before ZERO_BAUD. -/
theorem test_listen_capacity :
    faults (.listen 7 0) (block [] (List.replicate 6 newLis) [] []) .capacityExceeded 0x10070000 = true := by decide

/-- V-A-1; R181. -/
theorem test_talk :
    told (.talk 3 10000) (block [] [newLis] [] []) = some (none, [0], [newTal], [newLis]) := by decide

/-- V-A-3's check, for TALK. -/
theorem test_talk_zero_baud : faults (.talk 7 0) State.reset .zeroBaud 0x20070000 = true := by decide

/-- P1: clock draws 0 and 10, the lines driven, the anchor of a listener only. -/
theorem test_begin :
    (got (exec .begin (block [newTal] [newLis] [7, 10] []))).map
      (fun t => (t.history, (t.listeners.getD 0 lis).timeAnchor, (t.talkers.getD 0 tal).timeAnchor,
        (t.talkers.getD 0 tal).previousLevel, t.responses)) =
      some ([.dir 2 .input 7, .dir 3 .output 10, .write 3 true 10], 7, 0, true, [0]) := by decide

/-- V-A-4: a second BEGIN reads no clock and drives nothing. -/
theorem test_begin_again :
    got (exec .begin (block [tal] [lis] [7] [])) =
      some { block [tal] [lis] [7] [] with responses := [0] } := by decide

/-- V-R-4 and V-T-2 in one pass: each channel its own clock draw. -/
theorem test_tick :
    told .tick (block [{ tal with buf := fifo [0x41] }] [{ lis with previousLevel := false }] [1000, 1001] [true]) =
      some (none, [0],
        [{ tal with buf := fifo [0x41], accumulator := 0x41, timeAnchor := 1001, midActivated := true }],
        [{ lis with timeAnchor := 1000 }]) := by decide

/-- V-A-5: one unconfigured channel, and no channel is stepped. -/
theorem test_tick_not_configured :
    faults .tick (block [tal] [lis, newLis] [1, 2, 3] []) .notConfigured 0x40000000 = true := by decide

/-- V-A-7, the first pass: only the unavailable listener is stepped. -/
theorem test_awaitAll_pass :
    (stepped 1 { block [] [lis, waiting] [250000, 500000] [true, true] with engine := .awaitAll }).map
      (fun t => (t.engine, t.listeners, t.env.clock)) =
      some (.awaitAll, [lis, { waiting with previousLevel := true }], [500000]) := by decide

/-- V-A-7 from acceptance: two passes, then the response. -/
theorem test_awaitAll :
    ((got (exec .awaitAll (block [] [lis, waiting] [250000, 500000] [true, true]))).bind (stepped 2)).map
      (fun t => (t.engine, t.responses, (t.listeners.getD 1 lis).available)) = some (.idle, [0], true) := by decide

/-! ### SEND, TELL -/

/-- V-TC-2: `Size + N = C` is accepted. -/
theorem test_send_fills :
    (got (exec (.send 0 [1, 2, 3]) (block [{ tal with buf := fifo (List.replicate 13 9) }] [] [] []))).map
      (fun t => (t.responses, ((t.talkers.getD 0 tal).buf.contents 16).drop 12)) =
      some ([0], [9, 1, 2, 3]) := by decide

/-- V-TC-3: BACKPRESSURE queues nothing. -/
theorem test_send_backpressure :
    told (.send 0 [1, 2, 3]) (block [{ tal with buf := fifo (List.replicate 14 9) }] [] [] []) =
      some (none, [0x00010000], [{ tal with buf := fifo (List.replicate 14 9) }], []) := by decide

/-- V-TC-6: not at rest. -/
theorem test_tell_mixed_path :
    faults (.tell 0 [0x41]) (block [{ tal with buf := fifo [0x41] }] [] [] []) .mixedPath 0x70000001 = true := by decide

/-- P7's first micro-steps: the start time is the first clock value. -/
theorem test_tell :
    ((got (exec (.tell 0 [0xA5]) (block [tal] [] [5000, 5050, 5100] []))).bind (stepped 3)).map (·.history) =
      some [.write 3 true 5000, .write 3 false 5100] := by decide

/-- V-TC-9: the schedule of two bytes; entries 0, 1, 2, 9, 10, 11, 19 and 20. -/
theorem test_tell_schedule :
    let sched := tellSchedule .lsbFirst 100 [0x41, 0x42]
    sched.length = 21 ∧ [0, 1, 2, 9, 10, 11, 19, 20].map (sched[·]?) =
      [some (0, true), some (100, false), some (200, true), some (900, false), some (1000, true), some (1100, false),
       some (1900, false), some (2000, true)] := by decide

/-! ### READ, PEEK, RECIEVE, AWAIT -/

/-- V-RC-1. -/
theorem test_read :
    (got (exec (.read 0) (block [] [{ lis with buf := fifo [0x41, 0x42] }] [] []))).map
      (fun t => (t.responses, (t.listeners.getD 0 lis).buf.contents 16)) = some ([0x41], [0x42]) := by decide

/-- V-L1-3. -/
theorem test_read_empty : faults (.read 0) (block [] [lis] [] []) .bufferEmpty 0x88000000 = true := by decide

/-- V-RC-1. -/
theorem test_peek :
    told (.peek 0) (block [] [{ lis with buf := fifo [0x42] }] [] []) =
      some (none, [0x42], [], [{ lis with buf := fifo [0x42] }]) := by decide

/-- V-L1-3. -/
theorem test_peek_empty : faults (.peek 0) (block [] [lis] [] []) .bufferEmpty 0x98000000 = true := by decide

/-- V-RC-5: RECEIVE_TOO_LONG comes before NOT_CONFIGURED. -/
theorem test_recieve_too_long :
    faults (.recieve 0 17) (block [] [newLis] [] []) .receiveTooLong 0xC8000011 = true := by decide

/-- V-RC-9: the stale byte is drained, the listener primed. -/
theorem test_recieve_zero :
    ((got (exec (.recieve 0 0) (block [] [{ lis with buf := fifo [0x33] }] [7000, 8000] [true]))).bind (stepped 2)).map
      (fun t => (t.engine, t.responses, (t.listeners.getD 0 lis).buf.size, (t.listeners.getD 0 lis).timeAnchor)) =
      some (.idle, [0], 0, 8000) := by decide

/-- V-RC-3: three micro-steps. -/
theorem test_await :
    ((got (exec (.await 0) (block [] [waiting] [100000, 400000, 500000] [true, true, true]))).bind (stepped 3)).map
      (fun t => (t.engine, t.responses, (t.listeners.getD 0 waiting).available)) = some (.idle, [0], true) := by decide

/-- V-RC-4. -/
theorem test_await_not_configured :
    faults (.await 0) (block [] [newLis] [] []) .notConfigured 0xE8000000 = true := by decide

/-! ### Queries and RESET -/

/-- V-CH-5. -/
theorem test_bufferedCount :
    (got (exec (.bufferedCount .talker 0) (block [{ tal with buf := fifo (List.replicate 16 1) }] [] [] []))).map
      (·.responses) = some [0x10] := by decide

/-- V-CH-3. -/
theorem test_isAvailable :
    ((got (exec (.isAvailable .listener 0) (block [tal] [lis] [] []))).bind
      fun t => got (exec (.isAvailable .talker 0) t)).map (·.responses) = some [1, 0] := by decide

/-- V-CH-4. -/
theorem test_isActivated :
    (got (exec (.isActivated .listener 0) (block [] [sampling 0 0 (fifo [])] [] []))).map (·.responses) =
      some [1] := by decide

/-- V-CH-1. -/
theorem test_reset :
    told (.reset .listener 0) (block [] [sampling 7 0x41 (fifo [0x10])] [] []) =
      some (none, [0], [], [{ lis with buf := fifo [0x10] }]) := by decide

/-- V-CH-7. -/
theorem test_reset_invalid_handle :
    faults (.reset .talker 0) (block [] [lis] [] []) .invalidHandle 0xF0000000 = true := by decide

/-! ### The receive and transmit state machines -/

/-- V-R-2 and V-R-3: one microsecond apart. -/
theorem test_rx_available :
    (rxStep defaultConfig { waiting with timeAnchor := 300000 } 799999 (Env.line true)).1 =
      { waiting with timeAnchor := 300000, previousLevel := true } ∧
    (rxStep defaultConfig { waiting with timeAnchor := 300000 } 800000 (Env.line true)).1 =
      { lis with timeAnchor := 300000 } := by decide

/-- V-R-5 and V-R-6: the half period. -/
theorem test_rx_hunt :
    (rxStep defaultConfig { lis with timeAnchor := 1000 } 1030 (Env.line false)).1 =
      { lis with timeAnchor := 1000, previousLevel := false } ∧
    (rxStep defaultConfig { lis with timeAnchor := 1000 } 1050 (Env.line false)).1 =
      { lis with timeAnchor := 1050, midActivated := true, previousLevel := false } := by decide

/-- V-R-12 and V-R-11: a late confirmation counts from the edge; a glitch. -/
theorem test_rx_confirm :
    (rxStep defaultConfig { lis with timeAnchor := 600100, midActivated := true } 600175 (Env.line false)).1 =
      { lis with timeAnchor := 600150, midActivated := true, activated := true, previousLevel := false } ∧
    (rxStep defaultConfig { lis with timeAnchor := 600100, midActivated := true } 600150 (Env.line true)).1 =
      { lis with timeAnchor := 600150 } := by decide

/-- V-R-17 and V-R-18: the eighth bit, with room and without. -/
theorem test_rx_byte_complete :
    (rxStep defaultConfig (sampling 7 0x41 (fifo [])) 600950 (Env.line false)).1 =
      { lis with previousLevel := false, buf := fifo [0x41] } ∧
    (rxStep defaultConfig (sampling 7 0x41 (fifo (List.replicate 16 1))) 600950 (Env.line false)).1 =
      { lis with previousLevel := false, buf := fifo (List.replicate 16 1) } := by decide

/-- V-R-16: sampling across the clock's wrap. -/
theorem test_rx_wrap :
    (rxStep defaultConfig { sampling 0 0 (fifo []) with timeAnchor := 0xFFFFFFC0 } 36 (Env.line true)).1 =
      { sampling 1 1 (fifo []) with timeAnchor := 36 } := by decide

/-- V-T-3 and V-T-4. -/
theorem test_tx_raised :
    txStep defaultConfig { tal with midActivated := true, timeAnchor := 1000 } 1099 =
      ({ tal with midActivated := true, timeAnchor := 1000 }, []) ∧
    txStep defaultConfig { tal with midActivated := true, timeAnchor := 1000 } 1100 =
      ({ tal with midActivated := true, timeAnchor := 1100, activated := true, previousLevel := false },
       [.write 3 false 1100]) := by decide

/-- V-T-6: the end mark pops the byte sent. -/
theorem test_tx_end_mark :
    txStep defaultConfig (streaming 8) 2000 =
      ({ tal with buf := { fifo [0x41, 0x42] with start := 1 } }, [.write 3 true 2000]) := by decide

/-! ### Witnesses: the hypotheses of each statement are met together -/

theorem witness_DecodeOfEncode : (Instr.tell 255 (List.replicate 65535 0xFF)).wellFormed = true := by
  rw [Instr.wellFormed, payloadFits, List.length_replicate]; decide

theorem witness_EncodeOfDecode :
    decode [0x60000005, 0x03020100, 0x00000004, 7] = .command (.send 0 [0, 1, 2, 3, 4]) [7] := by decide

/-- A state whose port holds these words. -/
def port (ws : List Word) : State := { State.reset with inbox := ws }

theorem witness_IllegalCommands_header :
    (port [0x31000000, 1]).Ready ∧ (port [0x31000000, 1]).resetRequest = false ∧ IllegalHeader 0x31000000 := by decide

/-- The nonzero unused byte is the first one, right after the payload, and the last one of the last word. -/
theorem witness_IllegalCommands_payload :
    (port [0x70000001, 0x00000141]).Ready ∧ (0x70000001#32).extractLsb' 24 8 = 0x70 ∧
    ([0x00000141] : List Word).length = (((0x70000001#32).extractLsb' 0 16).toNat + 3) / 4 ∧
    payloadByte [0x00000141] 1 ≠ 0 ∧ (0x60000001#32).extractLsb' 24 8 = 0x60 ∧
    ([0x01000041] : List Word).length = (((0x60000001#32).extractLsb' 0 16).toNat + 3) / 4 ∧
    payloadByte [0x01000041] 3 ≠ 0 := by decide

theorem witness_EveryHeaderHasOneRow :
    (⟨.begin, 0x30000000, 0xFFFFFFFF⟩ : OpcodeRow) ∈ opcodeTable ∧
    (0x30000000 : Word) &&& 0xFFFFFFFF = 0x30000000 := by decide

theorem witness_ExtensionWordCount :
    (∀ pin baud, Instr.begin ≠ .listen pin baud) ∧ (∀ pin baud, Instr.begin ≠ .talk pin baud) ∧
    (∀ a bytes, Instr.begin ≠ .send a bytes) ∧ (∀ a bytes, Instr.begin ≠ .tell a bytes) := by simp

theorem witness_StepRunsTheDecodedCommand :
    (port [0x70000001, 0xA5, 9]).Ready ∧ (port [0x70000001, 0xA5, 9]).resetRequest = false ∧
    decode (port [0x70000001, 0xA5, 9]).inbox = .command (.tell 0 [0xA5]) [9] := by decide

/-- A block whose AWAIT runs. -/
def awaiting : State := { block [] [waiting, lis] [5, 6] [true, false] with engine := .await 0 }

theorem witness_NoCommandStarts :
    awaiting.engine ≠ .idle ∧ awaiting.resetRequest = false ∧ awaiting.fault = none ∧
    (got (step awaiting)).isSome = true := by decide

theorem witness_FaultStopsTheBlock :
    let s := { State.reset with fault := some ⟨.mixedPath, 1⟩ }
    (s.fault = some ⟨.mixedPath, 1⟩ ∧ s.resetRequest = false) ∧
    ({ s with resetRequest := true } : State).resetRequest = true := by decide

theorem witness_FaultsArePrecise :
    got (exec (.read 0) State.reset) = some { State.reset with fault := some ⟨.invalidHandle, 0x88000000⟩ } ∧
    ((port [0x88000000]).fault = none ∧
      got (step (port [0x88000000])) = some { State.reset with fault := some ⟨.invalidHandle, 0x88000000⟩ }) ∧
    awaiting.engine ≠ .idle ∧ (got (step awaiting)).isSome = true := by decide

/-- Both outcomes of the checks: a first failing check, and none. -/
theorem witness_FirstFailingCheck :
    State.reset.Ready ∧ ((checks State.reset (.read 0)).find? (·.1)).isSome = true ∧
    (checks State.reset (.listen 0 1)).find? (·.1) = none := by decide

/-- At the boundary: the index equals the count, which is 1. -/
theorem witness_BadHandles :
    (block [tal] [lis] [] []).Ready ∧ (block [tal] [lis] [] []).talkers.length ≤ (1 : Byte).toNat ∧
    (block [tal] [lis] [] []).listeners.length ≤ (1 : Byte).toNat := by decide

theorem witness_EachCommandAnswersOnce :
    (got (exec .begin State.reset)).isSome = true ∧ awaiting.resetRequest = false ∧ awaiting.engine ≠ .idle ∧
    (got (step awaiting)).isSome = true := by decide

theorem witness_PowerOn :
    (State.requestReset awaiting).resetRequest = true ∧ (port [0x60000001]).Ready ∧
    (port [0x60000001]).resetRequest = false ∧ decode (port [0x60000001]).inbox = .incomplete := by decide

theorem witness_EnvironmentAnswers :
    (block [] [] [2 ^ 32 + 5] []).env.clock = [2 ^ 32 + 5] ∧ (Env.line true).lines = [true] := by decide

theorem witness_Elapsed : (0 : Nat) < 2 ^ 32 ∧ 2 ^ 32 - 1 < 2 ^ 32 ∧ (700 : Nat) < 701 := by decide

/-- The FIFO clauses: a full FIFO, one with room, an empty one, one with an oldest byte. -/
theorem witness_FifoPrimitives :
    defaultConfig.Legal ∧ (fifo (List.replicate 16 7)).Wf defaultConfig.bufferMaxSize ∧
    (fifo (List.replicate 16 7)).size = defaultConfig.bufferMaxSize ∧
    (fifo (List.replicate 15 7)).Wf defaultConfig.bufferMaxSize ∧
    (fifo (List.replicate 15 7)).size < defaultConfig.bufferMaxSize ∧
    (fifo []).Wf defaultConfig.bufferMaxSize ∧ (fifo []).size = 0 ∧
    (fifo [1, 2]).contents defaultConfig.bufferMaxSize = [1, 2] := by decide

theorem witness_FifoIsFirstInFirstOut :
    defaultConfig.Legal ∧ (fifo [1]).Wf defaultConfig.bufferMaxSize ∧
    (fifo [1]).run defaultConfig.bufferMaxSize [.push 2, .pop, .pop] =
      some ({ fifo [1, 2] with start := 2 }, [1, 2]) := by decide

theorem witness_AssembledByte : ([true, false, false, false, false, false, true, false] : List Level).length = 8 := by
  decide

theorem witness_ChannelCommands :
    (block [tal] [lis] [] []).Ready ∧ (block [tal] [lis] [] []).talkers[(0 : Byte).toNat]? = some tal ∧
    (block [tal] [lis] [] []).listeners[(0 : Byte).toNat]? = some lis := by decide

theorem witness_ResetRestarts :
    waiting.available = false ∧ ((Env.line true).readLine waiting.pin).1 = true ∧
    defaultConfig.minAvailableDelta ≤ 500000 ∧ defaultConfig.Legal ∧ (streaming 3).buf.Wf defaultConfig.bufferMaxSize ∧
    (streaming 3).buf.contents defaultConfig.bufferMaxSize = [0x41, 0x42] := by decide

theorem witness_ReadAndPeek :
    let ch := { lis with buf := fifo [0x41, 0x42] }
    let s := block [] [ch] [] []
    s.Ready ∧ s.cfg.Legal ∧ s.listeners[(0 : Byte).toNat]? = some ch ∧ ch.buf.Wf s.cfg.bufferMaxSize ∧
    ch.buf.contents s.cfg.bufferMaxSize = [0x41, 0x42] := by decide

theorem witness_ListenerPhases :
    waiting.available = false ∧ (lis.available = true ∧ lis.activated = false ∧ lis.midActivated = false) ∧
    (let ch := { lis with midActivated := true }
     ch.available = true ∧ ch.activated = false ∧ ch.midActivated = true) := by decide

/-- The three clauses of SAMPLING at their boundaries, and the eighth bit with room and with a full FIFO. -/
theorem witness_SamplingListenerStep :
    let ch := sampling 6 0x41 (fifo [])
    let last := sampling 7 0x41 (fifo (List.replicate 15 1))
    let full := sampling 7 0x41 (fifo (List.replicate 16 1))
    let m := defaultConfig.modulus
    defaultConfig.Legal ∧
    (ch.buf.Wf 16 ∧ ch.available = true ∧ ch.activated = true ∧ ch.bitsDone.toNat < 8 ∧
      elapsed m 600949 ch.timeAnchor < ch.period ∧ ch.period ≤ elapsed m 600950 ch.timeAnchor ∧
      ch.bitsDone.toNat < 7) ∧
    (last.buf.Wf 16 ∧ last.available = true ∧ last.activated = true ∧ last.bitsDone.toNat = 7 ∧
      last.period ≤ elapsed m 600950 last.timeAnchor ∧ last.buf.size < 16) ∧
    (full.buf.Wf 16 ∧ full.available = true ∧ full.activated = true ∧ full.bitsDone.toNat = 7 ∧
      full.period ≤ elapsed m 600950 full.timeAnchor ∧ full.buf.size = 16) := by decide

theorem witness_AwaitAcceptance :
    let s := block [] [newLis, lis, waiting] [] []
    s.Ready ∧ (s.listeners[(0 : Byte).toNat]? = some newLis ∧ newLis.configured = false) ∧
    (s.listeners[(1 : Byte).toNat]? = some lis ∧ lis.configured = true ∧ lis.available = true) ∧
    (s.listeners[(2 : Byte).toNat]? = some waiting ∧ waiting.configured = true ∧ waiting.available = false) := by decide

theorem witness_AwaitMicroStep :
    awaiting.fault = none ∧ awaiting.resetRequest = false ∧ awaiting.engine = .await 0 ∧
    awaiting.listeners[0]? = some waiting ∧ waiting.available = false := by decide

/-- RECIEVE at the boundary `n = C`, on a listener that may start and on one that is not at rest. -/
theorem witness_RecieveAcceptance :
    let s := block [] [lis, sampling 0 0 (fifo [])] [] []
    s.Ready ∧ s.listeners[(0 : Byte).toNat]? = some lis ∧ ¬ (16 : BitVec 16).toNat > s.cfg.bufferMaxSize ∧
    (17 : BitVec 16).toNat > s.cfg.bufferMaxSize ∧
    s.listeners[(1 : Byte).toNat]? = some (sampling 0 0 (fifo [])) := by decide

/-- A block whose RECIEVE of one byte runs, in a phase. -/
def receiving (ch : Channel) (ph : RecievePhase) (clock : List (BitVec 64)) : State :=
  { block [] [ch] clock [true] with engine := .recieve 0 1 ph 7000 }

/-- The five clauses; the settling wait is tested one microsecond below and at its end. -/
theorem witness_RecieveMicroSteps :
    (∀ s ∈ [receiving waiting .avail [1], receiving lis .settle [7999], receiving lis .settle [8000],
        receiving lis .bytes [1]], s.fault = none ∧ s.resetRequest = false ∧ s.engine ≠ .idle) ∧
    waiting.available = false ∧ lis.available = true ∧
    (receiving lis .settle [7999]).engine = .recieve 0 1 .settle 7000 ∧
    (receiving lis .settle [7999]).listeners[0]? = some lis ∧
    elapsed defaultConfig.modulus (receiving lis .settle [7999]).clockNow 7000 < 10 * lis.period ∧
    10 * lis.period ≤ elapsed defaultConfig.modulus (receiving lis .settle [8000]).clockNow 7000 := by decide

theorem witness_TalkerPhases :
    let idle := { tal with buf := fifo [0x41] }
    let raised := { tal with midActivated := true }
    defaultConfig.Legal ∧
    (tal.buf.Wf 16 ∧ tal.activated = false ∧ tal.midActivated = false ∧ tal.buf.contents 16 = []) ∧
    (idle.buf.Wf 16 ∧ idle.activated = false ∧ idle.midActivated = false ∧ idle.buf.contents 16 = [0x41]) ∧
    (raised.activated = false ∧ raised.midActivated = true) ∧
    ((streaming 7).activated = true ∧ (streaming 7).bitsDone.toNat < 8) ∧
    ((streaming 8).buf.Wf 16 ∧ 0 < (streaming 8).buf.size ∧ (streaming 8).activated = true ∧
      (streaming 8).bitsDone.toNat = 8) := by decide

/-- Just enough room for two bytes, and one byte too few. -/
theorem witness_SendEnqueues :
    let ch := { tal with buf := fifo (List.replicate 14 9) }
    let s := block [ch] [] [] []
    s.Ready ∧ s.cfg.Legal ∧ s.talkers[(0 : Byte).toNat]? = some ch ∧ ch.buf.Wf s.cfg.bufferMaxSize ∧
    ch.buf.size + ([1, 2] : List Byte).length ≤ s.cfg.bufferMaxSize ∧
    s.cfg.bufferMaxSize < ch.buf.size + ([1, 2, 3] : List Byte).length := by decide

theorem witness_TellAcceptance :
    let s := block [newTal, streaming 0, tal, { tal with buf := fifo [0x41] }] [] [] []
    s.Ready ∧ (s.talkers[(0 : Byte).toNat]? = some newTal ∧ newTal.configured = false) ∧
    (s.talkers[(1 : Byte).toNat]? = some (streaming 0) ∧ (streaming 0).configured = true ∧
      (streaming 0).midActivated = true) ∧
    (s.talkers[(2 : Byte).toNat]? = some tal ∧ tal.configured = true ∧ tal.midActivated = false ∧
      tal.activated = false ∧ tal.buf.size = 0) := by decide

theorem witness_TellScheduleEntries : ([0x41, 0x42] : List Byte)[1]? = some 0x42 ∧ (7 : Nat) < 8 := by decide

/-- A block whose TELL runs. -/
def telling (idx : Nat) (clock : List (BitVec 64)) : State :=
  { block [tal] [] clock [] with engine := .tell 0 [(0, true), (100, false)] idx (some 5000) }

/-- The three clauses: one microsecond before an entry is due, an entry that is due, and the last entry. -/
theorem witness_TellMicroStep :
    (∀ s ∈ [telling 0 [5000], telling 1 [5099], telling 1 [5100]], s.fault = none ∧ s.resetRequest = false ∧
      s.talkers[0]? = some tal) ∧
    ([(0, true), (100, false)] : List (Nat × Level))[1]? = some (100, false) ∧
    elapsed defaultConfig.modulus (telling 1 [5099]).clockNow 5000 < 100 ∧
    100 ≤ elapsed defaultConfig.modulus (telling 1 [5100]).clockNow 5000 ∧
    0 ≤ elapsed defaultConfig.modulus (telling 0 [5000]).clockNow 5000 := by decide

/-- A settling wait of 2^32 microseconds or more: 10 baud and 65535 settling periods. -/
def slow : State :=
  { block [] [{ lis with bitPeriodUs := 100000 }] [1] [] with
    cfg := { defaultConfig with settlePeriods := 65535 }, engine := .recieve 0 1 .settle 0 }

/-- A TELL whose next entry is due after 2^32 microseconds. -/
def late : State := { block [tal] [] [1] [] with engine := .tell 0 [(2 ^ 32, true)] 0 (some 0) }

theorem witness_TooLongWaits :
    slow.cfg.Legal ∧ slow.resetRequest = false ∧ slow.engine = .recieve 0 1 .settle 0 ∧
    slow.listeners[0]? = some { lis with bitPeriodUs := 100000 } ∧ 2 ^ slow.cfg.clkW ≤ slow.cfg.settlePeriods * 100000 ∧
    (got (step slow)).isSome = true ∧ late.resetRequest = false ∧
    late.engine = .tell 0 [(2 ^ 32, true)] 0 (some 0) ∧ 2 ^ late.cfg.clkW ≤ 2 ^ 32 ∧
    (got (step late)).isSome = true := by decide

theorem witness_Registration :
    State.reset.Ready ∧ State.reset.listeners.length ≠ State.reset.cfg.maxListeners ∧
    (block [] (List.replicate 6 newLis) [] []).listeners.length = defaultConfig.maxListeners := by decide

theorem witness_BitPeriod : (1 : Word) ≠ 0 ∧ 1000000 < (1000001 : Word).toNat := by decide

/-- The invariant holds of a block with a talker and a listener. -/
theorem witness_Inv : (block [tal] [lis] [1, 2] [true]).Inv := by
  refine ⟨?_, ?_, ?_, ?_, ?_, ?_, ?_, ?_, ?_⟩ <;> decide

theorem witness_Begin :
    (block [newTal] [newLis] [1, 2] []).Ready ∧ (block [newTal] [newLis] [1, 2] []).Inv ∧
    ((block [newTal] [newLis] [1, 2] []).order.countP fun h =>
      !(block [newTal] [newLis] [1, 2] []).isConfigured h) ≤ 2 := by
  refine ⟨by decide, ⟨?_, ?_, ?_, ?_, ?_, ?_, ?_, ?_, ?_⟩, by decide⟩ <;> decide

theorem witness_Tick :
    (block [tal] [lis] [1, 2] [true]).Ready ∧ (block [tal] [lis] [1, 2] [true]).Inv ∧
    (∀ h ∈ (block [tal] [lis] [1, 2] [true]).order, (block [tal] [lis] [1, 2] [true]).isConfigured h = true) ∧
    (block [tal] [lis] [1, 2] [true]).order.length ≤ (block [tal] [lis] [1, 2] [true]).env.clock.length :=
  ⟨by decide, witness_Inv, by decide, by decide⟩

theorem witness_TickOrder :
    let s := block [tal] [lis] [1, 2] [true]
    (State.reset.Ready ∧ State.reset.order = []) ∧ s.Ready ∧ s.order = [⟨.listener, 0⟩, ⟨.talker, 0⟩] ∧
    (∀ h ∈ s.order, s.isConfigured h = true) ∧ s.channel ⟨.listener, 0⟩ = some lis ∧
    (got (exec .tick s)).isSome = true := by decide

theorem witness_AwaitAll :
    ((block [] [newLis] [] []).Ready ∧ ∃ ch ∈ (block [] [newLis] [] []).listeners, ch.configured = false) ∧
    ((block [] [lis] [] []).Ready ∧ ∀ ch ∈ (block [] [lis] [] []).listeners,
      ch.configured = true ∧ ch.available = true) ∧
    ((block [] [lis, waiting] [] []).Ready ∧ (∀ ch ∈ (block [] [lis, waiting] [] []).listeners, ch.configured = true) ∧
      ∃ ch ∈ (block [] [lis, waiting] [] []).listeners, ch.available = false) := by decide

theorem witness_AwaitAllPass :
    let s := { block [] [lis, waiting] [5, 6] [true, true] with engine := .awaitAll }
    s.fault = none ∧ s.resetRequest = false ∧ s.engine = .awaitAll := by decide

theorem witness_EveryStep :
    ({ block [tal] [lis] [1, 2] [true] with inbox := [0x40000000] } : State).Inv ∧
    (got (step { block [tal] [lis] [1, 2] [true] with inbox := [0x40000000] })).isSome = true := by
  refine ⟨⟨?_, ?_, ?_, ?_, ?_, ?_, ?_, ?_, ?_⟩, by decide⟩ <;> decide

theorem witness_ChannelsKeep :
    awaiting.resetRequest = false ∧ (got (step awaiting)).isSome = true ∧
    awaiting.channel ⟨.listener, 0⟩ = some waiting := by decide

theorem witness_OnlyRegistration :
    (got (exec (.listen 2 1) State.reset)).isSome = true ∧ (got (exec (.talk 2 1) State.reset)).isSome = true ∧
    awaiting.engine ≠ .idle ∧ (got (step awaiting)).isSome = true ∧
    (got (step (State.requestReset awaiting))).isSome = true ∧ (got (step (port [0x40000000]))).isSome = true := by decide

theorem witness_LineHistory :
    ({ block [newTal] [newLis] [1, 2] [] with inbox := [0x30000000] } : State).Inv ∧
    ({ block [newTal] [newLis] [1, 2] [] with inbox := [0x30000000] } : State).resetRequest = false ∧
    (got (step { block [newTal] [newLis] [1, 2] [] with inbox := [0x30000000] })).isSome = true := by
  refine ⟨⟨?_, ?_, ?_, ?_, ?_, ?_, ?_, ?_, ?_⟩, by decide, by decide⟩ <;> decide

theorem witness_BlockingStepsFreeze :
    (awaiting.engine = .await 0 ∧ (got (step awaiting)).isSome = true) ∧
    ((receiving lis .bytes [1]).engine = .recieve 0 1 .bytes 7000 ∧
      (got (step (receiving lis .bytes [1]))).isSome = true) ∧
    ((telling 0 [5000]).engine = .tell 0 [(0, true), (100, false)] 0 (some 5000) ∧
      (got (step (telling 0 [5000]))).isSome = true) ∧
    (got (step { block [] [lis, waiting] [5, 6] [true, true] with engine := .awaitAll })).isSome = true := by decide

theorem witness_CommandFrames :
    let s := block [tal] [{ lis with buf := fifo [1] }] [] []
    [Instr.peek 0, .await 0, .recieve 0 1, .tell 0 [1], .bufferedCount .talker 0, .isAvailable .listener 0,
     .isActivated .talker 0, .awaitAll, .read 0, .send 0 [1], .reset .talker 0, .reset .listener 0].all
      (fun i => (got (exec i s)).any (·.fault.isNone)) = true := by decide

theorem witness_OneByte :
    defaultConfig.Legal ∧ ListenerWf defaultConfig (sampling 7 0x41 (fifo [])) ∧
    ListenerWf defaultConfig (sampling 7 0x41 (fifo (List.replicate 16 1))) := by decide

theorem witness_TalkerDrives :
    defaultConfig.Legal ∧ TalkerWf defaultConfig { tal with buf := fifo [0x41, 0x42] } ∧ tal.midActivated = false ∧
    (fifo [0x41, 0x42]).contents defaultConfig.bufferMaxSize = [0x41, 0x42] := by decide

theorem witness_FrameSent :
    ListenerWf defaultConfig lis ∧ lis.available = true ∧ lis.midActivated = false ∧ lis.previousLevel = true ∧
    lis.buf.size < defaultConfig.bufferMaxSize ∧ lis.period = tal.period ∧ 1 ≤ tal.period ∧
    1000 + 10 * tal.period < 2 ^ defaultConfig.clkW ∧
    lis.halfPeriod ≤ elapsed defaultConfig.modulus (1000 + tal.period) lis.timeAnchor := by decide

end Sys2Proof.Tests
end

section
/-! The environment's draws (R9, R213): a foretold answer is used once, and what holds of every answer. -/

namespace Sys2Proof.Machine

/-- `Env.now` on a foretold answer: it is used up, and the block sees its low `CLK_W` bits (R9, R213). -/
theorem Env.now_of_clock_eq_cons (p : Config) {e : Env} {d : BitVec 64} {ds : List (BitVec 64)}
    (h : e.clock = d :: ds) : e.now p = (d.toNat % p.modulus, { e with clock := ds }) := by
  simp only [Env.now, h]

/-- `Env.readLine` on a foretold level: it is used up, whatever the pin (R9, R212). -/
theorem Env.readLine_of_lines_eq_cons (pin : Byte) {e : Env} {v : Level} {vs : List Level}
    (h : e.lines = v :: vs) : e.readLine pin = (v, { e with lines := vs }) := by
  simp only [Env.readLine, h]

/-- Settles O16: a foretold answer is the head of its list and the rest stays, and `Env.now_lt` and `Env.now_lines` hold
of every clock read, foretold or free. -/
theorem environmentAnswersInOrder : Obligations.EnvironmentAnswersInOrder :=
  ⟨fun p _ _ _ h => Env.now_of_clock_eq_cons p h,
   fun _ pin _ _ h => Env.readLine_of_lines_eq_cons pin h,
   fun p e => ⟨Env.now_lt p e, Env.now_lines p e⟩⟩

end Sys2Proof.Machine
end

section
/-! What every step keeps of the channels: each allocated channel's identity and sticky flags (R22, R27, R29, R36), and the
counts, the order and the parameters (R23, R24, R42), which of all commands only LISTEN and TALK write. -/

namespace Sys2Proof.Machine

/-! ### The state after a registration -/

/-- The state after a channel of kind `k` is registered and its index is answered (R182), as `exec_next` gives it. -/
abbrev State.registered (s : State) (k : Kind) (pin : Byte) (baud : Word) : State :=
  { s.setSlots k (s.slots k ++ [newChannel s.cfg k pin baud]) with
    order := s.order ++ [⟨k, s.count k⟩]
    responses := s.responses ++ [0#16 ++ BitVec.ofNat 16 (s.count k)] }

theorem State.registered_channel_of_some {s : State} {h : Handle} {ch : Channel} (hc : s.channel h = some ch) (k : Kind)
    (pin : Byte) (baud : Word) : (s.registered k pin baud).channel h = some ch := by
  obtain ⟨k', i⟩ := h
  have append_getElem? {l : List Channel} {c : Channel} (hl : l[i]? = some ch) : (l ++ [c])[i]? = some ch := by
    rw [List.getElem?_append_left (List.getElem?_eq_some_iff.mp hl).1, hl]
  cases k <;> cases k'
  · exact append_getElem? hc
  · exact hc
  · exact hc
  · exact append_getElem? hc

/-- A channel after a registration was there before, or is the new one. -/
theorem State.registered_channel_cases {s : State} {k : Kind} {pin : Byte} {baud : Word} {h : Handle} {ch : Channel}
    (hc : (s.registered k pin baud).channel h = some ch) :
    s.channel h = some ch ∨ h.kind = k ∧ ch = newChannel s.cfg k pin baud := by
  obtain ⟨k', i⟩ := h
  have of_append {l : List Channel} {c : Channel} (hl : (l ++ [c])[i]? = some ch) : l[i]? = some ch ∨ ch = c := by
    rw [List.getElem?_append] at hl
    split at hl
    · exact .inl hl
    · exact .inr (List.mem_singleton.mp (List.mem_of_getElem? hl))
  cases k <;> cases k'
  · exact (of_append hc).imp id fun e => ⟨rfl, e⟩
  · exact .inl hc
  · exact .inl hc
  · exact (of_append hc).imp id fun e => ⟨rfl, e⟩

/-! ### Channels keep their identity -/

/-- Every allocated channel of `s` is still there in `t`, with its identity and its sticky flags (R22, R27, R29, R36). -/
def KeepsChannels (s t : State) : Prop :=
  ∀ h ch, s.channel h = some ch → ∃ ch', t.channel h = some ch' ∧ KeepsIdentity ch ch'

theorem keepsChannels_registered (s : State) (k : Kind) (pin : Byte) (baud : Word) :
    KeepsChannels s (s.registered k pin baud) :=
  fun _ ch hc => ⟨ch, State.registered_channel_of_some hc k pin baud, .refl ch⟩

/-- The same channels, order and parameters. -/
structure SameRegistry (s t : State) : Prop where
  talkers : t.talkers = s.talkers
  listeners : t.listeners = s.listeners
  order : t.order = s.order
  cfg : t.cfg = s.cfg

theorem SameRegistry.channel {s t : State} (hst : SameRegistry s t) (h : Handle) : t.channel h = s.channel h := by
  obtain ⟨k, i⟩ := h
  cases k <;> simp [hst.talkers, hst.listeners]

theorem SameRegistry.count {s t : State} (hst : SameRegistry s t) (k : Kind) : t.count k = s.count k := by
  cases k <;> simp [State.count, hst.talkers, hst.listeners]

/-- No channel is allocated, freed or given another identity, and the order and the parameters are the same. -/
structure Evolves (s t : State) : Prop where
  cfg : t.cfg = s.cfg
  order : t.order = s.order
  count : ∀ k, t.count k = s.count k
  channels : KeepsChannels s t

theorem Evolves.of_sameRegistry {s t : State} (hst : SameRegistry s t) : Evolves s t :=
  ⟨hst.cfg, hst.order, hst.count, fun h ch hc => ⟨ch, (hst.channel h).trans hc, .refl ch⟩⟩

theorem Evolves.refl (s : State) : Evolves s s := .of_sameRegistry ⟨rfl, rfl, rfl, rfl⟩

theorem Evolves.trans {s t u : State} (hst : Evolves s t) (htu : Evolves t u) : Evolves s u where
  cfg := htu.cfg.trans hst.cfg
  order := htu.order.trans hst.order
  count k := (htu.count k).trans (hst.count k)
  channels h ch hc := by
    obtain ⟨ch', hc', hk⟩ := hst.channels h ch hc
    obtain ⟨ch'', hc'', hk'⟩ := htu.channels h ch' hc'
    exact ⟨ch'', hc'', hk.trans hk'⟩

/-- A channel found afterwards was there before, with the same identity. -/
theorem Evolves.channel_origin {s t : State} (hst : Evolves s t) {h : Handle} {ch' : Channel}
    (hc : t.channel h = some ch') : ∃ ch, s.channel h = some ch ∧ KeepsIdentity ch ch' := by
  have hs : (s.channel h).isSome := by
    rw [State.channel_isSome_iff, ← hst.count, ← State.channel_isSome_iff, hc]; rfl
  obtain ⟨ch, hch⟩ := Option.isSome_iff_exists.mp hs
  obtain ⟨c, hc', hk⟩ := hst.channels h ch hch
  cases hc'.symm.trans hc
  exact ⟨ch, hch, hk⟩

theorem Evolves.setChannel {s : State} {h : Handle} {ch ch' : Channel} (hc : s.channel h = some ch)
    (hk : KeepsIdentity ch ch') : Evolves s (s.setChannel h ch') where
  cfg := rfl
  order := rfl
  count := State.count_setChannel s h ch'
  channels h' c hc' := by
    by_cases hh : h' = h
    · subst hh
      cases hc.symm.trans hc'
      exact ⟨ch', State.channel_setChannel_self hc, hk⟩
    · exact ⟨c, (State.channel_setChannel_ne hh).trans hc', .refl c⟩

/-- One channel's record is written; beside it, only what is no part of the registry changes. -/
theorem Evolves.of_setChannel {s t : State} {h : Handle} {ch ch' : Channel} (hc : s.channel h = some ch)
    (hk : KeepsIdentity ch ch') (ht : SameRegistry (s.setChannel h ch') t) : Evolves s t :=
  (Evolves.setChannel hc hk).trans (.of_sameRegistry ht)

theorem listenerStep_evolves {s : State} {h : Handle} {ch : Channel} (hc : s.channel h = some ch) :
    Evolves s (listenerStep h ch s) :=
  .of_setChannel hc (rxStep_keepsIdentity ..) ⟨rfl, rfl, rfl, rfl⟩

theorem talkerStep_evolves {s : State} {h : Handle} {ch : Channel} (hc : s.channel h = some ch) :
    Evolves s (talkerStep h ch s) :=
  .of_setChannel hc (txStep_keepsIdentity ..) ⟨rfl, rfl, rfl, rfl⟩

/-- `TICK`'s step on one handle: nothing, or a step of the channel there, by its kind. -/
theorem stepChannel_cases (s : State) (h : Handle) :
    stepChannel s h = s ∨ ∃ ch, s.channel h = some ch ∧
      (ch.kind = .listener ∧ stepChannel s h = listenerStep h ch s ∨
       ch.kind = .talker ∧ stepChannel s h = talkerStep h ch s) := by
  unfold stepChannel
  split
  · exact .inl rfl
  · rename_i ch hc
    split
    · exact .inr ⟨ch, hc, .inl ⟨by assumption, rfl⟩⟩
    · exact .inr ⟨ch, hc, .inr ⟨by assumption, rfl⟩⟩

/-- `BEGIN`'s step on one handle: nothing, or the configuration of the channel there, by its kind. -/
theorem beginChannel_cases (s : State) (h : Handle) :
    beginChannel s h = s ∨ ∃ ch, s.channel h = some ch ∧ ch.configured = false ∧
      (ch.kind = .listener ∧ beginChannel s h =
          { s.setChannel h { ch with timeAnchor := s.clockNow, configured := true } with
            env := s.envAfterClock, history := s.history ++ [.dir ch.pin .input s.clockNow] } ∨
       ch.kind = .talker ∧ beginChannel s h =
          { s.setChannel h { ch with previousLevel := true, configured := true } with
            env := s.envAfterClock
            history := s.history ++ [.dir ch.pin .output s.clockNow, .write ch.pin true s.clockNow] }) := by
  unfold beginChannel
  split
  · exact .inl rfl
  · rename_i ch hc
    split
    · exact .inl rfl
    · rename_i hconf
      refine .inr ⟨ch, hc, by simpa using hconf, ?_⟩
      cases hk : ch.kind
      · exact .inr ⟨rfl, rfl⟩
      · exact .inl ⟨rfl, rfl⟩

/-- `AWAIT_ALL`'s step on one slot: nothing, or a step of the listener there. -/
theorem awaitListener_cases (s : State) (i : Nat) :
    awaitListener s i = s ∨ ∃ ch, s.channel ⟨.listener, i⟩ = some ch ∧
      awaitListener s i = listenerStep ⟨.listener, i⟩ ch s := by
  unfold awaitListener
  split
  · exact .inl rfl
  · rename_i ch hc
    split
    · exact .inl rfl
    · exact .inr ⟨ch, hc, rfl⟩

theorem stepChannel_evolves (s : State) (h : Handle) : Evolves s (stepChannel s h) := by
  obtain he | ⟨ch, hc, ⟨-, he⟩ | ⟨-, he⟩⟩ := stepChannel_cases s h <;> rw [he]
  · exact .refl s
  · exact listenerStep_evolves hc
  · exact talkerStep_evolves hc

/-- `BEGIN` sets the anchor of a listener and the level of a talker, and marks either as configured (R183). -/
theorem KeepsIdentity.of_configured (ch : Channel) (anchor : Nat) (level : Level) :
    KeepsIdentity ch { ch with timeAnchor := anchor, previousLevel := level, configured := true } :=
  ⟨rfl, rfl, rfl, fun _ => rfl, id⟩

theorem beginChannel_evolves (s : State) (h : Handle) : Evolves s (beginChannel s h) := by
  obtain he | ⟨ch, hc, -, he⟩ := beginChannel_cases s h
  · rw [he]; exact .refl s
  · have hlistener := KeepsIdentity.of_configured ch s.clockNow ch.previousLevel
    have htalker := KeepsIdentity.of_configured ch ch.timeAnchor true
    obtain ⟨-, he⟩ | ⟨-, he⟩ := he <;> rw [he]
    · exact .of_setChannel hc hlistener ⟨rfl, rfl, rfl, rfl⟩
    · exact .of_setChannel hc htalker ⟨rfl, rfl, rfl, rfl⟩

theorem awaitListener_evolves (s : State) (i : Nat) : Evolves s (awaitListener s i) := by
  obtain he | ⟨ch, hc, he⟩ := awaitListener_cases s i <;> rw [he]
  · exact .refl s
  · exact listenerStep_evolves hc

theorem Evolves.foldl {α : Type} {f : State → α → State} (hf : ∀ s a, Evolves s (f s a)) (l : List α) (s : State) :
    Evolves s (l.foldl f s) :=
  foldl_preserves (P := Evolves s) (fun t a ht => ht.trans (hf t a)) l (.refl s)

theorem recieveStep_keepsIdentity (p : Config) (ch : Channel) (now : Nat) (e : Env) (ph : RecievePhase) (ts : Nat) :
    KeepsIdentity ch (recieveStep p ch now e ph ts).1 := by
  unfold recieveStep
  cases ph with
  | avail =>
    simp only
    split
    · exact rxStep_keepsIdentity ..
    · exact ⟨rfl, rfl, rfl, id, id⟩
  | settle =>
    simp only
    split
    · exact ⟨rfl, rfl, rfl, id, id⟩
    · exact .refl ch
  | bytes => exact rxStep_keepsIdentity ..

theorem microStep_evolves {s t : State} (h : microStep s = .next t) : Evolves s t := by
  unfold microStep at h
  split at h
  · exact next_inj h ▸ .refl s
  · rename_i i _
    obtain ⟨ch, hc, h⟩ := awaitMicro_next h
    have hev := listenerStep_evolves (h := ⟨.listener, i⟩) hc
    obtain ⟨-, rfl⟩ | ⟨-, rfl⟩ := h
    · exact hev.trans (.of_sameRegistry ⟨rfl, rfl, rfl, rfl⟩)
    · exact hev
  · have hev := Evolves.foldl awaitListener_evolves (List.range (s.count .listener)) s
    obtain ⟨-, rfl⟩ | ⟨-, rfl⟩ := awaitAllMicro_next h
    · exact hev.trans (.of_sameRegistry ⟨rfl, rfl, rfl, rfl⟩)
    · exact hev
  · rename_i i sched idx t0 _
    obtain ⟨ch, off, lvl, hc, -, h⟩ := tellMicro_next h
    have hc : s.channel ⟨.talker, i⟩ = some ch := hc
    have hk : KeepsIdentity ch { ch with previousLevel := lvl } := ⟨rfl, rfl, rfl, id, id⟩
    obtain ⟨-, rfl⟩ | ⟨-, -, rfl⟩ | ⟨-, -, rfl⟩ := h
    · exact .of_sameRegistry ⟨rfl, rfl, rfl, rfl⟩
    · exact .of_setChannel hc hk ⟨rfl, rfl, rfl, rfl⟩
    · exact .of_setChannel hc hk ⟨rfl, rfl, rfl, rfl⟩
  · rename_i i n ph ts _
    obtain ⟨ch, hc, h⟩ := recieveMicro_next h
    have hc : s.channel ⟨.listener, i⟩ = some ch := hc
    have hk := recieveStep_keepsIdentity s.cfg ch (s.env.now s.cfg).1 (s.env.now s.cfg).2 ph ts
    obtain ⟨-, -, rfl⟩ | ⟨-, rfl⟩ := h
    · exact .of_setChannel hc hk ⟨rfl, rfl, rfl, rfl⟩
    · exact .of_setChannel hc hk ⟨rfl, rfl, rfl, rfl⟩

/-- A command allocates no channel, or it is a LISTEN or TALK that registers one (R23, R24). -/
theorem exec_evolves {i : Instr} {s t : State} (h : exec i s = .next t) :
    Evolves s t ∨
    ∃ k pin baud, (i = .listen pin baud ∧ k = .listener ∨ i = .talk pin baud ∧ k = .talker) ∧
      t = s.registered k pin baud := by
  obtain ⟨-, ⟨c, -, rfl⟩ | ⟨w, -, rfl⟩ | ⟨e, -, rfl, -⟩ | ⟨h, ch, ch', v, hc, rfl, hi⟩ |
    ⟨k, pin, baud, hi, -, -, rfl⟩ | ⟨-, rfl⟩ | ⟨-, -, rfl⟩⟩ := exec_next h
  · exact .inl (.of_sameRegistry ⟨rfl, rfl, rfl, rfl⟩)
  · exact .inl (.of_sameRegistry ⟨rfl, rfl, rfl, rfl⟩)
  · exact .inl (.of_sameRegistry ⟨rfl, rfl, rfl, rfl⟩)
  · have hk : KeepsIdentity ch ch' := by
      obtain ⟨-, -, -, -, rfl⟩ | ⟨-, -, -, -, -, -, -, rfl⟩ | ⟨-, -, -, -, rfl⟩ := hi <;>
        exact ⟨rfl, rfl, rfl, id, id⟩
    exact .inl (.of_setChannel hc hk ⟨rfl, rfl, rfl, rfl⟩)
  · exact .inr ⟨k, pin, baud, hi, rfl⟩
  · exact .inl ((Evolves.foldl beginChannel_evolves s.order s).trans (.of_sameRegistry ⟨rfl, rfl, rfl, rfl⟩))
  · exact .inl ((Evolves.foldl stepChannel_evolves s.order s).trans (.of_sameRegistry ⟨rfl, rfl, rfl, rfl⟩))

theorem exec_keepsChannels {i : Instr} {s t : State} (h : exec i s = .next t) : KeepsChannels s t := by
  obtain he | ⟨k, pin, baud, -, rfl⟩ := exec_evolves h
  · exact he.channels
  · exact keepsChannels_registered s k pin baud

theorem exec_cfg {i : Instr} {s t : State} (h : exec i s = .next t) : t.cfg = s.cfg := by
  obtain he | ⟨k, pin, baud, -, rfl⟩ := exec_evolves h
  · exact he.cfg
  · rfl

theorem step_keepsChannels {s t : State} (hr : s.resetRequest = false) (h : step s = .next t) : KeepsChannels s t := by
  obtain ⟨hr', -⟩ | ⟨-, -, ⟨-, ⟨-, rfl⟩ | ⟨i, rest, -, h⟩ | ⟨w, rest, rfl⟩⟩ | ⟨-, h⟩⟩ := step_next h
  · simp [hr] at hr'
  · exact (Evolves.refl _).channels
  · have hk : KeepsChannels { s with inbox := rest } t := exec_keepsChannels h
    exact hk
  · exact (Evolves.refl s).channels
  · exact (microStep_evolves h).channels

theorem step_cfg {s t : State} (h : step s = .next t) : t.cfg = s.cfg := by
  obtain ⟨-, rfl⟩ | ⟨-, -, ⟨-, ⟨-, rfl⟩ | ⟨i, rest, -, h⟩ | ⟨w, rest, rfl⟩⟩ | ⟨-, h⟩⟩ := step_next h
  · rfl
  · rfl
  · have hcfg : t.cfg = ({ s with inbox := rest } : State).cfg := exec_cfg h
    exact hcfg
  · rfl
  · exact (microStep_evolves h).cfg

/-- Settles O53: short of power-on reset, each of the moves of `step_next` keeps the channels. -/
theorem channelsKeepTheirIdentity : Obligations.ChannelsKeepTheirIdentity := by
  intro s t h ch hr hs hc
  obtain ⟨ch', hc', hk⟩ := step_keepsChannels hr hs h ch hc
  exact ⟨ch', hc', hk.kind, hk.pin, hk.bitPeriodUs, hk.available, hk.configured⟩

/-- Settles O54: commands by `exec_evolves`, micro-steps by `microStep_next`, parameters by `step_cfg`. -/
theorem onlyRegistrationAllocates : Obligations.OnlyRegistrationAllocates := by
  refine ⟨fun i s t h => ⟨exec_cfg h, ?_⟩, fun s t he hr h => ?_, fun s t => step_cfg⟩
  · obtain hev | ⟨k, pin, baud, ⟨hi, rfl⟩ | ⟨hi, rfl⟩, rfl⟩ := exec_evolves h
    · exact .inl ⟨hev.order, hev.count .talker, hev.count .listener⟩
    · exact .inr (.inl ⟨⟨pin, baud, hi⟩, rfl, rfl, List.length_append⟩)
    · exact .inr (.inr ⟨⟨pin, baud, hi⟩, rfl, List.length_append, rfl⟩)
  · obtain ⟨hr', -⟩ | ⟨-, -, ⟨he', -⟩ | ⟨-, h⟩⟩ := step_next h
    · simp [hr] at hr'
    · exact absurd he' he
    · have hev := microStep_evolves h
      exact ⟨hev.cfg, hev.order, hev.count .talker, hev.count .listener⟩

/-! ### What runs when -/

/-- Settles O8: it is `step_eq_exec`. -/
theorem stepRunsTheDecodedCommand : Obligations.StepRunsTheDecodedCommand :=
  fun _ _ _ hs hr hd => step_eq_exec hs hr hd

/-- Settles O9: a command starts only on a ready block (`exec_next`); the step is the micro-step, whose frame is
`microStep_next`. -/
theorem noCommandStartsWhileTheEngineRuns : Obligations.NoCommandStartsWhileTheEngineRuns := by
  intro s he
  refine ⟨fun i t h => he (exec_next h).1.2, fun hr hf => ?_⟩
  have hstep := step_eq_microStep hr hf he
  refine ⟨hstep, fun t ht => ?_⟩
  obtain ⟨-, hinbox, horder, -⟩ := microStep_next he (hstep ▸ ht)
  exact ⟨hinbox, horder⟩

/-- A power-on reset that is asked for is served before all else (R242). -/
theorem step_eq_powerOn {s : State} (hr : s.resetRequest = true) : step s = .next s.powerOn := by
  simp [step, hr]

/-- A ready block with no whole command at its port waits (R70, R220). -/
theorem step_eq_wait {s : State} (hs : s.Ready) (hr : s.resetRequest = false) (hd : decode s.inbox = .incomplete) :
    step s = .next s := by
  simp [step, hr, hs.1, hs.2, fetch, hd]

/-- Settles O15: by `step_eq_powerOn` and `step_eq_wait`; the reset state has an empty port, so it waits too. -/
theorem powerOnLeavesTheEmptyBlock : Obligations.PowerOnLeavesTheEmptyBlock :=
  ⟨⟨rfl, rfl, rfl, rfl, rfl, rfl, step_eq_wait ⟨rfl, rfl⟩ rfl rfl⟩, fun _ hr => step_eq_powerOn hr,
    fun _ hs hr hd => step_eq_wait hs hr hd⟩

end Sys2Proof.Machine
end

section
/-! What every operation on a channel keeps: records stay well formed (R21, R28 to R37), and the line history only grows, by
events on the right pins (R41, R212). -/

namespace Sys2Proof.Machine

/-! ### Well-formed records -/

/-- A record that is well formed for the array of kind `k`. -/
def RecordWf (p : Config) : Kind → Channel → Prop
  | .talker, ch => TalkerWf p ch
  | .listener, ch => ListenerWf p ch

theorem RecordWf.kind {p : Config} {k : Kind} {ch : Channel} (h : RecordWf p k ch) : ch.kind = k := by
  cases k
  · obtain ⟨⟨hk, -⟩, -⟩ := h; exact hk
  · obtain ⟨⟨hk, -⟩, -⟩ := h; exact hk

/-- No bit period is longer than a second (R102). -/
theorem bitPeriod_le (baud : Word) : (bitPeriod baud).toNat ≤ 1000000 := by
  have : 1000000 / baud.toNat ≤ 1000000 := Nat.div_le_self ..
  simp only [bitPeriod, BitVec.toNat_ofNat]
  exact (Nat.mod_le ..).trans this

theorem Fifo.empty_wf (c : Nat) : (Fifo.empty c).Wf c :=
  ⟨List.length_replicate, Nat.le_refl _, Nat.zero_le _⟩

theorem Fifo.clear_wf {c : Nat} {f : Fifo} (h : f.Wf c) : f.clear.Wf c := ⟨h.1, Nat.zero_le _, Nat.zero_le _⟩

theorem newChannel_recordWf (p : Config) (k : Kind) (pin : Byte) (baud : Word) :
    RecordWf p k (newChannel p k pin baud) := by
  have hw : (newChannel p k pin baud).Wf p k :=
    ⟨rfl, Nat.two_pow_pos _, bitPeriod_le baud, Fifo.empty_wf _, by simp [newChannel], fun _ => rfl, fun _ => ⟨rfl, rfl⟩⟩
  cases k
  · exact ⟨hw, rfl, by simp [newChannel], by simp [newChannel], fun _ => rfl⟩
  · exact ⟨hw, fun _ => rfl, by simp [newChannel], by simp [newChannel]⟩

/-- RESET leaves the FIFO and the sticky flags, and everything else it leaves is 0 (R120). -/
theorem reset_recordWf {p : Config} {k : Kind} {ch : Channel} (h : RecordWf p k ch) : RecordWf p k ch.reset := by
  cases k
  · obtain ⟨⟨hk, -, hT, hb, -⟩, hav, -⟩ := h
    exact ⟨⟨hk, Nat.two_pow_pos _, hT, hb, by simp [Channel.reset], fun _ => rfl, fun _ => ⟨rfl, hav⟩⟩, hav,
      by simp [Channel.reset], by simp [Channel.reset], fun _ => rfl⟩
  · obtain ⟨⟨hk, -, hT, hb, -, -, hcf⟩, -⟩ := h
    exact ⟨⟨hk, Nat.two_pow_pos _, hT, hb, by simp [Channel.reset], fun _ => rfl, fun hc => ⟨rfl, (hcf hc).2⟩⟩,
      fun _ => rfl, by simp [Channel.reset], by simp [Channel.reset]⟩

/-- READ takes the oldest byte off a listener's FIFO (R139). -/
theorem read_recordWf {p : Config} {ch : Channel} (h : RecordWf p .listener ch) (hs : 0 < ch.buf.size) :
    RecordWf p .listener { ch with buf := { ch.buf with start := ch.buf.start + 1 } } := by
  obtain ⟨⟨hk, ht, hT, hb, ham, hbd, hcf⟩, hl⟩ := h
  exact ⟨⟨hk, ht, hT, Fifo.wf_advance hb hs, ham, hbd, hcf⟩, hl⟩

/-- Bytes that SEND appends leave the byte at the head, which a running talker has latched (R34, R167). -/
theorem send_recordWf {p : Config} (hp : p.Legal) {ch : Channel} {bytes : List Byte} {buf' : Fifo}
    (h : RecordWf p .talker ch) (hs : ch.buf.size + bytes.length ≤ p.bufferMaxSize)
    (hpush : ch.buf.pushAll p.bufferMaxSize bytes = some buf') : RecordWf p .talker { ch with buf := buf' } := by
  obtain ⟨⟨hk, ht, hT, hb, ham, hbd, hcf⟩, hav, h8, hlat, hz⟩ := h
  obtain ⟨f, hf, hw, -, -, hcont⟩ := Fifo.pushAll_spec hp.2.2.1 bytes hb hs
  cases hf.symm.trans hpush
  refine ⟨⟨hk, ht, hT, hw, ham, hbd, hcf⟩, hav, h8, fun hm => ?_, hz⟩
  obtain ⟨-, bs, hbs⟩ := Fifo.peek_eq_some (hlat hm)
  rw [hbs, List.cons_append] at hcont
  exact (Fifo.pop_spec hcont).1

/-- BEGIN configures a listener: its anchor is a clock value (R183). -/
theorem begin_listenerWf {p : Config} {ch : Channel} {now : Nat} (hn : now < p.modulus) (h : ListenerWf p ch) :
    ListenerWf p { ch with timeAnchor := now, configured := true } := by
  obtain ⟨⟨hk, -, hT, hb, ham, hbd, -⟩, hl⟩ := h
  exact ⟨⟨hk, hn, hT, hb, ham, hbd, by simp⟩, hl⟩

/-- BEGIN configures a talker: its line idles high (R183). -/
theorem begin_talkerWf {p : Config} {ch : Channel} (h : TalkerWf p ch) :
    TalkerWf p { ch with previousLevel := true, configured := true } := by
  obtain ⟨⟨hk, ht, hT, hb, ham, hbd, -⟩, hl⟩ := h
  exact ⟨⟨hk, ht, hT, hb, ham, hbd, by simp⟩, hl⟩

/-- The parameters are legal and every channel's record is well formed. -/
structure State.RecordsWf (s : State) : Prop where
  legal : s.cfg.Legal
  record : ∀ h ch, s.channel h = some ch → RecordWf s.cfg h.kind ch

theorem State.recordsWf_iff {s : State} : s.RecordsWf ↔
    s.cfg.Legal ∧ (∀ ch ∈ s.talkers, TalkerWf s.cfg ch) ∧ (∀ ch ∈ s.listeners, ListenerWf s.cfg ch) := by
  constructor
  · rintro ⟨hl, hr⟩
    refine ⟨hl, fun ch hc => ?_, fun ch hc => ?_⟩ <;> obtain ⟨i, hi⟩ := List.mem_iff_getElem?.mp hc
    · exact hr ⟨.talker, i⟩ ch hi
    · exact hr ⟨.listener, i⟩ ch hi
  · rintro ⟨hl, ht, hls⟩
    refine ⟨hl, fun ⟨k, i⟩ ch hc => ?_⟩
    cases k
    · exact ht ch (List.mem_of_getElem? hc)
    · exact hls ch (List.mem_of_getElem? hc)

theorem State.RecordsWf.of_sameRegistry {s t : State} (hw : s.RecordsWf) (hst : SameRegistry s t) : t.RecordsWf where
  legal := hst.cfg ▸ hw.legal
  record h ch hc := hst.cfg ▸ hw.record h ch ((hst.channel h).symm.trans hc)

theorem State.RecordsWf.setChannel {s : State} (hw : s.RecordsWf) {h : Handle} {ch ch' : Channel}
    (hc : s.channel h = some ch) (hr : RecordWf s.cfg h.kind ch') : (s.setChannel h ch').RecordsWf where
  legal := hw.legal
  record h' c hc' := by
    by_cases hh : h' = h
    · subst hh
      cases (State.channel_setChannel_self hc).symm.trans hc'
      exact hr
    · exact hw.record h' c ((State.channel_setChannel_ne hh).symm.trans hc')

/-! ### The line history -/

/-- A line event that a step from `s` may issue: a write on a talker's pin, or a direction for a channel not yet configured,
with a clock value of `CLK_W` bits (R41, R212). -/
inductive EventAllowed (s : State) : LineEvent → Prop
  | write {i : Nat} {ch : Channel} {level : Level} {now : Nat} (hc : s.channel ⟨.talker, i⟩ = some ch)
      (hn : now < s.cfg.modulus) : EventAllowed s (.write ch.pin level now)
  | input {i : Nat} {ch : Channel} {now : Nat} (hc : s.channel ⟨.listener, i⟩ = some ch) (hconf : ch.configured = false)
      (hn : now < s.cfg.modulus) : EventAllowed s (.dir ch.pin .input now)
  | output {i : Nat} {ch : Channel} {now : Nat} (hc : s.channel ⟨.talker, i⟩ = some ch) (hconf : ch.configured = false)
      (hn : now < s.cfg.modulus) : EventAllowed s (.dir ch.pin .output now)

theorem KeepsIdentity.unconfigured {ch ch' : Channel} (hk : KeepsIdentity ch ch') (h : ch'.configured = false) :
    ch.configured = false := by
  cases hc : ch.configured
  · rfl
  · rw [hk.configured hc] at h; cases h

/-- What is allowed later in a pass over the channels was allowed at its start. -/
theorem EventAllowed.of_evolves {s t : State} (hst : Evolves s t) {e : LineEvent} (h : EventAllowed t e) :
    EventAllowed s e := by
  cases h with
  | write hc hn =>
    obtain ⟨ch, hs, hk⟩ := hst.channel_origin hc
    exact hk.pin ▸ .write hs (hst.cfg ▸ hn)
  | input hc hconf hn =>
    obtain ⟨ch, hs, hk⟩ := hst.channel_origin hc
    exact hk.pin ▸ .input hs (hk.unconfigured hconf) (hst.cfg ▸ hn)
  | output hc hconf hn =>
    obtain ⟨ch, hs, hk⟩ := hst.channel_origin hc
    exact hk.pin ▸ .output hs (hk.unconfigured hconf) (hst.cfg ▸ hn)

/-- The history of `t` is that of `s` and then events that `s` allows. -/
def HistoryGrows (s t : State) : Prop :=
  ∃ es, t.history = s.history ++ es ∧ ∀ e ∈ es, EventAllowed s e

theorem HistoryGrows.of_eq {s t : State} (h : t.history = s.history) : HistoryGrows s t := ⟨[], by simp [h], by simp⟩

theorem HistoryGrows.trans {s t u : State} (hst : HistoryGrows s t) (hev : Evolves s t) (htu : HistoryGrows t u) :
    HistoryGrows s u := by
  obtain ⟨es, hes, hall⟩ := hst
  obtain ⟨es', hes', hall'⟩ := htu
  refine ⟨es ++ es', by rw [hes', hes, List.append_assoc], fun e he => ?_⟩
  obtain he | he := List.mem_append.mp he
  · exact hall e he
  · exact (hall' e he).of_evolves hev

/-! ### Sound moves -/

/-- A move from `s` to `t` that keeps the channels' identity, lets the history grow as allowed, and ends in well-formed
records. -/
structure Sound (s t : State) : Prop where
  evolves : Evolves s t
  history : HistoryGrows s t
  recordsWf : t.RecordsWf

theorem Sound.trans {s t u : State} (hst : Sound s t) (htu : Sound t u) : Sound s u :=
  ⟨hst.evolves.trans htu.evolves, hst.history.trans hst.evolves htu.history, htu.recordsWf⟩

/-- Nothing of the registry and the history changes. -/
theorem Sound.of_sameRegistry {s t : State} (hw : s.RecordsWf) (hst : SameRegistry s t)
    (hh : t.history = s.history) : Sound s t :=
  ⟨.of_sameRegistry hst, .of_eq hh, hw.of_sameRegistry hst⟩

theorem Sound.refl {s : State} (hw : s.RecordsWf) : Sound s s := .of_sameRegistry hw ⟨rfl, rfl, rfl, rfl⟩ rfl

/-- One channel's record is written, and the history grows as allowed. -/
theorem Sound.of_setChannel {s t : State} {h : Handle} {ch ch' : Channel} (hw : s.RecordsWf)
    (hc : s.channel h = some ch) (hk : KeepsIdentity ch ch') (hr : RecordWf s.cfg h.kind ch')
    (ht : SameRegistry (s.setChannel h ch') t) (hh : HistoryGrows s t) : Sound s t :=
  ⟨.of_setChannel hc hk ht, hh, (hw.setChannel hc hr).of_sameRegistry ht⟩

theorem listenerStep_sound {s : State} (hw : s.RecordsWf) {i : Nat} {ch : Channel}
    (hc : s.channel ⟨.listener, i⟩ = some ch) (hconf : ch.configured = true) :
    Sound s (listenerStep ⟨.listener, i⟩ ch s) :=
  .of_setChannel hw hc (rxStep_keepsIdentity ..)
    (rxStep_wf hw.legal (Env.now_lt ..) _ hconf (hw.record _ _ hc)) ⟨rfl, rfl, rfl, rfl⟩ (.of_eq rfl)

theorem talkerStep_sound {s : State} (hw : s.RecordsWf) {i : Nat} {ch : Channel}
    (hc : s.channel ⟨.talker, i⟩ = some ch) (hconf : ch.configured = true) :
    Sound s (talkerStep ⟨.talker, i⟩ ch s) := by
  have hn := Env.now_lt s.cfg s.env
  refine .of_setChannel hw hc (txStep_keepsIdentity ..) (txStep_wf hn hconf (hw.record _ _ hc)) ⟨rfl, rfl, rfl, rfl⟩
    ⟨_, rfl, fun e he => ?_⟩
  obtain hes | ⟨level, hes⟩ := txStep_events s.cfg ch (s.env.now s.cfg).1
  · simp [hes] at he
  · rw [hes, List.mem_singleton] at he
    exact he ▸ .write hc hn

/-- Every channel of the kinds `ks` is configured. -/
def State.Configured (ks : List Kind) (s : State) : Prop :=
  ∀ h ch, h.kind ∈ ks → s.channel h = some ch → ch.configured = true

theorem State.Configured.of_evolves {ks : List Kind} {s t : State} (hst : Evolves s t) (h : s.Configured ks) :
    t.Configured ks := fun hd _ hm hc =>
  have ⟨ch, hs, hk⟩ := hst.channel_origin hc
  hk.configured (h hd ch hm hs)

/-- A TICK that is not refused finds every channel configured, since `order` names them all (R184). -/
theorem configured_of_allConfigured {s : State} (ho : s.OrderWf) (h : s.allConfigured = true) :
    s.Configured [.talker, .listener] := by
  intro hd ch _ hc
  have := List.all_eq_true.mp h hd (mem_order_of_channel ho hc)
  simpa [State.isConfigured, hc] using this

theorem listenersConfigured_iff {s : State} : s.listenersConfigured = true ↔ s.Configured [.listener] := by
  unfold State.listenersConfigured
  rw [List.all_eq_true]
  constructor
  · rintro h ⟨k, i⟩ ch hk hc
    cases List.mem_singleton.mp hk
    exact h ch (List.mem_of_getElem? hc)
  · intro h ch hm
    obtain ⟨i, hi⟩ := List.mem_iff_getElem?.mp hm
    exact h ⟨.listener, i⟩ ch (by simp) hi

theorem stepChannel_sound {s : State} (hw : s.RecordsWf) (hconf : s.Configured [.talker, .listener]) (h : Handle) :
    Sound s (stepChannel s h) := by
  obtain ⟨k, i⟩ := h
  obtain he | ⟨ch, hc, hkind⟩ := stepChannel_cases s ⟨k, i⟩
  · rw [he]; exact .refl hw
  have hk : ch.kind = k := (hw.record _ _ hc).kind
  have hcf : ch.configured = true := hconf _ ch (by cases k <;> simp) hc
  obtain ⟨hl, he⟩ | ⟨ht, he⟩ := hkind <;> rw [he] <;> subst hk
  · rw [hl] at hc ⊢; exact listenerStep_sound hw hc hcf
  · rw [ht] at hc ⊢; exact talkerStep_sound hw hc hcf

theorem awaitListener_sound {s : State} (hw : s.RecordsWf) (hconf : s.Configured [.listener]) (i : Nat) :
    Sound s (awaitListener s i) := by
  obtain he | ⟨ch, hc, he⟩ := awaitListener_cases s i <;> rw [he]
  · exact .refl hw
  · exact listenerStep_sound hw hc (hconf _ ch (by simp) hc)

theorem beginChannel_sound {s : State} (hw : s.RecordsWf) (h : Handle) : Sound s (beginChannel s h) := by
  obtain ⟨k, i⟩ := h
  have hn : s.clockNow < s.cfg.modulus := Env.now_lt s.cfg s.env
  obtain he | ⟨ch, hc, hcf, hkind⟩ := beginChannel_cases s ⟨k, i⟩
  · rw [he]; exact .refl hw
  have hr := hw.record _ _ hc
  have hk : ch.kind = k := hr.kind
  obtain ⟨hl, he⟩ | ⟨ht, he⟩ := hkind <;> rw [he]
  · obtain rfl := hk.symm.trans hl
    have hid := KeepsIdentity.of_configured ch s.clockNow ch.previousLevel
    exact .of_setChannel hw hc hid (begin_listenerWf hn hr) ⟨rfl, rfl, rfl, rfl⟩
      ⟨_, rfl, fun e he => List.mem_singleton.mp he ▸ .input hc hcf hn⟩
  · obtain rfl := hk.symm.trans ht
    have hid := KeepsIdentity.of_configured ch ch.timeAnchor true
    refine .of_setChannel hw hc hid (begin_talkerWf hr) ⟨rfl, rfl, rfl, rfl⟩ ⟨_, rfl, fun e he => ?_⟩
    obtain rfl | rfl : e = .dir ch.pin .output s.clockNow ∨ e = .write ch.pin true s.clockNow := by simpa using he
    · exact .output hc hcf hn
    · exact .write hc hn

/-- A pass of sound steps is sound; what they need of the configured channels holds all along. -/
theorem Sound.foldl {α : Type} {ks : List Kind} {f : State → α → State}
    (hf : ∀ s a, s.RecordsWf → s.Configured ks → Sound s (f s a)) (l : List α) {s : State} (hw : s.RecordsWf)
    (hconf : s.Configured ks) : Sound s (l.foldl f s) :=
  foldl_preserves (P := Sound s)
    (fun t a ht => ht.trans (hf t a ht.recordsWf (hconf.of_evolves ht.evolves))) l (.refl hw)

end Sys2Proof.Machine
end

section
/-! The invariant of every reachable state: a command that starts and a micro-step leave an engine record that fits its
channel (R40, R141 to R144, R170, R186), and with the sound moves on channels every step keeps the invariant. -/

namespace Sys2Proof.Machine

/-! ### The channel of a RECIEVE -/

theorem rxAction_size_le (p : Config) (ch : Channel) (now : Nat) (lvl : Level) :
    (rxAction p ch now lvl).buf.size ≤ ch.buf.size + 1 := by
  have hpush : ∀ b, ((ch.buf.push p.bufferMaxSize b).getD ch.buf).size ≤ ch.buf.size + 1 := by
    intro b
    unfold Fifo.push
    split
    · exact Nat.le_succ _
    · simp only [Option.getD_some, Fifo.size]; omega
  unfold rxAction
  split
  · unfold unavailableStep
    dsimp only
    repeat' split
    all_goals exact Nat.le_succ _
  · unfold samplingStep byteComplete
    dsimp only [Channel.reset, Channel.advanceAnchor]
    repeat' split
    · exact hpush _
    · exact Nat.le_succ _
    · exact Nat.le_succ _
  · unfold confirmStep
    dsimp only
    split <;> exact Nat.le_succ _
  · unfold huntStep
    dsimp only
    repeat' split
    all_goals exact Nat.le_succ _

/-- A listener's step adds at most one byte to its FIFO (R136, R137). -/
theorem rxStep_size_le (p : Config) (ch : Channel) (now : Nat) (e : Env) :
    (rxStep p ch now e).1.buf.size ≤ ch.buf.size + 1 := by
  obtain h | h := rxStep_cases p ch now e <;> rw [h]
  · exact rxAction_size_le ..
  · exact Nat.le_succ _

/-- The availability handshake detects no activation (R133). -/
theorem rxStep_midActivated_of_unavailable {p : Config} {ch : Channel} (ha : ch.available = false) (now : Nat) (e : Env) :
    (rxStep p ch now e).1.midActivated = ch.midActivated := by
  obtain h | h := rxStep_cases p ch now e <;> rw [h]
  have hph : ch.rxPhase = .unavailable := by simp [Channel.rxPhase, ha]
  simp only [rxAction, hph, unavailableStep]
  split
  · rfl
  · split <;> rfl

/-- A micro-step of RECIEVE keeps its listener well formed, its time a clock value, and what its phase says of the channel,
unless it completes the command (R143, R144). -/
theorem recieveStep_wf {p : Config} (hp : p.Legal) {ch : Channel} {now n ts : Nat} {ph : RecievePhase} (e : Env)
    (hn : now < p.modulus) (hts : ts < p.modulus) (hw : ListenerWf p ch) (hr : recieveChannelWf n ph ch = true) :
    let r := recieveStep p ch now e ph ts
    ListenerWf p r.1 ∧ r.2.2.2 < p.modulus ∧
      (¬(r.2.2.1 = .bytes ∧ r.1.buf.size = n) → recieveChannelWf n r.2.2.1 r.1 = true) := by
  unfold recieveChannelWf at hr
  obtain ⟨hconf, hph⟩ := Bool.and_eq_true_iff.mp hr
  have hrx := rxStep_wf hp hn e hconf hw
  obtain ⟨⟨hk, ht, hT, hb, ham, hbd, hcf⟩, hl⟩ := id hw
  cases ph with
  | avail =>
    have hm : ch.midActivated = false := by simpa using hph
    unfold recieveStep
    dsimp only
    split
    · rename_i ha
      exact ⟨hrx, hts, fun _ => by simp [recieveChannelWf, hconf, rxStep_midActivated_of_unavailable ha, hm]⟩
    · rename_i ha
      exact ⟨⟨⟨hk, ht, hT, Fifo.clear_wf hb, ham, hbd, hcf⟩, hl⟩, hn,
        fun _ => by simpa [recieveChannelWf, hconf, hm, Fifo.clear, Fifo.size] using ha⟩
  | settle =>
    obtain ⟨⟨ha, hm⟩, hs⟩ : (ch.available = true ∧ ch.midActivated = false) ∧ ch.buf.size = 0 := by simpa using hph
    unfold recieveStep
    dsimp only
    split
    · refine ⟨⟨⟨hk, hn, hT, hb, ham, hbd, hcf⟩, hl⟩, hts, fun hnot => ?_⟩
      have hpos : 0 < n := Nat.pos_of_ne_zero fun h0 => hnot ⟨rfl, hs.trans h0.symm⟩
      simp [recieveChannelWf, hconf, ha, hs, hpos]
    · exact ⟨hw, hts, fun _ => hr⟩
  | bytes =>
    obtain ⟨ha, hs⟩ : ch.available = true ∧ ch.buf.size < n := by simpa using hph
    refine ⟨hrx, hts, fun hnot => ?_⟩
    have hav := (rxStep_keepsIdentity p ch now e).available ha
    have hle := rxStep_size_le p ch now e
    have hne : (rxStep p ch now e).1.buf.size ≠ n := fun h => hnot ⟨rfl, h⟩
    have hlt : (rxStep p ch now e).1.buf.size < n := by omega
    simp [recieveStep, recieveChannelWf, hconf, hav, hlt]

/-! ### When the engine record fits, by the command it holds -/

theorem engineWf_of_idle {s : State} (h : s.engine = .idle) : s.engineWf = true := by simp [State.engineWf, h]

theorem engineWf_of_await {s : State} {i : Nat} (h : s.engine = .await i) :
    s.engineWf = true ↔ ∃ ch, s.channel ⟨.listener, i⟩ = some ch ∧ ch.configured = true ∧ ch.available = false := by
  simp [State.engineWf, h, Option.any_eq_true]

theorem engineWf_of_awaitAll {s : State} (h : s.engine = .awaitAll) :
    s.engineWf = true ↔ s.listenersConfigured = true ∧ s.listenersAvailable = false := by
  simp [State.engineWf, h]

theorem engineWf_of_tell {s : State} {i idx : Nat} {sched : List (Nat × Level)} {t0 : Option Nat}
    (h : s.engine = .tell i sched idx t0) :
    s.engineWf = true ↔ idx < sched.length ∧ (∀ t, t0 = some t → t < s.cfg.modulus) ∧
      ∃ ch, s.channel ⟨.talker, i⟩ = some ch ∧ ch.configured = true ∧ ch.atRest = true := by
  simp [State.engineWf, h, Option.any_eq_true, Option.all_eq_true, and_assoc]

theorem engineWf_of_recieve {s : State} {i n ts : Nat} {ph : RecievePhase} (h : s.engine = .recieve i n ph ts) :
    s.engineWf = true ↔ n ≤ s.cfg.bufferMaxSize ∧ ts < s.cfg.modulus ∧
      ∃ ch, s.channel ⟨.listener, i⟩ = some ch ∧ recieveChannelWf n ph ch = true := by
  simp [State.engineWf, h, Option.any_eq_true, and_assoc]

theorem tellSchedule_length_pos (o : BitOrder) (t : Nat) (bytes : List Byte) : 0 < (tellSchedule o t bytes).length := by
  cases bytes <;> simp [tellSchedule, scheduleFrom, byteSchedule]

theorem recordsWf_of_inv {s : State} (hinv : s.Inv) : s.RecordsWf := by
  obtain ⟨hlegal, -, -, htal, hlis, -⟩ := hinv
  exact State.recordsWf_iff.mpr ⟨hlegal, htal, hlis⟩

/-! ### Micro-steps -/

theorem awaitMicro_sound {i : Nat} {s t : State} (hw : s.RecordsWf) (he : s.engine = .await i) (hwf : s.engineWf = true)
    (h : awaitMicro i s = .next t) : Sound s t ∧ t.engineWf = true := by
  obtain ⟨ch, hc, hconf, -⟩ := (engineWf_of_await he).mp hwf
  obtain ⟨c, hc', h⟩ := awaitMicro_next h
  cases hc.symm.trans hc'
  have hs := listenerStep_sound hw hc hconf
  obtain ⟨-, rfl⟩ | ⟨ha, rfl⟩ := h
  · exact ⟨hs.trans (.of_sameRegistry hs.recordsWf ⟨rfl, rfl, rfl, rfl⟩ rfl), rfl⟩
  · have hch := listenerStep_channel (ch := ch) hc
    rw [hch, Option.any_some] at ha
    exact ⟨hs, (engineWf_of_await (s := listenerStep _ ch s) he).mpr ⟨_, hch, by rw [rxStep_configured, hconf], ha⟩⟩

theorem awaitAllMicro_sound {s t : State} (hw : s.RecordsWf) (he : s.engine = .awaitAll) (hwf : s.engineWf = true)
    (h : awaitAllMicro s = .next t) : Sound s t ∧ t.engineWf = true := by
  obtain ⟨hconf, -⟩ := (engineWf_of_awaitAll he).mp hwf
  rw [listenersConfigured_iff] at hconf
  have hs := Sound.foldl (fun _ i hw hc => awaitListener_sound hw hc i) (List.range (s.count .listener)) hw hconf
  have hf := ChannelFrame.foldl ChannelFrame.awaitListener (List.range (s.count .listener)) s
  obtain ⟨-, rfl⟩ | ⟨ha, rfl⟩ := awaitAllMicro_next h
  · exact ⟨hs.trans (.of_sameRegistry hs.recordsWf ⟨rfl, rfl, rfl, rfl⟩ rfl), rfl⟩
  · exact ⟨hs, (engineWf_of_awaitAll (hf.engine.trans he)).mpr
      ⟨listenersConfigured_iff.mpr (hconf.of_evolves hs.evolves), ha⟩⟩

theorem tellMicro_sound {i idx : Nat} {sched : List (Nat × Level)} {t0 : Option Nat} {s t : State} (hw : s.RecordsWf)
    (he : s.engine = .tell i sched idx t0) (hwf : s.engineWf = true) (h : tellMicro i sched idx t0 s = .next t) :
    Sound s t ∧ t.engineWf = true := by
  obtain ⟨hidx, ht0, ch, hc, hconf, hrest⟩ := (engineWf_of_tell he).mp hwf
  obtain ⟨c, off, lvl, hc', -, h⟩ := tellMicro_next h
  cases hc.symm.trans hc'
  have hn := Env.now_lt s.cfg s.env
  have horigin : ∀ t, some (t0.getD (s.env.now s.cfg).1) = some t → t < s.cfg.modulus := by
    rintro _ ⟨⟩
    cases t0 with
    | none => exact hn
    | some t => exact ht0 t rfl
  have hk : KeepsIdentity ch { ch with previousLevel := lvl } := ⟨rfl, rfl, rfl, id, id⟩
  have hr : RecordWf s.cfg .talker { ch with previousLevel := lvl } := hw.record _ _ hc
  have hevent : ∀ e ∈ [LineEvent.write ch.pin lvl (s.env.now s.cfg).1], EventAllowed s e := fun e he =>
    List.mem_singleton.mp he ▸ .write hc hn
  obtain ⟨-, rfl⟩ | ⟨-, -, rfl⟩ | ⟨-, hne, rfl⟩ := h
  · exact ⟨.of_sameRegistry hw ⟨rfl, rfl, rfl, rfl⟩ rfl,
      (engineWf_of_tell rfl).mpr ⟨hidx, horigin, ch, hc, hconf, hrest⟩⟩
  · exact ⟨.of_setChannel hw hc hk hr ⟨rfl, rfl, rfl, rfl⟩ ⟨_, rfl, hevent⟩, rfl⟩
  · exact ⟨.of_setChannel hw hc hk hr ⟨rfl, rfl, rfl, rfl⟩ ⟨_, rfl, hevent⟩,
      (engineWf_of_tell rfl).mpr ⟨by omega, horigin, _, State.channel_setChannel_self hc, hconf, hrest⟩⟩

theorem recieveMicro_sound {i n ts : Nat} {ph : RecievePhase} {s t : State} (hw : s.RecordsWf)
    (he : s.engine = .recieve i n ph ts) (hwf : s.engineWf = true) (h : recieveMicro i n ph ts s = .next t) :
    Sound s t ∧ t.engineWf = true := by
  obtain ⟨hlen, hts, ch, hc, hph⟩ := (engineWf_of_recieve he).mp hwf
  obtain ⟨c, hc', h⟩ := recieveMicro_next h
  cases hc.symm.trans hc'
  have hn := Env.now_lt s.cfg s.env
  obtain ⟨hr, hts', hph'⟩ := recieveStep_wf hw.legal (s.env.now s.cfg).2 hn hts (hw.record _ _ hc) hph
  have hk := recieveStep_keepsIdentity s.cfg ch (s.env.now s.cfg).1 (s.env.now s.cfg).2 ph ts
  obtain ⟨-, -, rfl⟩ | ⟨hnot, rfl⟩ := h
  · exact ⟨.of_setChannel hw hc hk hr ⟨rfl, rfl, rfl, rfl⟩ (.of_eq rfl), rfl⟩
  · exact ⟨.of_setChannel hw hc hk hr ⟨rfl, rfl, rfl, rfl⟩ (.of_eq rfl),
      (engineWf_of_recieve rfl).mpr ⟨hlen, hts', _, State.channel_setChannel_self hc, hph' hnot⟩⟩

theorem microStep_sound {s t : State} (hw : s.RecordsWf) (hwf : s.engineWf = true) (h : microStep s = .next t) :
    Sound s t ∧ t.engineWf = true := by
  unfold microStep at h
  cases he : s.engine with
  | idle => rw [he] at h; cases h; exact ⟨.refl hw, hwf⟩
  | await i => rw [he] at h; exact awaitMicro_sound hw he hwf h
  | awaitAll => rw [he] at h; exact awaitAllMicro_sound hw he hwf h
  | tell i sched idx t0 => rw [he] at h; exact tellMicro_sound hw he hwf h
  | recieve i n ph ts => rw [he] at h; exact recieveMicro_sound hw he hwf h

/-! ### Commands -/

/-- From a state that meets the invariant, a command is a sound move and leaves an engine record that fits, or it registers
a channel. -/
theorem exec_sound {i : Instr} {s t : State} (hinv : s.Inv) (h : exec i s = .next t) :
    (Sound s t ∧ t.engineWf = true ∧ (t.fault = none ∨ t.engine = .idle)) ∨
    ∃ k pin baud, s.count k ≠ maxChannels s.cfg k ∧ t = s.registered k pin baud := by
  have hw := recordsWf_of_inv hinv
  obtain ⟨-, -, -, -, -, horder, -⟩ := hinv
  obtain ⟨⟨hf, he⟩, ⟨c, -, rfl⟩ | ⟨w, -, rfl⟩ | ⟨e, -, rfl, hstart⟩ | ⟨hd, ch, ch', v, hc, rfl, hi⟩ |
    ⟨k, pin, baud, -, hcap, -, rfl⟩ | ⟨-, rfl⟩ | ⟨-, hall, rfl⟩⟩ := exec_next h
  · exact .inl ⟨.of_sameRegistry hw ⟨rfl, rfl, rfl, rfl⟩ rfl, engineWf_of_idle he, .inr he⟩
  · exact .inl ⟨.of_sameRegistry hw ⟨rfl, rfl, rfl, rfl⟩ rfl, engineWf_of_idle he, .inr he⟩
  · refine .inl ⟨.of_sameRegistry hw ⟨rfl, rfl, rfl, rfl⟩ rfl, ?_, .inl hf⟩
    obtain ⟨-, rfl, hconf, hav⟩ | ⟨a, bytes, ch, -, hc, rfl, hconf, hm, ha, hs⟩ |
      ⟨a, n, ch, -, hc, rfl, hn, hconf, hm, ha⟩ | ⟨a, ch, -, hc, rfl, hconf, hav⟩ := hstart
    · exact (engineWf_of_awaitAll rfl).mpr ⟨hconf, hav⟩
    · have hk : ch.kind = .talker := (hw.record ⟨.talker, a.toNat⟩ ch hc).kind
      exact (engineWf_of_tell rfl).mpr ⟨tellSchedule_length_pos .., by simp, ch, hc, hconf,
        by simp [Channel.atRest, hk, hm, ha, hs]⟩
    · exact (engineWf_of_recieve rfl).mpr ⟨hn, Nat.two_pow_pos _, ch, hc, by simp [recieveChannelWf, hconf, hm]⟩
    · exact (engineWf_of_await rfl).mpr ⟨ch, hc, hconf, hav⟩
  · have hr := hw.record hd ch hc
    have hkr : KeepsIdentity ch ch' ∧ RecordWf s.cfg hd.kind ch' := by
      obtain ⟨a, -, rfl, hs, rfl⟩ | ⟨a, bytes, buf', -, rfl, hs, hpush, rfl⟩ | ⟨k, a, -, rfl, rfl⟩ := hi
      · exact ⟨⟨rfl, rfl, rfl, id, id⟩, read_recordWf hr hs⟩
      · exact ⟨⟨rfl, rfl, rfl, id, id⟩, send_recordWf hw.legal hr hs hpush⟩
      · exact ⟨⟨rfl, rfl, rfl, id, id⟩, reset_recordWf hr⟩
    exact .inl ⟨.of_setChannel hw hc hkr.1 hkr.2 ⟨rfl, rfl, rfl, rfl⟩ (.of_eq rfl), engineWf_of_idle he, .inr he⟩
  · exact .inr ⟨k, pin, baud, hcap, rfl⟩
  · have hs := Sound.foldl (ks := []) (fun _ h hw _ => beginChannel_sound hw h) s.order hw (by simp [State.Configured])
    have hidle := (ChannelFrame.foldl ChannelFrame.beginChannel s.order s).engine.trans he
    exact .inl ⟨hs.trans (.of_sameRegistry hs.recordsWf ⟨rfl, rfl, rfl, rfl⟩ rfl), engineWf_of_idle hidle, .inr hidle⟩
  · have hs := Sound.foldl (fun _ h hw hc => stepChannel_sound hw hc h) s.order hw
      (configured_of_allConfigured horder hall)
    have hidle := (ChannelFrame.foldl ChannelFrame.stepChannel s.order s).engine.trans he
    exact .inl ⟨hs.trans (.of_sameRegistry hs.recordsWf ⟨rfl, rfl, rfl, rfl⟩ rfl), engineWf_of_idle hidle, .inr hidle⟩

/-! ### The invariant -/

/-- The empty block meets the invariant, whatever its legal parameters. -/
theorem powerOn_inv {s : State} (h : s.cfg.Legal) : s.powerOn.Inv :=
  ⟨h, Nat.zero_le _, Nat.zero_le _, by simp, by simp, ⟨rfl, rfl⟩, rfl, by simp, by simp⟩

theorem defaultConfig_legal : defaultConfig.Legal := by decide

/-- A pin that some talker drives is still driven by one. -/
theorem KeepsChannels.talkerPin {s t : State} (h : KeepsChannels s t) {pin : Byte}
    (hp : s.talkers.any (·.pin == pin) = true) : t.talkers.any (·.pin == pin) = true := by
  obtain ⟨ch, hm, hpin⟩ := List.any_eq_true.mp hp
  obtain ⟨i, hi⟩ := List.mem_iff_getElem?.mp hm
  obtain ⟨ch', hc, hk⟩ := h ⟨.talker, i⟩ ch hi
  exact List.any_eq_true.mpr ⟨ch', List.mem_of_getElem? hc, hk.pin ▸ hpin⟩

theorem EventAllowed.time_lt {s : State} {e : LineEvent} (h : EventAllowed s e) : e.time < s.cfg.modulus := by
  cases h <;> assumption

theorem EventAllowed.drivenPin {s : State} {e : LineEvent} (h : EventAllowed s e) :
    e.drivenPin.all (fun pin => s.talkers.any (·.pin == pin)) = true := by
  cases h with
  | write hc _ => simpa [LineEvent.drivenPin] using ⟨_, List.mem_of_getElem? hc, rfl⟩
  | input => rfl
  | output => rfl

/-- What the invariant says of an event holds as long as the channels stay. -/
theorem KeepsChannels.drivenPin {s t : State} (h : KeepsChannels s t) {e : LineEvent}
    (he : e.drivenPin.all (fun pin => s.talkers.any (·.pin == pin)) = true) :
    e.drivenPin.all (fun pin => t.talkers.any (·.pin == pin)) = true := by
  rw [Option.all_eq_true] at he ⊢
  exact fun pin hp => h.talkerPin (he pin hp)

theorem State.OrderWf.of_evolves {s t : State} (ho : s.OrderWf) (h : Evolves s t) : t.OrderWf := by
  simpa only [State.OrderWf, h.order, h.count] using ho

/-- A sound move keeps the invariant, if the engine record it leaves fits and it leaves no fault beside a running command. -/
theorem Sound.inv {s t : State} (hs : Sound s t) (hinv : s.Inv) (hwf : t.engineWf = true)
    (hf : t.fault ≠ none → t.engine = .idle) : t.Inv := by
  obtain ⟨-, hct, hcl, -, -, horder, -, -, hhist⟩ := hinv
  obtain ⟨hlegal, htal, hlis⟩ := State.recordsWf_iff.mp hs.recordsWf
  obtain ⟨es, hes, hall⟩ := hs.history
  have hcfg := hs.evolves.cfg
  refine ⟨hlegal, by rwa [hs.evolves.count, hcfg], by rwa [hs.evolves.count, hcfg], htal, hlis,
    horder.of_evolves hs.evolves, hwf, hf, fun e he => ?_⟩
  have hold : e.time < s.cfg.modulus ∧ e.drivenPin.all (fun pin => s.talkers.any (·.pin == pin)) = true := by
    rw [hes, List.mem_append] at he
    exact he.elim (hhist e) fun he => ⟨(hall e he).time_lt, (hall e he).drivenPin⟩
  exact ⟨hcfg ▸ hold.1, hs.evolves.channels.drivenPin hold.2⟩

theorem State.registered_recordsWf {s : State} (hw : s.RecordsWf) (k : Kind) (pin : Byte) (baud : Word) :
    (s.registered k pin baud).RecordsWf where
  legal := hw.legal
  record h ch hc := by
    obtain hc | ⟨rfl, rfl⟩ := State.registered_channel_cases hc
    · exact hw.record h ch hc
    · exact newChannel_recordWf ..

theorem State.registered_count (s : State) (k k' : Kind) (pin : Byte) (baud : Word) :
    (s.registered k pin baud).count k' = s.count k' + if k' = k then 1 else 0 := by
  cases k <;> cases k' <;> simp [State.count]

/-- The new handle is the next of its kind (R24, R26). -/
theorem State.registered_orderWf {s : State} (ho : s.OrderWf) (k : Kind) (pin : Byte) (baud : Word) :
    (s.registered k pin baud).OrderWf := by
  obtain ⟨ht, hl⟩ := ho
  refine ⟨?_, ?_⟩ <;> rw [State.registered_count, List.filter_append] <;> cases k
  · simp [ht, List.range_succ]
  · simp [ht]
  · simp [hl]
  · simp [hl, List.range_succ]

theorem registered_inv {s : State} (hinv : s.Inv) (hready : s.Ready) {k : Kind} (hcap : s.count k ≠ maxChannels s.cfg k)
    (pin : Byte) (baud : Word) : (s.registered k pin baud).Inv := by
  have hw := recordsWf_of_inv hinv
  obtain ⟨hlegal, hct, hcl, -, -, horder, -, -, hhist⟩ := hinv
  obtain ⟨-, htal', hlis'⟩ := State.recordsWf_iff.mp (State.registered_recordsWf hw k pin baud)
  have hcount : ∀ k', s.count k' ≤ maxChannels s.cfg k' → (s.registered k pin baud).count k' ≤ maxChannels s.cfg k' := by
    intro k' hle
    rw [State.registered_count]
    split
    · rename_i hk; subst hk; omega
    · exact hle
  exact ⟨hlegal, hcount .talker hct, hcount .listener hcl, htal', hlis', State.registered_orderWf horder k pin baud,
    engineWf_of_idle hready.2, fun _ => hready.2,
    fun e he => ⟨(hhist e he).1, (keepsChannels_registered s k pin baud).drivenPin (hhist e he).2⟩⟩

theorem exec_inv {i : Instr} {s t : State} (hinv : s.Inv) (h : exec i s = .next t) : t.Inv := by
  obtain ⟨hs, hwf, hf⟩ | ⟨k, pin, baud, hcap, rfl⟩ := exec_sound hinv h
  · exact hs.inv hinv hwf fun hne => hf.resolve_left hne
  · exact registered_inv hinv (exec_next h).1 hcap pin baud

theorem microStep_inv {s t : State} (hinv : s.Inv) (hf : s.fault = none) (he : s.engine ≠ .idle)
    (h : microStep s = .next t) : t.Inv := by
  have hw := recordsWf_of_inv hinv
  obtain ⟨-, -, -, -, -, -, hwf, -⟩ := id hinv
  obtain ⟨hs, hwf'⟩ := microStep_sound hw hwf h
  exact hs.inv hinv hwf' fun hne => absurd ((microStep_next he h).1.trans hf) hne

/-- The invariant does not speak of the port, and a fault may be recorded while no command runs. -/
theorem inv_of_port {s : State} (hinv : s.Inv) (he : s.engine = .idle) (ws : List Word) (f : Option FaultRecord) :
    ({ s with inbox := ws, fault := f } : State).Inv := by
  obtain ⟨hlegal, hct, hcl, htal, hlis, horder, hwf, -, hhist⟩ := hinv
  exact ⟨hlegal, hct, hcl, htal, hlis, horder, hwf, fun _ => he, hhist⟩

/-- Settles O51: the reset state is an empty block with legal parameters. -/
theorem resetStateMeetsTheInvariant : Obligations.ResetStateMeetsTheInvariant :=
  powerOn_inv (s := State.reset) defaultConfig_legal

/-- Settles O52: each of the moves of `step_next` keeps the invariant. -/
theorem everyStepKeepsTheInvariant : Obligations.EveryStepKeepsTheInvariant := by
  intro s t hinv h
  obtain ⟨-, rfl⟩ | ⟨-, hf, ⟨he, ⟨-, rfl⟩ | ⟨i, rest, -, h⟩ | ⟨w, rest, rfl⟩⟩ | ⟨he, h⟩⟩ := step_next h
  · exact powerOn_inv hinv.1
  · exact hinv
  · exact exec_inv (inv_of_port hinv he rest s.fault) h
  · exact inv_of_port hinv he rest _
  · exact microStep_inv hinv hf he h

/-! ### The line history of a step -/

theorem exec_historyGrows {i : Instr} {s t : State} (hinv : s.Inv) (h : exec i s = .next t) : HistoryGrows s t := by
  obtain ⟨hs, -⟩ | ⟨k, pin, baud, -, rfl⟩ := exec_sound hinv h
  · exact hs.history
  · exact .of_eq rfl

theorem step_historyGrows {s t : State} (hinv : s.Inv) (hr : s.resetRequest = false) (h : step s = .next t) :
    HistoryGrows s t := by
  obtain ⟨hr', -⟩ | ⟨-, hf, ⟨he, ⟨-, rfl⟩ | ⟨i, rest, -, h⟩ | ⟨w, rest, rfl⟩⟩ | ⟨-, h⟩⟩ := step_next h
  · simp [hr] at hr'
  · exact .of_eq rfl
  · have hport : HistoryGrows s { s with inbox := rest } := .of_eq rfl
    exact hport.trans (.of_sameRegistry ⟨rfl, rfl, rfl, rfl⟩) (exec_historyGrows (inv_of_port hinv he rest s.fault) h)
  · exact .of_eq rfl
  · have hw := recordsWf_of_inv hinv
    obtain ⟨-, -, -, -, -, -, hwf, -⟩ := hinv
    exact (microStep_sound hw hwf h).1.history

/-- Settles O55: by `step_historyGrows`, each event that is allowed read as the statement writes it. -/
theorem lineHistoryOnlyGrows : Obligations.LineHistoryOnlyGrows := by
  intro s t hinv hr h
  obtain ⟨es, hes, hall⟩ := step_historyGrows hinv hr h
  refine ⟨es, hes, fun e he => ⟨(hall e he).time_lt, ?_⟩⟩
  cases hall e he with
  | write hc _ => exact ⟨_, List.mem_of_getElem? hc, rfl⟩
  | input hc hconf _ => exact ⟨_, List.mem_of_getElem? hc, rfl, hconf⟩
  | output hc hconf _ => exact ⟨_, List.mem_of_getElem? hc, rfl, hconf⟩

end Sys2Proof.Machine
end

section
/-! Payload bytes in payload words (R54, R73). -/

namespace Sys2Proof.Machine

theorem wordBytes_getD (w : Word) {j : Nat} (hj : j < 4) : (wordBytes w).getD j 0 = w.extractLsb' (8 * j) 8 := by
  interval_cases j <;> rfl

/-- The payload byte at a position is the byte there when the words are read one after the other, low byte first. -/
theorem payloadByte_eq_getD (ws : List Word) (j : Nat) : payloadByte ws j = (ws.flatMap wordBytes).getD j 0 := by
  induction ws generalizing j with
  | nil => simp [payloadByte]
  | cons w ws ih =>
    have hlen : (wordBytes w).length = 4 := rfl
    rw [List.flatMap_cons]
    by_cases hj : j < 4
    · rw [List.getD_append _ _ _ _ (hlen ▸ hj), wordBytes_getD w hj]
      simp [payloadByte, Nat.div_eq_of_lt hj, Nat.mod_eq_of_lt hj]
    · obtain ⟨j, rfl⟩ := Nat.exists_eq_add_of_le' (Nat.le_of_not_lt hj)
      rw [List.getD_append_right _ _ _ _ (by omega), hlen, Nat.add_sub_cancel, ← ih]
      simp [payloadByte]

theorem payloadByte_packBytes (bytes : List Byte) (j : Nat) : payloadByte (packBytes bytes) j = bytes.getD j 0 := by
  rw [payloadByte_eq_getD, flatMap_packBytes]
  by_cases hj : j < bytes.length
  · exact List.getD_append _ _ _ _ hj
  · rw [List.getD_append_right _ _ _ _ (Nat.le_of_not_lt hj), List.getD_eq_getElem?_getD,
      List.getElem?_getD_replicate_default_eq, List.getD_eq_default _ _ (Nat.le_of_not_lt hj)]

/-- Settles O6: SEND and TELL both carry their bytes as `packBytes` lays them out. -/
theorem payloadBytesLieLittleEndian : Obligations.PayloadBytesLieLittleEndian :=
  fun _ bytes j => ⟨payloadByte_packBytes bytes j, payloadByte_packBytes bytes j⟩

end Sys2Proof.Machine
end

section
/-! The commands' frames (R58): which commands write a channel record, and which fields of it. -/

namespace Sys2Proof.Machine

/-- The commands that can write a channel record or register one. -/
def writesChannel : Instr → Bool
  | .listen _ _ | .talk _ _ | .begin | .tick | .send _ _ | .read _ | .reset _ _ => true
  | .awaitAll | .tell _ _ | .peek _ | .bufferedCount _ _ | .isAvailable _ _ | .recieve _ _ | .isActivated _ _
  | .await _ => false

theorem exec_sameRegistry {i : Instr} {s t : State} (h : exec i s = .next t) (hi : writesChannel i = false) :
    SameRegistry s t := by
  obtain ⟨-, ⟨c, -, rfl⟩ | ⟨w, -, rfl⟩ | ⟨e, -, rfl, -⟩ |
    ⟨-, -, -, -, -, -, ⟨a, rfl, -⟩ | ⟨a, bytes, -, rfl, -⟩ | ⟨k, a, rfl, -⟩⟩ |
    ⟨-, pin, baud, ⟨rfl, -⟩ | ⟨rfl, -⟩, -⟩ | ⟨rfl, -⟩ | ⟨rfl, -⟩⟩ := exec_next h
  · exact ⟨rfl, rfl, rfl, rfl⟩
  · exact ⟨rfl, rfl, rfl, rfl⟩
  · exact ⟨rfl, rfl, rfl, rfl⟩
  all_goals cases hi

/-- Only BEGIN and TICK drive lines or draw from the environment, and no command touches the port (R58, R70). -/
theorem exec_keepsLinesAndPort {i : Instr} {s t : State} (h : exec i s = .next t) (hbegin : i ≠ .begin)
    (htick : i ≠ .tick) :
    t.history = s.history ∧ t.env = s.env ∧ t.inbox = s.inbox ∧ t.resetRequest = s.resetRequest := by
  obtain ⟨-, ⟨c, -, rfl⟩ | ⟨w, -, rfl⟩ | ⟨e, -, rfl, -⟩ | ⟨h, ch, ch', v, -, rfl, -⟩ | ⟨k, pin, baud, -, -, -, rfl⟩ |
    ⟨hi, -⟩ | ⟨hi, -⟩⟩ := exec_next h
  · exact ⟨rfl, rfl, rfl, rfl⟩
  · exact ⟨rfl, rfl, rfl, rfl⟩
  · exact ⟨rfl, rfl, rfl, rfl⟩
  · exact ⟨rfl, rfl, rfl, rfl⟩
  · exact ⟨rfl, rfl, rfl, rfl⟩
  · exact absurd hi hbegin
  · exact absurd hi htick

/-- The slots `l'` differ from `l` at most in slot `i`, where a record allocated there still stands, related by `R`. -/
def OnlySlot (i : Nat) (R : Channel → Channel → Prop) (l l' : List Channel) : Prop :=
  (∀ j, j ≠ i → l'[j]? = l[j]?) ∧ ∀ ch, l[i]? = some ch → ∃ ch', l'[i]? = some ch' ∧ R ch ch'

theorem OnlySlot.refl (i : Nat) {R : Channel → Channel → Prop} (hR : ∀ ch, R ch ch) (l : List Channel) :
    OnlySlot i R l l :=
  ⟨fun _ _ => rfl, fun ch hc => ⟨ch, hc, hR ch⟩⟩

theorem OnlySlot.set {i : Nat} {R : Channel → Channel → Prop} {l : List Channel} {ch ch' : Channel}
    (hc : l[i]? = some ch) (hR : R ch ch') : OnlySlot i R l (l.set i ch') := by
  refine ⟨fun j hj => List.getElem?_set_ne hj.symm, fun c hc' => ⟨ch', ?_, ?_⟩⟩
  · exact List.getElem?_set_self (List.getElem?_eq_some_iff.mp hc).1
  · cases hc.symm.trans hc'; exact hR

/-- A listener record with at most its start cursor changed, as READ leaves it (R139). -/
def StartMoved (ch ch' : Channel) : Prop := ∃ start, ch' = { ch with buf := { ch.buf with start := start } }

/-- A talker record with at most its slots and stop cursor changed, as SEND leaves it (R167). -/
def Enqueued (ch ch' : Channel) : Prop :=
  ∃ slots stop, ch' = { ch with buf := { ch.buf with slots := slots, stop := stop } }

theorem enqueued_of_pushAll {c : Nat} {ch : Channel} {bytes : List Byte} {buf' : Fifo}
    (h : ch.buf.pushAll c bytes = some buf') : Enqueued ch { ch with buf := buf' } := by
  obtain ⟨slots, start, stop⟩ := buf'
  obtain rfl : start = ch.buf.start := Fifo.pushAll_start bytes h
  exact ⟨slots, stop, rfl⟩

theorem execRead_frame {a : Byte} {s t : State} (h : execRead a s = .next t) :
    t.talkers = s.talkers ∧ OnlySlot a.toNat StartMoved s.listeners t.listeners := by
  have same := OnlySlot.refl a.toNat (R := StartMoved) (fun ch => ⟨ch.buf.start, rfl⟩) s.listeners
  obtain ⟨-, ⟨-, rfl⟩ | ⟨ch, hc, ⟨-, rfl⟩ | ⟨b, -, rfl⟩⟩⟩ := execRead_next h
  · exact ⟨rfl, same⟩
  · exact ⟨rfl, same⟩
  · exact ⟨rfl, .set hc ⟨ch.buf.start + 1, rfl⟩⟩

theorem execSend_frame {a : Byte} {bytes : List Byte} {s t : State} (h : execSend a bytes s = .next t) :
    t.listeners = s.listeners ∧ OnlySlot a.toNat Enqueued s.talkers t.talkers := by
  have same := OnlySlot.refl a.toNat (R := Enqueued) (fun ch => ⟨ch.buf.slots, ch.buf.stop, rfl⟩) s.talkers
  obtain ⟨-, ⟨-, rfl⟩ | ⟨ch, hc, ⟨-, rfl⟩ | ⟨-, buf', hp, rfl⟩⟩⟩ := execSend_next h
  · exact ⟨rfl, same⟩
  · exact ⟨rfl, same⟩
  · exact ⟨rfl, .set hc (enqueued_of_pushAll hp)⟩

/-- RESET changes no channel but its own (R120, R121). -/
theorem execReset_channel_ne {k : Kind} {a : Byte} {s t : State} (h : execReset k a s = .next t) {h' : Handle}
    (hne : h' ≠ ⟨k, a.toNat⟩) : t.channel h' = s.channel h' := by
  obtain ⟨-, ⟨-, rfl⟩ | ⟨ch, -, rfl⟩⟩ := execReset_next h
  · rfl
  · exact State.channel_setChannel_ne hne

theorem execReset_slots_ne {k k' : Kind} {a : Byte} {s t : State} (h : execReset k a s = .next t) (hk : k' ≠ k) :
    t.slots k' = s.slots k' :=
  List.ext_getElem? fun j => execReset_channel_ne h (h' := ⟨k', j⟩) (by simp [hk])

/-- Settles O57: a clause for each kind of command, by the frame lemmas above. -/
theorem commandFrames : Obligations.CommandFrames := by
  have noWrite {i : Instr} {s t : State} (hi : writesChannel i = false) (h : exec i s = .next t) :
      t.talkers = s.talkers ∧ t.listeners = s.listeners :=
    have hs := exec_sameRegistry h hi
    ⟨hs.talkers, hs.listeners⟩
  refine ⟨fun i s t h => exec_keepsLinesAndPort h, ?_, ?_, ?_, ?_, ?_⟩
  · rintro s t a (h | h | ⟨n, h⟩ | ⟨bytes, h⟩ | ⟨k, h | h | h⟩ | h) <;> exact noWrite rfl h
  · intro s t a h
    obtain ⟨ht, hother, hown⟩ := execRead_frame h
    refine ⟨ht, hother, fun ch hc => ?_⟩
    obtain ⟨-, hc', start, rfl⟩ := hown ch hc
    exact ⟨start, hc'⟩
  · intro s t a bytes h
    obtain ⟨hl, hother, hown⟩ := execSend_frame h
    refine ⟨hl, hother, fun ch hc => ?_⟩
    obtain ⟨-, hc', slots, stop, rfl⟩ := hown ch hc
    exact ⟨slots, stop, hc'⟩
  · exact fun s t a h => ⟨execReset_slots_ne h (k' := .listener) (by decide), fun j hj =>
      execReset_channel_ne h (h' := ⟨.talker, j⟩) (by simpa using hj)⟩
  · exact fun s t a h => ⟨execReset_slots_ne h (k' := .talker) (by decide), fun j hj =>
      execReset_channel_ne h (h' := ⟨.listener, j⟩) (by simpa using hj)⟩

end Sys2Proof.Machine
end

section
/-! A frame sent (R56, R160 to R165): what a talker stepped once a bit period drives. -/

namespace Sys2Proof.Machine

/-! ### Nominal times -/

/-- The clock value `k` bit periods `T` after `start`, modulo `2^CLK_W`. -/
def nominal (p : Config) (T start k : Nat) : Nat := (start + k * T) % p.modulus

theorem nominal_lt (p : Config) (T start k : Nat) : nominal p T start k < p.modulus :=
  Nat.mod_lt _ Config.Legal.modulus_pos

theorem nominal_succ (p : Config) (T start k : Nat) :
    (nominal p T start k + T) % p.modulus = nominal p T start (k + 1) := by
  simp only [nominal, Nat.mod_add_mod]
  congr 1; ring

theorem nominal_eq {p : Config} {T start k : Nat} (h : start + k * T < p.modulus) :
    nominal p T start k = start + k * T :=
  Nat.mod_eq_of_lt h

/-- The time test of R104 passes exactly `x` after the anchor. -/
theorem due_after {p : Config} {ch : Channel} (ha : ch.timeAnchor < p.modulus) {x : Nat} (hx : x < p.modulus) :
    ch.due p ((ch.timeAnchor + x) % p.modulus) x = true := by
  rw [Channel.due_iff, elapsed_add ha, Nat.mod_eq_of_lt hx]

theorem due_nominal {p : Config} {ch : Channel} {start k : Nat} (hT : ch.period < p.modulus)
    (ha : ch.timeAnchor = nominal p ch.period start k) :
    ch.due p (nominal p ch.period start (k + 1)) ch.period = true := by
  have hdue := due_after (ha ▸ nominal_lt ..) hT
  rwa [ha, nominal_succ] at hdue

/-- A channel that is not mid-activated is not activated (R30, R32). -/
theorem activated_eq_false_of_wf {p : Config} {k : Kind} {ch : Channel} (hwf : ch.Wf p k)
    (hmid : ch.midActivated = false) : ch.activated = false := by
  obtain ⟨-, -, -, -, ham, -⟩ := hwf
  exact Bool.eq_false_iff.mpr fun hact => Bool.eq_false_iff.mp hmid (ham hact)

theorem bitsDone_succ {n : BitVec 4} {k : Nat} (hn : n.toNat = k) (hk : k < 8) : (n + 1).toNat = k + 1 := by
  rw [BitVec.toNat_add, hn]
  exact Nat.mod_eq_of_lt (by simp; omega)

/-! ### The talker -/

/-- The level of a frame's bit period `k`: pre-amble, sync pulse, the eight data bits, idle (R56). -/
def frameLevel (o : BitOrder) (b : Byte) : Nat → Level
  | 0 => true
  | 1 => false
  | k + 2 => if k < 8 then frameBit o b k else true

/-- The talker after its end mark: the sent byte is popped, the line is high, and the channel is reset (R165). -/
def Channel.sent (ch : Channel) : Channel :=
  { ch with previousLevel := true, timeAnchor := 0, activated := false, midActivated := false, accumulator := 0,
            bitsDone := 0, buf := { ch.buf with start := ch.buf.start + 1 } }

/-- A talker with `k` data bits of `b` driven, anchored `k + 1` bit periods after `start` (R33, R164). -/
structure Streaming (p : Config) (start : Nat) (b : Byte) (bs : List Byte) (k : Nat) (ch : Channel) : Prop where
  activated : ch.activated = true
  bitsDone : ch.bitsDone.toNat = k
  anchor : ch.timeAnchor = nominal p ch.period start (k + 1)
  accumulator : ch.accumulator = b
  contents : ch.buf.contents p.bufferMaxSize = b :: bs
  period_lt : ch.period < p.modulus

variable {p : Config} {ch : Channel} {b : Byte} {bs : List Byte} {start : Nat}

theorem Streaming.due {k : Nat} (h : Streaming p start b bs k ch) :
    ch.due p (nominal p ch.period start (k + 2)) ch.period = true :=
  due_nominal h.period_lt h.anchor

/-- One bit period later the next data bit is driven (R164). -/
theorem Streaming.step_dataBit {k : Nat} (h : Streaming p start b bs k ch) (hk : k < 8) :
    ∃ ch', txStep p ch (nominal p ch.period start (k + 2)) =
        (ch', [.write ch.pin (frameLevel p.bitOrder b (k + 2)) (nominal p ch.period start (k + 2))]) ∧
      Streaming p start b bs (k + 1) ch' ∧ ch'.sent = ch.sent ∧ ch'.pin = ch.pin ∧ ch'.period = ch.period := by
  have hlevel : frameLevel p.bitOrder b (k + 2) = frameBit p.bitOrder ch.accumulator ch.bitsDone.toNat := by
    rw [h.accumulator, h.bitsDone]; exact if_pos hk
  refine ⟨(streamStep p ch (nominal p ch.period start (k + 2))).1, ?_, ⟨h.activated, bitsDone_succ h.bitsDone hk, ?_,
    h.accumulator, h.contents, h.period_lt⟩, rfl, rfl, rfl⟩
  · rw [txStep, if_pos h.activated, if_pos h.due, if_pos (by rwa [h.bitsDone]), hlevel]; rfl
  · show (ch.timeAnchor + ch.period) % p.modulus = nominal p ch.period start (k + 2)
    rw [h.anchor, nominal_succ]

/-- One bit period after the eighth data bit the line returns to idle and the byte is popped (R165). -/
theorem Streaming.step_endMark (h : Streaming p start b bs 8 ch) :
    txStep p ch (nominal p ch.period start 10) =
      (ch.sent, [.write ch.pin true (nominal p ch.period start 10)]) := by
  obtain ⟨-, hpop, -⟩ := Fifo.pop_spec h.contents
  rw [txStep, if_pos h.activated, if_pos h.due, if_neg (by simp [h.bitsDone]), endMark, hpop]
  rfl

theorem txRun_cons (p : Config) (ch : Channel) (now : Nat) (ts : List Nat) :
    txRun p ch (now :: ts) =
      ((txRun p (txStep p ch now).1 ts).1, (txStep p ch now).2 ++ (txRun p (txStep p ch now).1 ts).2) := rfl

/-- The rest of a frame, with `n` data bits to drive. -/
theorem Streaming.run {n k : Nat} (hn : k + n = 8) (h : Streaming p start b bs k ch) :
    txRun p ch ((List.range' (k + 2) (n + 1)).map (nominal p ch.period start)) =
      (ch.sent, (List.range' (k + 2) (n + 1)).map fun j =>
        .write ch.pin (frameLevel p.bitOrder b j) (nominal p ch.period start j)) := by
  induction n generalizing k ch with
  | zero =>
    obtain rfl : k = 8 := hn
    simp [txRun_cons, txRun, h.step_endMark, frameLevel]
  | succ n ih =>
    obtain ⟨ch', hstep, h', hsent, hpin, hperiod⟩ := h.step_dataBit (by omega)
    have hrest := ih (by omega) h'
    rw [hsent, hpin, hperiod] at hrest
    rw [List.range'_succ, List.map_cons, List.map_cons, txRun_cons, hstep, hrest]
    rfl

/-- The first two steps of a frame, from an idle talker: the pre-amble, and one bit period later the sync pulse (R162,
R163). -/
theorem txRun_wakeUp (hT : ch.period < p.modulus) (hmid : ch.midActivated = false) (hact : ch.activated = false)
    (hbits : ch.bitsDone = 0) (hcont : ch.buf.contents p.bufferMaxSize = b :: bs) :
    ∃ ch₁ ch₂, txStep p ch (nominal p ch.period start 0) =
        (ch₁, [.write ch.pin true (nominal p ch.period start 0)]) ∧
      txStep p ch₁ (nominal p ch.period start 1) =
        (ch₂, [.write ch.pin false (nominal p ch.period start 1)]) ∧
      Streaming p start b bs 0 ch₂ ∧ ch₂.sent = ch.sent ∧ ch₂.pin = ch.pin ∧ ch₂.period = ch.period := by
  obtain ⟨hpeek, -, -⟩ := Fifo.pop_spec hcont
  let ch₁ : Channel :=
    { ch with accumulator := b, previousLevel := true, timeAnchor := nominal p ch.period start 0, midActivated := true }
  have hdue : ch₁.due p (nominal p ch.period start 1) ch₁.period = true := due_nominal hT rfl
  refine ⟨ch₁, { ({ ch₁ with previousLevel := false } : Channel).advanceAnchor p ch.period with activated := true },
    ?_, ?_, ⟨rfl, ?_, ?_, rfl, hcont, hT⟩, rfl, rfl, rfl⟩
  · simp [txStep, hact, hmid, idleStep, hpeek, ch₁]
  · have hact₁ : ch₁.activated = false := hact
    have hmid₁ : ch₁.midActivated = true := rfl
    rw [txStep, hact₁, if_neg Bool.false_ne_true, if_pos hmid₁, raisedStep, if_pos hdue]
    rfl
  · exact congrArg BitVec.toNat hbits
  · exact nominal_succ ..

/-- An idle talker stepped eleven times one bit period apart drives the frame of its head byte and pops it. -/
theorem txRun_frame (hp : p.Legal) (hwf : TalkerWf p ch) (hmid : ch.midActivated = false)
    (hcont : ch.buf.contents p.bufferMaxSize = b :: bs) :
    txRun p ch ((List.range 11).map (nominal p ch.period start)) =
      (ch.sent, (List.range 11).map fun k =>
        .write ch.pin (frameLevel p.bitOrder b k) (nominal p ch.period start k)) := by
  have hact := activated_eq_false_of_wf hwf.1 hmid
  obtain ⟨⟨-, -, hT, -, -, hbits, -⟩, -⟩ := hwf
  obtain ⟨ch₁, ch₂, h₁, h₂, hs, hsent, hpin, hperiod⟩ :=
    txRun_wakeUp (start := start) (period_lt_modulus hp hT) hmid hact (hbits hact) hcont
  have hrest := hs.run (n := 8) rfl
  rw [hsent, hpin, hperiod] at hrest
  have hrange : List.range 11 = 0 :: 1 :: List.range' 2 9 := rfl
  rw [hrange, List.map_cons, List.map_cons, txRun_cons, h₁, txRun_cons, h₂, hrest]
  rfl

/-- Settles O59: by `txRun_frame`, the eleven levels written out. -/
theorem talkerDrivesTheFrame : Obligations.TalkerDrivesTheFrame := by
  intro p ch b bs start hp hwf hmid hcont t r
  have hr : r = _ := txRun_frame hp hwf hmid hcont
  obtain ⟨-, -, htail⟩ := Fifo.pop_spec hcont
  rw [hr]
  exact ⟨rfl, rfl, htail⟩

end Sys2Proof.Machine
end

section
/-! A frame received (R130 to R138): the level of a line that carries one frame, and a listener stepped in the middle of
each of its bit periods. -/

namespace Sys2Proof.Machine

/-! ### The line -/

theorem lineLevel_concat_write (es : List LineEvent) (pin : Byte) (level : Level) (t x : Nat) :
    lineLevel (es ++ [.write pin level t]) x = if t ≤ x then level else lineLevel es x := by
  simp [lineLevel]

/-- A line written once a bit period has in bit period `m` the level written at its start. -/
theorem lineLevel_periodic (pin : Byte) (level : Nat → Level) {T start x m n : Nat} (hm : m < n)
    (hlo : start + m * T ≤ x) (hhi : x < start + (m + 1) * T) :
    lineLevel ((List.range n).map fun k => .write pin (level k) (start + k * T)) x = level m := by
  induction n with
  | zero => omega
  | succ n ih =>
    rw [List.range_succ, List.map_append, List.map_singleton, lineLevel_concat_write]
    obtain rfl | hn : m = n ∨ m < n := by omega
    · exact if_pos hlo
    · have hle : (m + 1) * T ≤ n * T := Nat.mul_le_mul_right T hn
      rw [if_neg (by omega), ih hn]

/-- A frame as line events: its level at the start of each bit period, on a clock that does not wrap (R56). -/
def frameEvents (o : BitOrder) (pin : Byte) (b : Byte) (T start : Nat) : List LineEvent :=
  (List.range 11).map fun k => .write pin (frameLevel o b k) (start + k * T)

/-- The frame of an idle talker whose clock does not wrap. -/
theorem txRun_frameEvents {p : Config} {tx : Channel} {b : Byte} {bs : List Byte} {start : Nat} (hp : p.Legal)
    (hwf : TalkerWf p tx) (hmid : tx.midActivated = false) (hcont : tx.buf.contents p.bufferMaxSize = b :: bs)
    (hwrap : start + 10 * tx.period < p.modulus) :
    (txRun p tx ((List.range 11).map fun k => start + k * tx.period)).2 =
      frameEvents p.bitOrder tx.pin b tx.period start := by
  have htime : ∀ k ∈ List.range 11, nominal p tx.period start k = start + k * tx.period := by
    intro k hk
    have hk : k < 11 := List.mem_range.mp hk
    have hle : k * tx.period ≤ 10 * tx.period := Nat.mul_le_mul_right _ (by omega)
    exact nominal_eq (by omega)
  rw [← List.map_congr_left htime, txRun_frame hp hwf hmid hcont]
  exact List.map_congr_left fun k hk => by rw [htime k hk]

/-- The line in the middle of bit period `k + 1` of a frame, with the time as the listener counts it. -/
theorem frameEvents_sample {p : Config} {T start k : Nat} (pin b : Byte) (hT : 1 ≤ T) (hk : k < 9)
    (hwrap : start + 10 * T < p.modulus) :
    (start + T + T / 2 + k * T, lineLevel (frameEvents p.bitOrder pin b T start) (start + T + T / 2 + k * T)) =
      (nominal p T (start + T + T / 2) k, frameLevel p.bitOrder b (k + 1)) := by
  have hhalf : T / 2 < T := Nat.div_lt_self hT (by decide)
  have hle : k * T ≤ 8 * T := Nat.mul_le_mul_right T (by omega)
  have hlo : (k + 1) * T = k * T + T := Nat.succ_mul ..
  have hhi : (k + 1 + 1) * T = (k + 1) * T + T := Nat.succ_mul ..
  rw [nominal_eq (by omega), frameEvents, lineLevel_periodic (m := k + 1) pin _ (by omega) (by omega) (by omega)]

/-! ### The listener -/

variable {p : Config} {ch : Channel} {now : Nat}

theorem rxRun_cons (p : Config) (ch : Channel) (x : Nat × Level) (xs : List (Nat × Level)) :
    rxRun p ch (x :: xs) = rxRun p (rxStep p ch x.1 (Env.line x.2)).1 xs := rfl

/-- A step that samples acts on the level of the line (R130). -/
theorem rxStep_line_of_samplesNow (h : ch.samplesNow p now = true) (level : Level) :
    (rxStep p ch now (Env.line level)).1 = rxAction p ch now level := by
  rw [rxStep, if_pos h]; rfl

/-- A hunting listener takes a falling edge as the activation edge if the line was high for half a bit period (R134). -/
theorem rxStep_fallingEdge (hav : ch.available = true) (hact : ch.activated = false) (hmid : ch.midActivated = false)
    (hprev : ch.previousLevel = true) (hdue : ch.due p now ch.halfPeriod = true) :
    (rxStep p ch now (Env.line false)).1 =
      { ch with timeAnchor := now, midActivated := true, previousLevel := false } := by
  have hphase : ch.rxPhase = .hunt := by simp [Channel.rxPhase, hav, hact, hmid]
  rw [rxStep_line_of_samplesNow (by simp [Channel.samplesNow, hphase])]
  simp [rxAction, hphase, huntStep, hprev, hdue]

/-- A line still low half a bit period after the edge confirms the frame (R135). -/
theorem rxStep_confirm (hav : ch.available = true) (hact : ch.activated = false) (hmid : ch.midActivated = true)
    (hdue : ch.due p now ch.halfPeriod = true) :
    (rxStep p ch now (Env.line false)).1 =
      { ch with previousLevel := false, timeAnchor := (ch.timeAnchor + ch.halfPeriod) % p.modulus
                activated := true } := by
  have hphase : ch.rxPhase = .confirm := by simp [Channel.rxPhase, hav, hact, hmid]
  rw [rxStep_line_of_samplesNow (by simp [Channel.samplesNow, hphase, hdue])]
  simp [rxAction, hphase, confirmStep, Channel.advanceAnchor, Channel.halfPeriod, Channel.period]

/-- A listener of bit period `T` and FIFO `buf` that has assembled `k` bits into `acc`, anchored `k` bit periods after
`base` (R136). -/
structure Sampling (p : Config) (T base : Nat) (buf : Fifo) (k : Nat) (acc : Byte) (ch : Channel) : Prop where
  available : ch.available = true
  activated : ch.activated = true
  midActivated : ch.midActivated = true
  bitsDone : ch.bitsDone.toNat = k
  accumulator : ch.accumulator = acc
  anchor : ch.timeAnchor = nominal p T base k
  period : ch.period = T
  buf : ch.buf = buf

variable {T base k : Nat} {buf : Fifo} {acc : Byte}

/-- One bit period later the line is sampled. -/
theorem Sampling.step_eq (h : Sampling p T base buf k acc ch) (hT : T < p.modulus) (level : Level) :
    (rxStep p ch (nominal p T base (k + 1)) (Env.line level)).1 = samplingStep p ch level := by
  have hphase : ch.rxPhase = .sampling := by simp [Channel.rxPhase, h.available, h.activated]
  obtain rfl := h.period
  have hdue := due_nominal hT h.anchor
  rw [rxStep_line_of_samplesNow (by simp [Channel.samplesNow, hphase, hdue]), rxAction, hphase]

/-- A bit that is not the eighth joins the accumulator (R136). -/
theorem Sampling.step_bit (h : Sampling p T base buf k acc ch) (hT : T < p.modulus) (hk : k < 7) (level : Level) :
    Sampling p T base buf (k + 1) (accInsert p.bitOrder acc k level)
      (rxStep p ch (nominal p T base (k + 1)) (Env.line level)).1 := by
  have hbits := bitsDone_succ h.bitsDone (by omega)
  have hlast : ch.bitsDone + 1 ≠ 8 := by
    intro he
    rw [he] at hbits
    simp at hbits; omega
  rw [h.step_eq hT, samplingStep, if_neg hlast]
  refine ⟨h.available, h.activated, h.midActivated, hbits, ?_, ?_, h.period, h.buf⟩
  · show accInsert p.bitOrder ch.accumulator ch.bitsDone.toNat level = _
    rw [h.accumulator, h.bitsDone]
  · show (ch.timeAnchor + ch.period) % p.modulus = _
    rw [h.anchor, h.period, nominal_succ]

/-- The eighth bit completes the byte: it joins the FIFO and the listener hunts again (R137). -/
theorem Sampling.step_lastBit (h : Sampling p T base buf 7 acc ch) (hT : T < p.modulus) (hp : p.Legal)
    (hwf : buf.Wf p.bufferMaxSize) (hroom : buf.size < p.bufferMaxSize) (level : Level) :
    let ch' := (rxStep p ch (nominal p T base 8) (Env.line level)).1
    ch'.buf.contents p.bufferMaxSize = buf.contents p.bufferMaxSize ++ [accInsert p.bitOrder acc 7 level] ∧
      ch'.rxPhase = .hunt := by
  have hlast : ch.bitsDone + 1 = 8 := BitVec.eq_of_toNat_eq (bitsDone_succ h.bitsDone (by decide))
  obtain rfl := h.buf
  rw [h.step_eq hT, samplingStep, if_pos hlast, h.accumulator, h.bitsDone]
  refine ⟨?_, by simp [Channel.rxPhase, byteComplete, Channel.reset, Channel.advanceAnchor, h.available]⟩
  obtain ⟨-, ⟨-, hcont⟩ | ⟨hfull, -⟩⟩ := byteComplete_buf hp (ch := ({ ch with
    previousLevel := level, accumulator := accInsert p.bitOrder acc 7 level
    bitsDone := ch.bitsDone + 1 } : Channel).advanceAnchor p ch.period) hwf
  · exact hcont
  · exact absurd hfull hroom.ne

/-- The rest of a byte, with `n + 1` bits to sample. -/
theorem Sampling.run {n : Nat} (hn : k + n = 7) (h : Sampling p T base buf k acc ch) (hT : T < p.modulus)
    (hp : p.Legal) (hwf : buf.Wf p.bufferMaxSize) (hroom : buf.size < p.bufferMaxSize) (level : Nat → Level) :
    let ch' := rxRun p ch ((List.range' k (n + 1)).map fun j => (nominal p T base (j + 1), level j))
    ch'.buf.contents p.bufferMaxSize = buf.contents p.bufferMaxSize ++
        [(List.range' k (n + 1)).foldl (fun acc j => accInsert p.bitOrder acc j (level j)) acc] ∧
      ch'.rxPhase = .hunt := by
  induction n generalizing k acc ch with
  | zero =>
    obtain rfl : k = 7 := hn
    exact h.step_lastBit hT hp hwf hroom (level 7)
  | succ n ih =>
    rw [List.range'_succ, List.map_cons, rxRun_cons, List.foldl_cons]
    exact ih (by omega) (h.step_bit hT (by omega) (level k))

/-- From the hunt, the activation edge and its confirmation half a bit period later start a byte (R134, R135). -/
theorem sampling_of_edge (hwf : ListenerWf p ch) (hav : ch.available = true) (hmid : ch.midActivated = false)
    (hprev : ch.previousLevel = true) (hT : ch.period < p.modulus) {edge : Nat} (hedge : edge < p.modulus)
    (hhigh : ch.due p edge ch.halfPeriod = true) :
    Sampling p ch.period (edge + ch.halfPeriod) ch.buf 0 0
      (rxRun p ch [(edge, false), (nominal p ch.period (edge + ch.halfPeriod) 0, false)]) := by
  have hact := activated_eq_false_of_wf hwf.1 hmid
  obtain ⟨⟨-, -, -, -, -, hbits, -⟩, -, -, hacc⟩ := hwf
  have hbits := hbits hact
  have hacc : ch.accumulator = 0 := by
    rw [hbits] at hacc
    exact BitVec.eq_of_toNat_eq (by simpa using hacc)
  have hH : ch.halfPeriod < p.modulus := (Nat.div_le_self ..).trans_lt hT
  have hbase : nominal p ch.period (edge + ch.halfPeriod) 0 = (edge + ch.halfPeriod) % p.modulus := by simp [nominal]
  let ch₁ : Channel := { ch with timeAnchor := edge, midActivated := true, previousLevel := false }
  have hdue : ch₁.due p ((edge + ch.halfPeriod) % p.modulus) ch₁.halfPeriod = true := due_after hedge hH
  rw [hbase, rxRun_cons, rxStep_fallingEdge hav hact hmid hprev hhigh, rxRun_cons,
    rxStep_confirm (ch := ch₁) hav hact rfl hdue]
  exact ⟨hav, rfl, rfl, congrArg BitVec.toNat hbits, hacc, hbase.symm, rfl, rfl⟩

/-- The data bits of a frame, assembled in their order, are the byte (R112, R113). -/
theorem foldl_accInsert_frameLevel (o : BitOrder) (b : Byte) :
    (List.range' 0 8).foldl (fun acc j => accInsert o acc j (frameLevel o b (j + 2))) 0 = b := by
  revert b
  cases o <;> decide

/-- A hunting listener that samples the sync pulse at its edge and half a bit period later, and then the data bits a bit
period apart, gains exactly the byte of the frame (R138). -/
theorem rxRun_frame (hp : p.Legal) (hwf : ListenerWf p ch) (hav : ch.available = true) (hmid : ch.midActivated = false)
    (hprev : ch.previousLevel = true) (hroom : ch.buf.size < p.bufferMaxSize) {edge : Nat} (hedge : edge < p.modulus)
    (hhigh : ch.due p edge ch.halfPeriod = true) (b : Byte) :
    let ch' := rxRun p ch ((edge, false) :: (List.range 9).map fun k =>
      (nominal p ch.period (edge + ch.halfPeriod) k, frameLevel p.bitOrder b (k + 1)))
    ch'.buf.contents p.bufferMaxSize = ch.buf.contents p.bufferMaxSize ++ [b] ∧ ch'.rxPhase = .hunt := by
  have ⟨⟨_, _, hT, hbuf, _⟩, _⟩ := hwf
  have hT := period_lt_modulus hp hT
  have hdata := (sampling_of_edge hwf hav hmid hprev hT hedge hhigh).run (n := 7) rfl hT hp hbuf hroom
    fun j => frameLevel p.bitOrder b (j + 2)
  rwa [foldl_accInsert_frameLevel] at hdata

/-- Settles O60: the talker drives `frameEvents`, whose levels in the middle of the bit periods `rxRun_frame` reads. -/
theorem frameSentIsTheByteReceived : Obligations.FrameSentIsTheByteReceived := by
  intro p tx rx b bs start hp htx htxmid hcont hrx hav hmid hprev hroom hperiod hT hwrap hhigh frame edge times rx'
  have hwrap : start + 10 * tx.period < p.modulus := hwrap
  have hframe : frame = _ := txRun_frameEvents hp htx htxmid hcont hwrap
  have hedge : lineLevel frame edge = false := by
    rw [hframe]; exact lineLevel_periodic (m := 1) tx.pin _ (by decide) (by omega) (by omega)
  have hrxhalf : rx.halfPeriod = tx.period / 2 := congrArg (· / 2) hperiod
  have hsamples : times.map (fun x => (x, lineLevel frame x)) = (edge, false) :: (List.range 9).map fun k =>
      (nominal p rx.period (edge + rx.halfPeriod) k, frameLevel p.bitOrder b (k + 1)) := by
    rw [List.map_cons, hedge, List.map_map, hframe, hperiod, hrxhalf]
    exact congrArg _ (List.map_congr_left fun k hk => frameEvents_sample tx.pin b hT (List.mem_range.mp hk) hwrap)
  have hread := rxRun_frame hp hrx hav hmid hprev hroom (edge := edge) (by omega) (Channel.due_iff.mpr hhigh) b
  rwa [← hsamples] at hread

end Sys2Proof.Machine
end

section
/-! Decoding and encoding are inverse (R70 to R77, R86): what the decoder reads as a command, the headers a row of the
opcode map admits, and the payload words that carry a byte string. -/

namespace Sys2Proof

open Machine

/-! ### The decoder, outcome by outcome -/

/-- The words of a command and any words after them, read in the order of R76. -/
theorem decode_append {header : Word} {op : Opcode} {ext : List Word} (hop : selectOpcode header = some op)
    (hlen : ext.length = extWords op (fieldB header)) (rest : List Word) :
    decode (header :: (ext ++ rest)) =
      (operands op header ext).elim (.reservedPayload header rest) (.command · rest) := by
  have htake : (ext ++ rest).take (extWords op (fieldB header)) = ext := List.take_left' hlen
  have hdrop : (ext ++ rest).drop (extWords op (fieldB header)) = rest := List.drop_left' hlen
  have henough : ¬ (ext ++ rest).length < extWords op (fieldB header) := by simp [hlen]
  simp only [decode, hop, if_neg henough, htake, hdrop]
  cases operands op header ext <;> rfl

theorem decode_unknownHeader {header : Word} (hop : selectOpcode header = none) (ws : List Word) :
    decode (header :: ws) = .unknownHeader header ws := by
  simp only [decode, hop]

/-- What the decoder reads as a command is a header that selects a row, the extension words the row asks for, which give
the operands, and the words after them. -/
theorem exists_words_of_decode_command {ws rest : List Word} {i : Instr} (h : decode ws = .command i rest) :
    ∃ header op ext, ws = header :: (ext ++ rest) ∧ selectOpcode header = some op ∧
      ext.length = extWords op (fieldB header) ∧ operands op header ext = some i := by
  cases ws with
  | nil => cases h
  | cons header ws =>
    cases hop : selectOpcode header with
    | none => rw [decode_unknownHeader hop] at h; cases h
    | some op =>
      by_cases hshort : ws.length < extWords op (fieldB header)
      · simp only [decode, hop, if_pos hshort] at h
        cases h
      · have hlen : (ws.take (extWords op (fieldB header))).length = extWords op (fieldB header) :=
          List.length_take_of_le (Nat.le_of_not_lt hshort)
        have hws := List.take_append_drop (extWords op (fieldB header)) ws
        rw [← hws, decode_append hop hlen] at h
        cases hi : operands op header (ws.take (extWords op (fieldB header))) with
        | none => rw [hi] at h; cases h
        | some j =>
          rw [hi] at h
          cases h
          exact ⟨header, op, _, by rw [hws], hop, hlen, hi⟩

/-! ### From a command to its words and back -/

/-- R74, R75, R77 for every command, gathered from the laws of the single commands. -/
theorem headerFields (i : Instr) : Laws.HeaderFields.Statement i :=
  match i with
  | .listen pin baud => Laws.HeaderFields.listen pin baud
  | .talk pin baud => Laws.HeaderFields.talk pin baud
  | .begin => Laws.HeaderFields.begin
  | .tick => Laws.HeaderFields.tick
  | .awaitAll => Laws.HeaderFields.awaitAll
  | .send a bytes => Laws.HeaderFields.send a bytes
  | .tell a bytes => Laws.HeaderFields.tell a bytes
  | .read a => Laws.HeaderFields.read a
  | .peek a => Laws.HeaderFields.peek a
  | .bufferedCount k a => Laws.HeaderFields.bufferedCount k a
  | .isAvailable k a => Laws.HeaderFields.isAvailable k a
  | .recieve a n => Laws.HeaderFields.recieve a n
  | .isActivated k a => Laws.HeaderFields.isActivated k a
  | .await a => Laws.HeaderFields.await a
  | .reset k a => Laws.HeaderFields.reset k a

theorem decode_encode_append {i : Instr} (hi : i.wellFormed = true) (rest : List Word) :
    decode (encode i ++ rest) = .command i rest := by
  obtain ⟨hop, hlen, hoperands⟩ := headerFields i hi
  rw [encode, List.cons_append, decode_append hop hlen, hoperands]
  rfl

/-- Settles O1: it is `decode_encode_append`. -/
theorem decodeOfEncodeGivesTheCommand : Obligations.DecodeOfEncodeGivesTheCommand :=
  fun _ rest hi => decode_encode_append hi rest

/-! ### The payload words of a byte string -/

theorem packWord_wordBytes (w : Word) :
    packWord (w.extractLsb' 0 8) (w.extractLsb' 8 8) (w.extractLsb' 16 8) (w.extractLsb' 24 8) = w := by
  rw [packWord, BitVec.extractLsb'_append_extractLsb'_eq_extractLsb' (by rfl),
    BitVec.extractLsb'_append_extractLsb'_eq_extractLsb' (by rfl),
    BitVec.extractLsb'_append_extractLsb'_eq_extractLsb' (by rfl)]
  simp

/-- Words are known from their bytes, read one after the other. -/
theorem flatMap_wordBytes_injective : Function.Injective (List.flatMap wordBytes) := by
  intro ws vs h
  induction ws generalizing vs with
  | nil =>
    cases vs with
    | nil => rfl
    | cons v vs => cases h
  | cons w ws ih =>
    cases vs with
    | nil => cases h
    | cons v vs =>
      simp only [List.flatMap_cons, wordBytes, List.cons_append, List.nil_append, List.cons.injEq] at h
      obtain ⟨h0, h1, h2, h3, hrest⟩ := h
      rw [ih hrest, ← packWord_wordBytes w, ← packWord_wordBytes v, h0, h1, h2, h3]

theorem length_flatMap_wordBytes (ws : List Word) : (ws.flatMap wordBytes).length = 4 * ws.length := by
  simp [List.length_flatMap, wordBytes, Nat.mul_comm]

/-- A payload is the first `n` bytes of its words, if every byte past them is 0 (R73). -/
theorem payload_eq_some_iff {ext : List Word} {n : Nat} {bytes : List Byte} :
    payload ext n = some bytes ↔
      (∀ b ∈ (ext.flatMap wordBytes).drop n, b = 0) ∧ (ext.flatMap wordBytes).take n = bytes := by
  simp [payload]

/-- A payload with a byte past its end that is not 0 is refused (R73). -/
theorem payload_eq_none {ext : List Word} {n j : Nat} (hj : n ≤ j) (hb : payloadByte ext j ≠ 0) :
    payload ext n = none := by
  obtain ⟨k, rfl⟩ := Nat.exists_eq_add_of_le hj
  refine Option.eq_none_iff_forall_ne_some.mpr fun bytes h => hb ?_
  obtain ⟨hzero, -⟩ := payload_eq_some_iff.mp h
  rw [payloadByte_eq_getD, List.getD_eq_getElem?_getD, ← List.getElem?_drop]
  cases hk : ((ext.flatMap wordBytes).drop n)[k]? with
  | none => rfl
  | some b => exact hzero b (List.mem_of_getElem? hk)

/-- A payload that is read back is spelled by exactly its own words: what follows it in its last word is 0 (R73). -/
theorem packBytes_of_payload {ext : List Word} {n : Nat} {bytes : List Byte} (hlen : ext.length = (n + 3) / 4)
    (h : payload ext n = some bytes) : bytes.length = n ∧ packBytes bytes = ext := by
  obtain ⟨hzero, hbytes⟩ := payload_eq_some_iff.mp h
  have htotal := length_flatMap_wordBytes ext
  have hn : bytes.length = n := by
    rw [← hbytes]; exact List.length_take_of_le (by omega)
  refine ⟨hn, flatMap_wordBytes_injective ?_⟩
  have hpad : (ext.flatMap wordBytes).drop n = List.replicate (4 * ((n + 3) / 4) - n) 0 :=
    List.eq_replicate_iff.mpr ⟨by rw [List.length_drop, htotal, hlen], hzero⟩
  calc (packBytes bytes).flatMap wordBytes
      = bytes ++ List.replicate (4 * ((n + 3) / 4) - n) 0 := by rw [flatMap_packBytes, hn]
    _ = ext.flatMap wordBytes := by rw [← hpad, ← hbytes, List.take_append_drop]

/-! ### The headers of a row -/

/-- The `OP` field of a row's headers (R74). -/
def Opcode.code : Opcode → BitVec 4
  | .listen => 0x1
  | .talk => 0x2
  | .begin => 0x3
  | .tick => 0x4
  | .awaitAll => 0x5
  | .send => 0x6
  | .tell => 0x7
  | .read => 0x8
  | .peek => 0x9
  | .bufferedCount => 0xA
  | .isAvailable => 0xB
  | .recieve => 0xC
  | .isActivated => 0xD
  | .await => 0xE
  | .reset => 0xF

/-- The fixed bits that a row has in the fields `K`, `A` and `B` (R74). -/
def Opcode.Admits (k : Kind) (a : Byte) (b : BitVec 16) : Opcode → Prop
  | .listen | .talk => k = .talker ∧ b = 0
  | .begin | .tick | .awaitAll => k = .talker ∧ a = 0 ∧ b = 0
  | .send | .tell => k = .talker
  | .read | .peek | .await => k = .listener ∧ b = 0
  | .recieve => k = .listener
  | .bufferedCount | .isAvailable | .isActivated | .reset => b = 0

/-- The `K` bit of a word is that of the kind it names (R71). -/
theorem kBit_eq_kindBit (h : Word) : h.extractLsb' 27 1 = BitVec.ofBool (fieldK h == .listener) := by
  have hbit : fieldK h = if (h.extractLsb' 27 1).getLsbD 0 then .listener else .talker := by simp [fieldK]
  rw [hbit]
  generalize h.extractLsb' 27 1 = k
  revert k
  decide

theorem kindBit_eq_zero_iff {k : Kind} : BitVec.ofBool (k == .listener) = 0#1 ↔ k = .talker := by cases k <;> decide

theorem kindBit_eq_one_iff {k : Kind} : BitVec.ofBool (k == .listener) = 1#1 ↔ k = .listener := by cases k <;> decide

/-- A row that a header selects has the header's `OP`, and admits its other fields (R74). -/
theorem admits_of_selectOpcode_ofFields {o : BitVec 4} {r : BitVec 3} {k : Kind} {a : Byte} {b : BitVec 16} {op : Opcode}
    (h : selectOpcode (ofFields o (BitVec.ofBool (k == .listener)) r a b) = some op) :
    r = 0 ∧ o = op.code ∧ op.Admits k a b := by
  simp only [selectOpcode_ofFields, kindBit_eq_zero_iff, kindBit_eq_one_iff] at h
  obtain ⟨hr, h⟩ := Option.ite_none_right_eq_some.mp h
  obtain ⟨n, rfl⟩ : ∃ n : Fin 16, o = BitVec.ofFin n := ⟨o.toFin, rfl⟩
  fin_cases n
  · cases h
  all_goals
    obtain ⟨hfields, hop⟩ := Option.ite_none_right_eq_some.mp h
    cases hop
    exact ⟨hr, rfl, hfields⟩

/-- A header that selects a row is spelled by the row's `OP` and by fields the row admits, with the reserved bits 0 (R71,
R76). -/
theorem exists_fields_of_selectOpcode {h : Word} {op : Opcode} (hop : selectOpcode h = some op) :
    ∃ k a b, h = headerWord op.code k a b ∧ op.Admits k a b := by
  have hh := word_eq_ofFields h
  rw [kBit_eq_kindBit] at hh
  rw [hh] at hop
  obtain ⟨hr, ho, hfields⟩ := admits_of_selectOpcode_ofFields hop
  rw [hr, ho] at hh
  exact ⟨_, _, _, hh, hfields⟩

/-! ### From words to their command and back -/

/-- What a header and its extension words spell is a well-formed command whose words they are (R72 to R75). -/
theorem encode_of_operands {h : Word} {op : Opcode} {ext : List Word} {i : Instr} (hop : selectOpcode h = some op)
    (hlen : ext.length = extWords op (fieldB h)) (hi : operands op h ext = some i) :
    i.wellFormed = true ∧ encode i = h :: ext := by
  obtain ⟨k, a, b, rfl, hfields⟩ := exists_fields_of_selectOpcode hop
  rw [fieldB_headerWord] at hlen
  cases op
  case listen | talk =>
    obtain ⟨rfl, rfl⟩ := hfields
    obtain ⟨baud, rfl⟩ := List.length_eq_one_iff.mp hlen
    rw [operands, fieldA_headerWord] at hi
    cases hi
    exact ⟨rfl, rfl⟩
  case send | tell =>
    obtain rfl := hfields
    rw [operands, fieldA_headerWord, fieldB_headerWord] at hi
    obtain ⟨bytes, hbytes, rfl⟩ := Option.map_eq_some_iff.mp hi
    obtain ⟨hn, rfl⟩ := packBytes_of_payload hlen hbytes
    have hb : BitVec.ofNat 16 bytes.length = b := by rw [hn, BitVec.ofNat_toNat, BitVec.setWidth_eq]
    refine ⟨decide_eq_true (hn ▸ b.isLt), ?_⟩
    rw [encode, encodeHeader, hb]
    rfl
  case begin | tick | awaitAll =>
    obtain ⟨rfl, rfl, rfl⟩ := hfields
    obtain rfl := List.length_eq_zero_iff.mp hlen
    cases hi
    exact ⟨rfl, rfl⟩
  case read | peek | await =>
    obtain ⟨rfl, rfl⟩ := hfields
    obtain rfl := List.length_eq_zero_iff.mp hlen
    rw [operands, fieldA_headerWord] at hi
    cases hi
    exact ⟨rfl, rfl⟩
  case recieve =>
    obtain rfl := hfields
    obtain rfl := List.length_eq_zero_iff.mp hlen
    rw [operands, fieldA_headerWord, fieldB_headerWord] at hi
    cases hi
    exact ⟨rfl, rfl⟩
  case bufferedCount | isAvailable | isActivated | reset =>
    obtain rfl := hfields
    obtain rfl := List.length_eq_zero_iff.mp hlen
    rw [operands, fieldA_headerWord, fieldK_headerWord] at hi
    cases hi
    exact ⟨rfl, rfl⟩

theorem encode_of_decode {ws rest : List Word} {i : Instr} (h : decode ws = .command i rest) :
    i.wellFormed = true ∧ ws = encode i ++ rest := by
  obtain ⟨header, op, ext, rfl, hop, hlen, hi⟩ := exists_words_of_decode_command h
  obtain ⟨hwf, henc⟩ := encode_of_operands hop hlen hi
  exact ⟨hwf, by rw [henc, List.cons_append]⟩

/-- Settles O2: it is `encode_of_decode`. -/
theorem encodeOfDecodeGivesTheWords : Obligations.EncodeOfDecodeGivesTheWords :=
  fun _ _ _ h => encode_of_decode h

end Sys2Proof
end

section
/-! Illegal headers and payloads (R74, R76, R81, R86): which headers select no row, that no header selects two, and the
fault that illegal words raise. -/

namespace Sys2Proof.Machine

/-! ### Headers that select no row -/

theorem getLsbD_zero_eq_true_iff {k : BitVec 1} : k.getLsbD 0 = true ↔ k ≠ 0#1 := by revert k; decide

theorem getLsbD_zero_eq_false_iff {k : BitVec 1} : k.getLsbD 0 = false ↔ k ≠ 1#1 := by revert k; decide

/-- R81's list by the five fields: a nonzero reserved bit makes a header illegal whatever its `OP`; else each `OP` has the
fixed bits of its row, and its illegal headers are those that miss one of them. -/
theorem selectOpcode_eq_none_iff (h : Word) : selectOpcode h = none ↔ IllegalHeader h := by
  obtain ⟨o, k, r, a, b, rfl⟩ : ∃ o k r a b, h = ofFields o k r a b := ⟨_, _, _, _, _, word_eq_ofFields h⟩
  simp only [selectOpcode_ofFields, IllegalHeader, opField_ofFields, kBit_ofFields, rField_ofFields, aField_ofFields,
    bField_ofFields, getLsbD_zero_eq_true_iff, getLsbD_zero_eq_false_iff]
  by_cases hr : r = 0#3
  · obtain ⟨n, rfl⟩ : ∃ n : Fin 16, o = BitVec.ofFin n := ⟨o.toFin, rfl⟩
    fin_cases n <;> simp [hr, imp_iff_not_or]
  · simp [hr]

/-- The rows' fixed bits differ pairwise (R74): two rows that agree on the bits both of them fix are one row. -/
theorem opcodeTable_fixedBits_differ : ∀ r ∈ opcodeTable, ∀ r' ∈ opcodeTable,
    r.pattern &&& r'.mask = r'.pattern &&& r.mask → r = r' := by decide

/-- Settles O4: a header that two rows match agrees with both on the bits they fix; one that matches none is illegal by
`selectOpcode_eq_none_iff`. -/
theorem everyHeaderHasOneRowOrIsIllegal : Obligations.EveryHeaderHasOneRowOrIsIllegal := by
  refine ⟨fun h r r' hr hr' hm hm' => opcodeTable_fixedBits_differ r hr r' hr' ?_, fun h => ?_⟩
  · rw [← hm, ← hm', BitVec.and_assoc, BitVec.and_assoc, BitVec.and_comm r.mask]
  · by_cases hill : IllegalHeader h
    · exact .inr hill
    · have hop := (selectOpcode_eq_none_iff h).not.mpr hill
      simp only [selectOpcode, Option.map_eq_none_iff, List.find?_eq_none, not_forall, not_not] at hop
      obtain ⟨r, hr, hsel⟩ := hop
      exact .inl ⟨r, hr, eq_of_beq hsel⟩

/-! ### The fault -/

/-- A ready block faults on words that spell no command, and takes them from its port (R76). -/
theorem step_eq_illegal {s s' : State} {h : Word} (hs : s.Ready) (hr : s.resetRequest = false)
    (hf : fetch s = .illegal h s') : step s = .next { s' with fault := some ⟨.illegalCommand, h⟩ } := by
  simp [step, hr, hs.1, hs.2, hf, takeFault, State.raise]

/-- A header by its upper byte, if `K` and the reserved bits are 0 (R71). -/
theorem eq_ofFields_of_upperByte {h : Word} {o : BitVec 4} (hh : h.extractLsb' 24 8 = o ++ 0#1 ++ 0#3) :
    h = ofFields o 0#1 0#3 (h.extractLsb' 16 8) (h.extractLsb' 0 16) := by
  rw [ofFields, ← hh, BitVec.extractLsb'_append_extractLsb'_eq_extractLsb' (by rfl),
    BitVec.extractLsb'_append_extractLsb'_eq_extractLsb' (by rfl)]
  simp

/-- The headers of SEND and TELL, by their upper byte (R74). -/
theorem selectOpcode_of_upperByte {h : Word} (hh : h.extractLsb' 24 8 = 0x60 ∨ h.extractLsb' 24 8 = 0x70) :
    selectOpcode h = some .send ∨ selectOpcode h = some .tell := by
  refine hh.imp (fun hsend => ?_) fun htell => ?_
  · rw [eq_ofFields_of_upperByte (o := 6) hsend, selectOpcode_ofFields]
    rfl
  · rw [eq_ofFields_of_upperByte (o := 7) htell, selectOpcode_ofFields]
    rfl

/-- A SEND or TELL whose payload is refused (R73, R76 step 4). -/
theorem decode_reservedPayload {h : Word} {ext : List Word}
    (hop : selectOpcode h = some .send ∨ selectOpcode h = some .tell)
    (hlen : ext.length = ((fieldB h).toNat + 3) / 4) (hbad : payload ext (fieldB h).toNat = none) (rest : List Word) :
    decode (h :: (ext ++ rest)) = .reservedPayload h rest := by
  obtain hop | hop := hop
  all_goals
    rw [decode_append hop hlen, operands, hbad]
    rfl

/-- Settles O3: the list of R81 is `selectOpcode_eq_none_iff`, the outcomes of the decoder are `decode_unknownHeader` and
`decode_reservedPayload`, and the block's step on either is `step_eq_illegal`. -/
theorem illegalCommandsFault : Obligations.IllegalCommandsFault := by
  refine ⟨selectOpcode_eq_none_iff, fun s h ws hs hr hin hill => ?_,
    fun s h ext rest hs hr hin hh hlen ⟨j, hj, _, hb⟩ => ?_⟩
  · have hd := decode_unknownHeader ((selectOpcode_eq_none_iff h).mpr hill) ws
    exact step_eq_illegal (s' := { s with inbox := ws }) hs hr (by rw [fetch, hin, hd])
  · have hd := decode_reservedPayload (selectOpcode_of_upperByte hh) hlen (payload_eq_none hj hb) rest
    exact step_eq_illegal (s' := { s with inbox := rest }) hs hr (by rw [fetch, hin, hd])

end Sys2Proof.Machine
end

section
/-! Responses (R78, R79): a command answers with one word when it completes, and not before. -/

namespace Sys2Proof.Machine

/-- A response with status OK has status field 0 (R79). -/
theorem status_ok (v : BitVec 16) : (0#16 ++ v : Word).extractLsb' 16 16 = 0 := BitVec.extractLsb'_append_eq_left

theorem exec_responses {i : Instr} {s t : State} (h : exec i s = .next t) :
    (t.fault ≠ none ∧ t.responses = s.responses) ∨
    (t.fault = none ∧ t.engine ≠ .idle ∧ t.responses = s.responses) ∨
    (t.fault = none ∧ t.engine = .idle ∧ ∃ w : Word, t.responses = s.responses ++ [w] ∧
      (w.extractLsb' 16 16 = 0 ∨ w = 0x00010000 ∧ ∃ a bytes, i = .send a bytes)) := by
  obtain ⟨⟨hf, he⟩, ⟨c, -, rfl⟩ | ⟨w, hw, rfl⟩ | ⟨e, hrun, rfl, -⟩ | ⟨-, -, -, v, -, rfl, -⟩ |
    ⟨k, -, -, -, -, -, rfl⟩ | ⟨-, rfl⟩ | ⟨-, -, rfl⟩⟩ := exec_next h
  · exact .inl ⟨nofun, rfl⟩
  · exact .inr (.inr ⟨hf, he, w, rfl, hw⟩)
  · exact .inr (.inl ⟨hf, hrun, rfl⟩)
  · exact .inr (.inr ⟨hf, he, _, rfl, .inl (status_ok v)⟩)
  · exact .inr (.inr ⟨hf, he, _, rfl, .inl (status_ok _)⟩)
  · have hframe := ChannelFrame.foldl ChannelFrame.beginChannel s.order s
    exact .inr (.inr ⟨hframe.fault.trans hf, hframe.engine.trans he, _, congrArg (· ++ _) hframe.responses,
      .inl (status_ok 0)⟩)
  · have hframe := ChannelFrame.foldl ChannelFrame.stepChannel s.order s
    exact .inr (.inr ⟨hframe.fault.trans hf, hframe.engine.trans he, _, congrArg (· ++ _) hframe.responses,
      .inl (status_ok 0)⟩)

/-- Settles O14: commands by `exec_responses`; while a blocking command runs, a step is a micro-step (`step_next`), whose
responses `microStep_next` gives. -/
theorem eachCommandAnswersOnce : Obligations.EachCommandAnswersOnce := by
  refine ⟨fun i s t => exec_responses, fun s t hr he h => ?_⟩
  obtain ⟨hr', -⟩ | ⟨-, -, ⟨he', -⟩ | ⟨-, hmicro⟩⟩ := step_next h
  · simp [hr] at hr'
  · exact absurd he' he
  · obtain ⟨-, -, -, -, -, -, -, hanswer⟩ := microStep_next he hmicro
    exact hanswer

end Sys2Proof.Machine
end

section
/-! The words of single commands: how many extension words each has (R72), and words the spec writes out. -/

namespace Sys2Proof.Machine

/-- Settles O5: the payload of SEND and TELL is counted by `packBytes_length`; the other counts are the encoder's own. -/
theorem extensionWordCount : Obligations.ExtensionWordCount := by
  refine ⟨fun pin baud => ⟨rfl, rfl⟩, fun a bytes => ⟨packBytes_length bytes, packBytes_length bytes⟩, ?_⟩
  intro i hlisten htalk hsend htell
  cases i
  case listen pin baud => exact absurd rfl (hlisten pin baud)
  case talk pin baud => exact absurd rfl (htalk pin baud)
  case send a bytes => exact absurd rfl (hsend a bytes)
  case tell a bytes => exact absurd rfl (htell a bytes)
  all_goals rfl

/-- Settles O7: the decoder, run on each of the fifteen. -/
theorem writtenOutWordsDecode : Obligations.WrittenOutWordsDecode := by
  unfold Obligations.WrittenOutWordsDecode
  decide

end Sys2Proof.Machine
end

section
/-! The FIFO law (R106 to R111): one `Push` or `Pop` that answers keeps the bytes in their order, and so does any
sequence of them. -/

namespace Sys2Proof.Machine

variable {c : Nat} {f f' : Fifo}

/-- A `Push` that answers had room (R107). -/
theorem Fifo.contents_of_push_eq_some (hc : ∃ k : Fin 16, c = 2 ^ k.val) (hf : f.Wf c) {b : Byte}
    (h : f.push c b = some f') : f'.Wf c ∧ f'.contents c = f.contents c ++ [b] := by
  have hroom : f.size < c := by
    refine (Fifo.size_le hf).lt_of_ne fun hfull => ?_
    simp [Fifo.push_full hfull] at h
  obtain ⟨f₁, hpush, hwf, -, -, hcont⟩ := Fifo.push_spec hc hf hroom b
  obtain rfl := Option.some.inj (h.symm.trans hpush)
  exact ⟨hwf, hcont⟩

/-- A `Pop` that answers took the oldest byte (R108). -/
theorem Fifo.contents_of_pop_eq_some (hf : f.Wf c) {b : Byte} (h : f.pop c = some (b, f')) :
    f'.Wf c ∧ f.contents c = b :: f'.contents c := by
  obtain ⟨b', hpeek, heq⟩ := Option.map_eq_some_iff.mp h
  obtain ⟨rfl, rfl⟩ := Prod.mk.inj heq
  obtain ⟨hpos, bs, hcont⟩ := Fifo.peek_eq_some hpeek
  obtain ⟨-, -, htail⟩ := Fifo.pop_spec hcont
  exact ⟨Fifo.wf_advance hf hpos, by rw [hcont, htail]⟩

/-- The law of R111, with the well-formedness it rests on, from any well-formed FIFO. -/
theorem Fifo.contents_of_run_eq_some (hc : ∃ k : Fin 16, c = 2 ^ k.val) (ops : List FifoOp) :
    ∀ {f : Fifo} {out : List Byte}, f.Wf c → f.run c ops = some (f', out) →
      f'.Wf c ∧ out ++ f'.contents c = f.contents c ++ pushed ops := by
  induction ops with
  | nil =>
    intro f out hf h
    obtain ⟨rfl, rfl⟩ := Prod.mk.inj (Option.some.inj h)
    exact ⟨hf, (List.append_nil _).symm⟩
  | cons op ops ih =>
    intro f out hf h
    cases op with
    | push b =>
      obtain ⟨f₁, hpush, hrun⟩ := Option.bind_eq_some_iff.mp h
      obtain ⟨hwf₁, hcont₁⟩ := Fifo.contents_of_push_eq_some hc hf hpush
      obtain ⟨hwf, hlaw⟩ := ih hwf₁ hrun
      refine ⟨hwf, ?_⟩
      calc out ++ f'.contents c = f₁.contents c ++ pushed ops := hlaw
        _ = f.contents c ++ ([b] ++ pushed ops) := by rw [hcont₁, List.append_assoc]
    | pop =>
      obtain ⟨⟨b, f₁⟩, hpop, hmap⟩ := Option.bind_eq_some_iff.mp h
      obtain ⟨⟨f₂, out'⟩, hrun, heq⟩ := Option.map_eq_some_iff.mp hmap
      obtain ⟨rfl, rfl⟩ := Prod.mk.inj heq
      obtain ⟨hwf₁, hcont₁⟩ := Fifo.contents_of_pop_eq_some hf hpop
      obtain ⟨hwf, hlaw⟩ := ih hwf₁ hrun
      refine ⟨hwf, ?_⟩
      calc b :: (out' ++ f₂.contents c) = b :: (f₁.contents c ++ pushed ops) := by rw [hlaw]
        _ = f.contents c ++ pushed ops := by rw [hcont₁, List.cons_append]

/-- Settles O20: it is `Fifo.contents_of_run_eq_some` at a legal capacity. -/
theorem fifoIsFirstInFirstOut : Obligations.FifoIsFirstInFirstOut :=
  fun _ _ _ ops _ ⟨_, _, hcap, _⟩ hf h => Fifo.contents_of_run_eq_some hcap ops hf h

/-- Settles O19: a clause for each primitive, by its lemmas. -/
theorem fifoPrimitivesActOnTheContents : Obligations.FifoPrimitivesActOnTheContents := by
  intro p f ⟨_, _, hcap, _⟩ hf
  refine ⟨Fifo.contents_length .., Fifo.size_le hf, fun b hfull => Fifo.push_full hfull b,
    fun b hroom => Fifo.push_spec hcap hf hroom b, fun hempty => ⟨Fifo.pop_empty hempty, Fifo.peek_empty hempty⟩,
    fun b bs hcont => ?_, rfl, rfl, rfl, Fifo.contents_eq_nil.mpr rfl⟩
  obtain ⟨hpeek, hpop, htail⟩ := Fifo.pop_spec hcont
  obtain ⟨hpos, -⟩ := Fifo.peek_eq_some hpeek
  exact ⟨hpeek, _, hpop, Fifo.wf_advance hf hpos, rfl, rfl, rfl, htail⟩

end Sys2Proof.Machine
end

section
/-! Clock arithmetic (R100 to R102): elapsed time modulo the clock's modulus, and the bit period of a baud rate. -/

namespace Sys2Proof.Machine

/-- Both branches of `elapsed` are the difference modulo `M` (R100): in the second the clock has wrapped once. -/
theorem elapsed_eq_emod {m now since : Nat} (hnow : now < m) (hsince : since < m) :
    (elapsed m now since : Int) = ((now : Int) - since) % m := by
  unfold elapsed
  split
  · rw [Int.emod_eq_of_lt (by omega) (by omega)]; omega
  · rw [← Int.add_emod_right, Int.emod_eq_of_lt (by omega) (by omega)]; omega

/-- Settles O17: the difference by `elapsed_eq_emod`, the range by `elapsed_lt`. -/
theorem elapsedIsTheDifferenceModuloM : Obligations.ElapsedIsTheDifferenceModuloM :=
  fun _ _ _ hnow hsince => ⟨elapsed_eq_emod hnow hsince, elapsed_lt hnow⟩

/-- Settles O18: it is `elapsed_add`. -/
theorem elapsedIsTheTrueTimeModuloM : Obligations.ElapsedIsTheTrueTimeModuloM :=
  fun _ _ _ hsince => ⟨elapsed_add hsince, fun hd => (elapsed_add hsince).trans (Nat.mod_eq_of_lt hd)⟩

/-- The 32-bit register holds the whole bit period, which is never longer than a second (R102). -/
theorem bitPeriod_toNat (baud : Word) : (bitPeriod baud).toNat = 1000000 / baud.toNat := by
  have : 1000000 / baud.toNat ≤ 1000000 := Nat.div_le_self ..
  exact Nat.mod_eq_of_lt (by omega)

theorem newChannel_period (p : Config) (k : Kind) (pin : Byte) (baud : Word) :
    (newChannel p k pin baud).period = 1000000 / baud.toNat :=
  bitPeriod_toNat baud

/-- Settles O45: by `newChannel_period`; a baud rate above 1000000 divides it zero times. -/
theorem bitPeriodOfABaudRate : Obligations.BitPeriodOfABaudRate :=
  fun p k pin baud _ =>
    have hperiod := newChannel_period p k pin baud
    ⟨hperiod, congrArg (· / 2) hperiod, fun hlarge => hperiod.trans (Nat.div_eq_of_lt hlarge)⟩

end Sys2Proof.Machine
end

section
/-! Bit assembly and selection (R112, R113, R55): where each sampled level lies in the accumulator, and a byte as the sum
of its frame bits. -/

namespace Sys2Proof.Machine

/-- The accumulator after the data bits `0 .. n-1` were sampled as `level` says, from 0 (R112). -/
def assembled (o : BitOrder) (level : Nat → Level) (n : Nat) : Byte :=
  (List.range n).foldl (fun acc k => accInsert o acc k (level k)) 0

@[simp] theorem assembled_zero (o : BitOrder) (level : Nat → Level) : assembled o level 0 = 0 := rfl

theorem assembled_succ (o : BitOrder) (level : Nat → Level) (n : Nat) :
    assembled o level (n + 1) = accInsert o (assembled o level n) n (level n) := by
  simp [assembled, List.range_succ]

/-- LSB_FIRST puts data bit `k` at weight `2^k`. -/
theorem getLsbD_accInsert_lsbFirst (acc : Byte) (k : Nat) (v : Level) {i : Nat} (hi : i < 8) :
    (accInsert .lsbFirst acc k v).getLsbD i = (acc.getLsbD i || (decide (i = k) && v)) := by
  rw [accInsert, BitVec.getLsbD_or, BitVec.getLsbD_shiftLeft]
  obtain hlt | rfl | hgt := lt_trichotomy i k
  · simp [hlt, hlt.ne]
  · simp [hi]
  · simp [hi, hgt.ne', Nat.sub_ne_zero_of_lt hgt]

/-- MSB_FIRST puts the new bit at weight 1 and doubles the weight of the others. -/
theorem getLsbD_accInsert_msbFirst (acc : Byte) (k : Nat) (v : Level) {i : Nat} (hi : i < 8) :
    (accInsert .msbFirst acc k v).getLsbD i = if i = 0 then v else acc.getLsbD (i - 1) := by
  cases i with
  | zero => simp [accInsert]
  | succ i => simpa [accInsert] using fun _ => hi

theorem getLsbD_assembled_lsbFirst (level : Nat → Level) (n : Nat) {i : Nat} (hi : i < 8) :
    (assembled .lsbFirst level n).getLsbD i = (decide (i < n) && level i) := by
  induction n with
  | zero => simp
  | succ n ih =>
    rw [assembled_succ, getLsbD_accInsert_lsbFirst _ _ _ hi, ih]
    by_cases h : i = n
    · simp [h]
    · simp [h, show i < n + 1 ↔ i < n by omega]

theorem getLsbD_assembled_msbFirst (level : Nat → Level) (n : Nat) :
    ∀ {i : Nat}, i < 8 → (assembled .msbFirst level n).getLsbD i = (decide (i < n) && level (n - 1 - i)) := by
  induction n with
  | zero => simp
  | succ n ih =>
    intro i hi
    rw [assembled_succ, getLsbD_accInsert_msbFirst _ _ _ hi]
    by_cases h : i = 0
    · simp [h]
    · rw [if_neg h, ih (by omega)]
      simp [show i - 1 < n ↔ i < n + 1 by omega, show n - 1 - (i - 1) = n - i by omega]

/-- The frame bits of the assembled byte are the levels it was assembled from (R112, R113). -/
theorem frameBit_assembled (o : BitOrder) (level : Nat → Level) {k : Nat} (hk : k < 8) :
    frameBit o (assembled o level 8) k = level k := by
  cases o with
  | lsbFirst => rw [frameBit, getLsbD_assembled_lsbFirst level 8 hk, decide_eq_true hk, Bool.true_and]
  | msbFirst =>
    rw [frameBit, getLsbD_assembled_msbFirst level 8 (by omega)]
    simp [show 7 - k < 8 by omega, show 7 - (7 - k) = k by omega]

/-- The weight of data bit `k` (R55). -/
def bitWeight (o : BitOrder) (k : Nat) : Nat :=
  match o with
  | .lsbFirst => 2 ^ k
  | .msbFirst => 2 ^ (7 - k)

/-- A byte is the sum of the weights of its frame bits that are high (R55). -/
theorem toNat_eq_sum_frameBit (o : BitOrder) (b : Byte) :
    b.toNat = ((List.range 8).map fun k => (frameBit o b k).toNat * bitWeight o k).sum := by
  revert b
  cases o <;> decide

/-- Settles O21: the frame bits by `frameBit_assembled`, and the byte is the sum of theirs. -/
theorem assembledByteHasTheSampledBits : Obligations.AssembledByteHasTheSampledBits := by
  intro o v hv acc
  have hbits : ∀ k ∈ List.range 8, frameBit o acc k = v.getD k false := fun k hk =>
    frameBit_assembled o (v.getD · false) (List.mem_range.mp hk)
  constructor
  · rw [List.map_congr_left hbits, ← hv]
    exact List.ext_getElem (by simp) fun k _ hk => by simp [hk]
  · rw [toNat_eq_sum_frameBit o acc]
    exact congrArg List.sum (List.map_congr_left fun k hk => congrArg (·.toNat * _) (hbits k hk))

end Sys2Proof.Machine
end

section
/-! The commands on one channel (R120 to R125, R203): the handle check of a ready block, what the queries answer, and what
RESET writes and leads to. -/

namespace Sys2Proof.Machine

variable {s : State} {k : Kind} {a : Byte} {ch : Channel}

/-! ### The handle check -/

theorem accept_withChannel_none (hs : s.Ready) (ha : s.count k ≤ a.toNat) (header : Word) (body : Channel → Result) :
    accept s (withChannel s k a header body) = .next (s.faulted .invalidHandle header) :=
  (accept_ready hs _).trans (withChannel_none ha header body)

theorem accept_withChannel_some (hs : s.Ready) (hc : s.channel ⟨k, a.toNat⟩ = some ch) (header : Word)
    (body : Channel → Result) : accept s (withChannel s k a header body) = body ch :=
  (accept_ready hs _).trans (withChannel_some hc header body)

/-- Settles O13: each of these commands is its handle check first, so `accept_withChannel_none` holds of it. -/
theorem badHandlesFault : Obligations.BadHandlesFault := by
  refine fun s a hs => ⟨fun ha => ?_, fun ha => ?_⟩
  · have fault := accept_withChannel_none (k := .talker) hs ha
    rintro i (⟨bytes, rfl⟩ | ⟨bytes, rfl⟩ | rfl | rfl | rfl | rfl) <;> exact fault _ _
  · have fault := accept_withChannel_none (k := .listener) hs ha
    rintro i (rfl | rfl | rfl | ⟨n, rfl⟩ | rfl | rfl | rfl | rfl) <;> exact fault _ _

/-! ### The queries and RESET on an allocated channel -/

theorem exec_bufferedCount (hs : s.Ready) (hc : s.channel ⟨k, a.toNat⟩ = some ch) :
    exec (.bufferedCount k a) s = .next (s.answered (BitVec.ofNat 16 ch.buf.size)) :=
  accept_withChannel_some hs hc _ _

theorem exec_isAvailable (hs : s.Ready) (hc : s.channel ⟨k, a.toNat⟩ = some ch) :
    exec (.isAvailable k a) s = .next (s.answered (flagValue ch.available)) :=
  accept_withChannel_some hs hc _ _

theorem exec_isActivated (hs : s.Ready) (hc : s.channel ⟨k, a.toNat⟩ = some ch) :
    exec (.isActivated k a) s = .next (s.answered (flagValue ch.activated)) :=
  accept_withChannel_some hs hc _ _

theorem exec_reset (hs : s.Ready) (hc : s.channel ⟨k, a.toNat⟩ = some ch) :
    exec (.reset k a) s = .next ((s.setChannel ⟨k, a.toNat⟩ ch.reset).answered 0) :=
  accept_withChannel_some hs hc _ _

/-- A flag's answer as the response word it returns (R79). -/
theorem answered_flagValue (s : State) (b : Bool) :
    s.answered (flagValue b) = { s with responses := s.responses ++ [0#31 ++ BitVec.ofBool b] } := by
  rw [State.answered, response_flag]

/-- Settles O22: on a channel of either kind, by what each query answers. -/
theorem queriesReportAndChangeNothing : Obligations.QueriesReportAndChangeNothing := by
  intro s a ch hs
  have queries (k : Kind) (hc : s.channel ⟨k, a.toNat⟩ = some ch) :=
    And.intro (exec_bufferedCount hs hc) <| And.intro
      ((exec_isAvailable hs hc).trans (congrArg _ (answered_flagValue s ch.available)))
      ((exec_isActivated hs hc).trans (congrArg _ (answered_flagValue s ch.activated)))
  exact ⟨queries .talker, queries .listener⟩

/-- Settles O23: `exec_reset`, on a channel of either kind. -/
theorem resetZeroesFiveFields : Obligations.ResetZeroesFiveFields :=
  fun _ _ _ hs => ⟨exec_reset (k := .talker) hs, exec_reset (k := .listener) hs⟩

/-! ### The step after a reset -/

variable {p : Config} {now : Nat}

/-- An unavailable listener samples its line at every step (R132, R133). -/
theorem rxStep_of_unavailable (hav : ch.available = false) (e : Env) :
    rxStep p ch now e = (unavailableStep p ch now (e.readLine ch.pin).1, (e.readLine ch.pin).2) := by
  have hphase : ch.rxPhase = .unavailable := by simp [Channel.rxPhase, hav]
  rw [rxStep, if_pos (by simp [Channel.samplesNow, hphase])]
  simp only [rxAction, hphase]

/-- A line high for `MIN_AVAILABLE_DELTA` makes the listener available (R133). -/
theorem unavailableStep_high (hdue : ch.due p now p.minAvailableDelta = true) :
    unavailableStep p ch now true = { ch with available := true, previousLevel := true } := by
  simp [unavailableStep, hdue]

/-- The time anchor of a reset channel is 0, so that the elapsed time is the clock value itself (R228). -/
theorem due_reset (p : Config) (ch : Channel) (now x : Nat) : ch.reset.due p now x = true ↔ x ≤ now := by
  simp [Channel.due_iff, Channel.reset, elapsed]

/-- An idle talker wakes up for the byte at the head of its FIFO (R162). -/
theorem txStep_wakeUp {b : Byte} (hact : ch.activated = false) (hmid : ch.midActivated = false)
    (hpeek : ch.buf.peek p.bufferMaxSize = some b) :
    txStep p ch now =
      ({ ch with accumulator := b, previousLevel := true, timeAnchor := now, midActivated := true },
       [.write ch.pin true now]) := by
  simp [txStep, hact, hmid, idleStep, hpeek]

/-- Settles O24: the listener's time test counts from 0 (`due_reset`), and the talker is idle with its FIFO as it was. -/
theorem resetRestartsTheTimerAndTheFrame : Obligations.ResetRestartsTheTimerAndTheFrame := by
  refine ⟨fun p ch now e hav hhigh hnow => ?_, fun p ch now b bs _ _ hcont => ?_⟩
  · have hlevel : (e.readLine ch.reset.pin).1 = true := hhigh
    rw [rxStep_of_unavailable (ch := ch.reset) hav, hlevel, unavailableStep_high ((due_reset p ch now _).mpr hnow)]
  · exact txStep_wakeUp (ch := ch.reset) rfl rfl (Fifo.pop_spec hcont).1

end Sys2Proof.Machine
end

section
/-! A listener's step, phase by phase (R130 to R137): what each phase writes, and what all of them do to the byte in
progress and to the FIFO. -/

namespace Sys2Proof.Machine

variable {p : Config} {ch : Channel} {now : Nat}

/-! ### UNAVAILABLE and HUNT -/

theorem unavailableStep_low : unavailableStep p ch now false = { ch with timeAnchor := now, previousLevel := false } :=
  rfl

theorem unavailableStep_tooSoon (hdue : ¬ ch.due p now p.minAvailableDelta = true) :
    unavailableStep p ch now true = { ch with previousLevel := true } := by
  simp [unavailableStep, hdue]

/-- Settles O27: the step is `unavailableStep`, whose branches are a low, a high long enough and a high too soon. -/
theorem unavailableListenerStep : Obligations.UnavailableListenerStep := by
  intro p ch now e hav
  rw [rxStep_of_unavailable hav]
  cases (e.readLine ch.pin).1 with
  | false => rw [unavailableStep_low, if_pos rfl]
  | true =>
    rw [if_neg (by decide)]
    by_cases hdue : ch.due p now p.minAvailableDelta = true
    · rw [unavailableStep_high hdue, if_pos (Channel.due_iff.mp hdue)]
    · rw [unavailableStep_tooSoon hdue, if_neg (hdue ∘ Channel.due_iff.mpr)]

/-- A hunting listener samples its line at every step (R132, R134). -/
theorem rxStep_of_hunt (hav : ch.available = true) (hact : ch.activated = false) (hmid : ch.midActivated = false)
    (e : Env) : rxStep p ch now e = (huntStep p ch now (e.readLine ch.pin).1, (e.readLine ch.pin).2) := by
  have hphase : ch.rxPhase = .hunt := by simp [Channel.rxPhase, hav, hact, hmid]
  rw [rxStep, if_pos (by simp [Channel.samplesNow, hphase])]
  simp only [rxAction, hphase]

/-- A sample equal to the one before it is no edge, and HUNT writes nothing. -/
theorem huntStep_steady {level : Level} (hprev : ch.previousLevel = level) : huntStep p ch now level = ch := by
  subst hprev
  have hrising : ¬(ch.previousLevel = true ∧ ch.previousLevel = false) := by simp
  have hfalling : ¬(ch.previousLevel = false ∧ ch.previousLevel = true ∧ ch.due p now ch.halfPeriod = true) :=
    fun ⟨hlow, hhigh, _⟩ => Bool.false_ne_true (hlow.symm.trans hhigh)
  simp only [huntStep, if_neg hrising, if_neg hfalling]

theorem huntStep_rising (hprev : ch.previousLevel = false) :
    huntStep p ch now true = { ch with timeAnchor := now, previousLevel := true } := by
  simp [huntStep, hprev]

theorem huntStep_falling (hprev : ch.previousLevel = true) :
    huntStep p ch now false =
      if ch.due p now ch.halfPeriod = true then
        { ch with timeAnchor := now, midActivated := true, previousLevel := false }
      else { ch with previousLevel := false } := by
  by_cases hdue : ch.due p now ch.halfPeriod = true <;> simp [huntStep, hprev, hdue]

/-- Settles O28: the step is `huntStep`, by the sample and the one before it. -/
theorem huntingListenerStep : Obligations.HuntingListenerStep := by
  intro p ch now e hav hact hmid
  rw [rxStep_of_hunt hav hact hmid]
  cases (e.readLine ch.pin).1 <;> cases hprev : ch.previousLevel
  · rw [huntStep_steady hprev]
  · simp only [huntStep_falling hprev, Channel.due_iff]; rfl
  · rw [huntStep_rising hprev]
  · rw [huntStep_steady hprev]

/-! ### CONFIRM -/

/-- A listener in CONFIRM samples once half a bit period has elapsed (R132, R135). -/
theorem rxStep_of_confirm (hav : ch.available = true) (hact : ch.activated = false) (hmid : ch.midActivated = true)
    (e : Env) : rxStep p ch now e =
      if ch.due p now ch.halfPeriod = true then (confirmStep p ch now (e.readLine ch.pin).1, (e.readLine ch.pin).2)
      else (ch, e) := by
  have hphase : ch.rxPhase = .confirm := by simp [Channel.rxPhase, hav, hact, hmid]
  simp only [rxStep, Channel.samplesNow, rxAction, hphase]

theorem confirmStep_low : confirmStep p ch now false =
    { ch with previousLevel := false, activated := true, timeAnchor := (ch.timeAnchor + ch.halfPeriod) % p.modulus } :=
  rfl

theorem confirmStep_high : confirmStep p ch now true =
    { ch with previousLevel := true, midActivated := false, timeAnchor := now } :=
  rfl

/-- Settles O29: the step is `confirmStep` once it is due, by the sample. -/
theorem confirmingListenerStep : Obligations.ConfirmingListenerStep := by
  intro p ch now e hav hact hmid
  simp only [rxStep_of_confirm hav hact hmid, Channel.due_iff]
  refine if_congr Iff.rfl ?_ rfl
  cases (e.readLine ch.pin).1 with
  | false => rw [confirmStep_low]; rfl
  | true => rw [confirmStep_high]

/-! ### SAMPLING -/

/-- A listener in SAMPLING samples once a bit period has elapsed (R132, R136). -/
theorem rxStep_of_sampling (hav : ch.available = true) (hact : ch.activated = true) (e : Env) :
    rxStep p ch now e =
      if ch.due p now ch.period = true then (samplingStep p ch (e.readLine ch.pin).1, (e.readLine ch.pin).2)
      else (ch, e) := by
  have hphase : ch.rxPhase = .sampling := by simp [Channel.rxPhase, hav, hact]
  simp only [rxStep, Channel.samplesNow, rxAction, hphase]

/-- The record after one sampled bit, before a byte is completed (R136). -/
def Channel.withBit (p : Config) (ch : Channel) (level : Level) : Channel :=
  { ch with previousLevel := level, accumulator := accInsert p.bitOrder ch.accumulator ch.bitsDone.toNat level
            bitsDone := ch.bitsDone + 1, timeAnchor := (ch.timeAnchor + ch.period) % p.modulus }

/-- A bit that is not the eighth (R136). -/
theorem samplingStep_bit (hbits : ch.bitsDone.toNat < 7) (level : Level) :
    samplingStep p ch level = ch.withBit p level := by
  have hlast : ch.bitsDone + 1 ≠ 8 := by bv_omega
  rw [samplingStep, if_neg hlast]
  rfl

/-- The eighth bit (R137). -/
theorem samplingStep_lastBit (hbits : ch.bitsDone.toNat = 7) (level : Level) :
    samplingStep p ch level = byteComplete p (ch.withBit p level) := by
  have hlast : ch.bitsDone + 1 = 8 := by bv_omega
  rw [samplingStep, if_pos hlast]
  rfl

/-- A completed byte with room for it leaves the FIFO's oldest byte where it was (R137). -/
theorem byteComplete_start (hp : p.Legal) (hwf : ch.buf.Wf p.bufferMaxSize) (hroom : ch.buf.size < p.bufferMaxSize) :
    (byteComplete p ch).buf.start = ch.buf.start := by
  obtain ⟨-, -, hcap, -⟩ := hp
  obtain ⟨buf', hpush, -, hstart, -⟩ := Fifo.push_spec hcap hwf hroom ch.accumulator
  simp [byteComplete, hroom, hpush, Channel.reset, hstart]

/-- Settles O30: before the bit period nothing, then `Channel.withBit`, and with the eighth bit `byteComplete`. -/
theorem samplingListenerStep : Obligations.SamplingListenerStep := by
  intro p ch now e hp hwf hav hact _ acc
  have hstep := rxStep_of_sampling (p := p) (now := now) hav hact e
  refine ⟨fun hsoon => ?_, fun hdue hbits => ?_, fun hdue hbits => ?_⟩
  · rw [hstep, if_neg fun hdue => (Channel.due_iff.mp hdue).not_gt hsoon]
  · rw [hstep, if_pos (Channel.due_iff.mpr hdue), samplingStep_bit hbits]
    rfl
  · rw [hstep, if_pos (Channel.due_iff.mpr hdue), samplingStep_lastBit hbits]
    set ch' := ch.withBit p (e.readLine ch.pin).1
    obtain ⟨-, hbuf⟩ := byteComplete_buf hp (ch := ch') hwf
    refine ⟨(byteComplete p ch').buf, rfl, fun hroom => ?_, fun hfull => ?_⟩
    · obtain ⟨-, hcont⟩ | ⟨hfull, -⟩ := hbuf
      · exact ⟨hcont, byteComplete_start hp hwf hroom⟩
      · exact absurd hfull hroom.ne
    · obtain ⟨hroom, -⟩ | ⟨-, hbuf⟩ := hbuf
      · exact absurd hfull hroom.ne
      · exact hbuf

/-! ### The byte in progress -/

theorem rxPhase_eq_sampling_iff : ch.rxPhase = .sampling ↔ ch.available = true ∧ ch.activated = true := by
  unfold Channel.rxPhase
  cases ch.available with
  | false => simp
  | true => cases ch.activated <;> cases ch.midActivated <;> decide

/-- Only SAMPLING writes the bit count or the FIFO (R133 to R137). -/
theorem rxAction_keepsByte (hphase : ch.rxPhase ≠ .sampling) (level : Level) :
    (rxAction p ch now level).bitsDone = ch.bitsDone ∧ (rxAction p ch now level).buf = ch.buf := by
  unfold rxAction
  cases h : ch.rxPhase with
  | sampling => exact absurd h hphase
  | unavailable =>
    dsimp only [unavailableStep]
    repeat' split
    all_goals exact ⟨rfl, rfl⟩
  | confirm =>
    dsimp only [confirmStep]
    split <;> exact ⟨rfl, rfl⟩
  | hunt =>
    dsimp only [huntStep]
    repeat' split
    all_goals exact ⟨rfl, rfl⟩

theorem rxStep_keepsByte (hphase : ch.rxPhase ≠ .sampling) (e : Env) :
    (rxStep p ch now e).1.bitsDone = ch.bitsDone ∧ (rxStep p ch now e).1.buf = ch.buf := by
  obtain h | h := rxStep_cases p ch now e <;> rw [h]
  · exact rxAction_keepsByte hphase _
  · exact ⟨rfl, rfl⟩

/-- A completed byte grows the FIFO by one if there is room, and is dropped if there is none (R137). -/
theorem byteComplete_size (hp : p.Legal) (hwf : ch.buf.Wf p.bufferMaxSize) :
    (ch.buf.size < p.bufferMaxSize ∧ (byteComplete p ch).buf.size = ch.buf.size + 1) ∨
    (ch.buf.size = p.bufferMaxSize ∧ (byteComplete p ch).buf = ch.buf) := by
  obtain ⟨-, ⟨hroom, hcont⟩ | hfull⟩ := byteComplete_buf hp hwf
  · have hlength := congrArg List.length hcont
    rw [List.length_append, Fifo.contents_length, Fifo.contents_length] at hlength
    exact .inl ⟨hroom, hlength⟩
  · exact .inr hfull

/-- Settles O58: outside SAMPLING, and before the sample is due, the byte is kept; a due sample is one more bit or the
eighth. -/
theorem oneByteForEachSynchronizedWindow : Obligations.OneByteForEachSynchronizedWindow := by
  intro p ch now e hp hwf ch'
  obtain ⟨⟨-, -, -, hbuf, -⟩, -, hbits, -⟩ := hwf
  by_cases hphase : ch.rxPhase = .sampling
  · obtain ⟨hav, hact⟩ := rxPhase_eq_sampling_iff.mp hphase
    have hstep := rxStep_of_sampling (p := p) (now := now) hav hact e
    by_cases hdue : ch.due p now ch.period = true
    · have hch' : ch' = samplingStep p ch _ := congrArg Prod.fst (hstep.trans (if_pos hdue))
      obtain hbit | hlast : ch.bitsDone.toNat < 7 ∨ ch.bitsDone.toNat = 7 := by omega
      · rw [hch', samplingStep_bit hbit]
        exact .inr (.inl ⟨bitsDone_succ rfl hbits, rfl, hact, hact⟩)
      · rw [hch', samplingStep_lastBit hlast]
        exact .inr (.inr ⟨hlast, rfl, hact, rfl, rfl, byteComplete_size (ch := ch.withBit p _) hp hbuf⟩)
    · have hch' : ch' = ch := congrArg Prod.fst (hstep.trans (if_neg hdue))
      rw [hch']
      exact .inl ⟨rfl, rfl⟩
  · obtain ⟨hbits', hbuf'⟩ := rxStep_keepsByte (p := p) (now := now) hphase e
    exact .inl ⟨congrArg BitVec.toNat hbits', hbuf'⟩

end Sys2Proof.Machine
end

section
/-! The receive commands on an allocated listener (R139 to R142): the byte READ and PEEK answer, and which of
its outcomes each acceptance has. -/

namespace Sys2Proof.Machine

variable {s : State} {a : Byte} {ch : Channel}

/-! ### READ and PEEK -/

/-- A byte's answer as the response word it returns (R79). -/
theorem answered_byte (s : State) (b : Byte) :
    s.answered (b.setWidth 16) = { s with responses := s.responses ++ [0#24 ++ b] } := by
  rw [State.answered, response_byte]

theorem exec_read {b : Byte} {buf' : Fifo} (hs : s.Ready) (hc : s.listeners[a.toNat]? = some ch)
    (hpop : ch.buf.pop s.cfg.bufferMaxSize = some (b, buf')) :
    exec (.read a) s = .next
      (({ s with listeners := s.listeners.set a.toNat { ch with buf := buf' } } : State).answered (b.setWidth 16)) := by
  refine (accept_withChannel_some (k := .listener) hs hc _ _).trans ?_
  rw [hpop]
  rfl

theorem exec_peek {b : Byte} (hs : s.Ready) (hc : s.listeners[a.toNat]? = some ch)
    (hpeek : ch.buf.peek s.cfg.bufferMaxSize = some b) :
    exec (.peek a) s = .next (s.answered (b.setWidth 16)) := by
  refine (accept_withChannel_some (k := .listener) hs hc _ _).trans ?_
  rw [hpeek]
  rfl

/-- Settles O25: `Fifo.pop_spec` gives the byte and the bytes left. -/
theorem readPopsTheOldestByte : Obligations.ReadPopsTheOldestByte := by
  intro s a ch b bs hs _ hc _ hcont
  obtain ⟨-, hpop, hrest⟩ := Fifo.pop_spec hcont
  exact ⟨(exec_read hs hc hpop).trans (congrArg _ (answered_byte _ b)), hrest⟩

/-- Settles O26: `Fifo.pop_spec` gives the byte. -/
theorem peekReturnsTheOldestByte : Obligations.PeekReturnsTheOldestByte := by
  intro s a ch b bs hs _ hc _ hcont
  obtain ⟨hpeek, -⟩ := Fifo.pop_spec hcont
  exact (exec_peek hs hc hpeek).trans (congrArg _ (answered_byte s b))

/-! ### Acceptance of AWAIT and RECIEVE -/

theorem encodeHeader_await (a : Byte) : encodeHeader (.await a) = 0xE8#8 ++ a ++ 0#16 := rfl

theorem encodeHeader_recieve (a : Byte) (n : BitVec 16) : encodeHeader (.recieve a n) = 0xC8#8 ++ a ++ n := rfl

theorem exec_await (hs : s.Ready) (hc : s.listeners[a.toNat]? = some ch) :
    exec (.await a) s =
      if ch.configured = false then .next (s.faulted .notConfigured (encodeHeader (.await a)))
      else if ch.available = true then .next (s.answered 0)
      else .next { s with engine := .await a.toNat } :=
  accept_withChannel_some (k := .listener) hs hc _ _

/-- Settles O31: a clause for each branch of `exec_await`. -/
theorem awaitAcceptance : Obligations.AwaitAcceptance := by
  intro s a ch hs hc
  rw [exec_await hs hc]
  refine ⟨fun hconf => ?_, fun hconf hav => ?_, fun hconf hav => ?_⟩
  · rw [if_pos hconf, encodeHeader_await]
  · rw [if_neg (by simp [hconf]), if_pos hav]
    rfl
  · rw [if_neg (by simp [hconf]), if_neg (by simp [hav])]

theorem exec_recieve {n : BitVec 16} (hs : s.Ready) (hc : s.listeners[a.toNat]? = some ch) :
    exec (.recieve a n) s =
      if n.toNat > s.cfg.bufferMaxSize then .next (s.faulted .receiveTooLong (encodeHeader (.recieve a n)))
      else if ch.configured = false then .next (s.faulted .notConfigured (encodeHeader (.recieve a n)))
      else if ch.midActivated = true ∨ ch.activated = true then
        .next (s.faulted .mixedPath (encodeHeader (.recieve a n)))
      else .next { s with engine := .recieve a.toNat n.toNat .avail 0 } :=
  accept_withChannel_some (k := .listener) hs hc _ _

/-- Settles O33: `exec_recieve`, each of whose branches is a next state. -/
theorem recieveAcceptance : Obligations.RecieveAcceptance := by
  intro s a n ch hs hc
  rw [exec_recieve hs hc, encodeHeader_recieve]
  simp only [apply_ite Host.Outcome.next]

end Sys2Proof.Machine
end

section
/-! The micro-steps of AWAIT and RECIEVE (R141, R143, R144): each reads the clock once, steps its listener and tests
whether the command is complete. And the waits of RECIEVE and TELL that no clock value ends (R143, R170, R210). -/

namespace Sys2Proof.Machine

variable {s : State} {i : Nat} {ch : Channel}

/-! ### AWAIT -/

/-- A micro-step of AWAIT is one step of its listener, and completes once the listener is available (R141). -/
theorem step_await (hf : s.fault = none) (hr : s.resetRequest = false) (he : s.engine = .await i)
    (hc : s.listeners[i]? = some ch) :
    let s' := listenerStep ⟨.listener, i⟩ ch s
    step s = .next (if (rxStep s.cfg ch s.clockNow s.envAfterClock).1.available = true then s'.complete else s') := by
  have hch : s.channel ⟨.listener, i⟩ = some ch := hc
  rw [step_eq_microStep hr hf (by simp [he])]
  simp only [microStep, he, awaitMicro, hch, listenerStep_channel hch, Option.any_some, apply_ite Host.Outcome.next]

theorem listenerStep_eq (s : State) (i : Nat) (ch : Channel) :
    listenerStep ⟨.listener, i⟩ ch s =
      { s with listeners := s.listeners.set i (rxStep s.cfg ch s.clockNow s.envAfterClock).1
               env := (rxStep s.cfg ch s.clockNow s.envAfterClock).2 } := rfl

theorem State.complete_eq (s : State) : s.complete = { s with engine := .idle, responses := s.responses ++ [0] } := rfl

/-- Settles O32: the sample is a low, a high long enough, which makes the listener available, or a high too soon. -/
theorem awaitMicroStep : Obligations.AwaitMicroStep := by
  intro s i ch hf hr he hc hav
  dsimp only
  rw [step_await hf hr he hc, listenerStep_eq, rxStep_of_unavailable hav]
  cases (s.envAfterClock.readLine ch.pin).1 with
  | false => simp [unavailableStep_low, hav]
  | true =>
    by_cases hdue : ch.due s.cfg s.clockNow s.cfg.minAvailableDelta = true
    · simp [unavailableStep_high hdue, Channel.due_iff.mp hdue, State.complete_eq]
    · simp [unavailableStep_tooSoon hdue, mt Channel.due_iff.mpr hdue, hav]

/-! ### RECIEVE -/

/-- The state after a micro-step of RECIEVE that leaves the channel, the draws, the phase and the time `r` (R143), with
the completion test (R144). -/
def State.recieved (s : State) (i n : Nat) (r : Channel × Env × RecievePhase × Nat) : State :=
  if r.2.2.1 = .bytes ∧ r.1.buf.size = n then
    { s with listeners := s.listeners.set i r.1, env := r.2.1, engine := .idle, responses := s.responses ++ [0] }
  else { s with listeners := s.listeners.set i r.1, env := r.2.1, engine := .recieve i n r.2.2.1 r.2.2.2 }

theorem step_recieve {n ts : Nat} {ph : RecievePhase} (hf : s.fault = none) (hr : s.resetRequest = false)
    (he : s.engine = .recieve i n ph ts) (hc : s.listeners[i]? = some ch) :
    step s = .next (s.recieved i n (recieveStep s.cfg ch s.clockNow s.envAfterClock ph ts)) := by
  have hch : s.channel ⟨.listener, i⟩ = some ch := hc
  rw [step_eq_microStep hr hf (by simp [he])]
  simp only [microStep, he, recieveMicro, hch]
  exact (apply_ite Host.Outcome.next _ _ _).symm

/-- Only the phase RV_BYTES can complete (R144). -/
theorem State.recieved_of_ne_bytes {n ts : Nat} {e : Env} {ph : RecievePhase} (hph : ph ≠ .bytes) (s : State) :
    s.recieved i n (ch, e, ph, ts) =
      { s with listeners := s.listeners.set i ch, env := e, engine := .recieve i n ph ts } :=
  if_neg fun h => hph h.1

theorem State.recieved_bytes {n ts : Nat} {e : Env} (s : State) :
    s.recieved i n (ch, e, .bytes, ts) =
      if ch.buf.size = n then
        { s with listeners := s.listeners.set i ch, env := e, engine := .idle, responses := s.responses ++ [0] }
      else { s with listeners := s.listeners.set i ch, env := e, engine := .recieve i n .bytes ts } :=
  if_congr (and_iff_right rfl) rfl rfl

section
variable {p : Config} {now ts : Nat} {e : Env}

theorem recieveStep_unavailable (hav : ch.available = false) :
    recieveStep p ch now e .avail ts = ((rxStep p ch now e).1, (rxStep p ch now e).2, .avail, ts) := by
  rw [recieveStep, if_pos hav]

theorem recieveStep_available (hav : ch.available = true) :
    recieveStep p ch now e .avail ts = ({ ch with buf := ch.buf.clear }, e, .settle, now) := by
  rw [recieveStep, if_neg (by simp [hav])]

theorem recieveStep_settling (hsoon : elapsed p.modulus now ts < p.settlePeriods * ch.period) :
    recieveStep p ch now e .settle ts = (ch, e, .settle, ts) := by
  rw [recieveStep, if_neg (by omega)]

theorem recieveStep_settled (hdue : p.settlePeriods * ch.period ≤ elapsed p.modulus now ts) :
    recieveStep p ch now e .settle ts =
      ({ ch with previousLevel := (e.readLine ch.pin).1, timeAnchor := now }, (e.readLine ch.pin).2, .bytes, ts) := by
  rw [recieveStep, if_pos hdue]

end

/-- While the listener settles, a micro-step uses a clock read and does nothing else (R143). -/
theorem step_recieve_settling {n ts : Nat} (hf : s.fault = none) (hr : s.resetRequest = false)
    (he : s.engine = .recieve i n .settle ts) (hc : s.listeners[i]? = some ch)
    (hsoon : elapsed s.cfg.modulus s.clockNow ts < s.cfg.settlePeriods * ch.period) :
    step s = .next { s with env := s.envAfterClock } := by
  have hset : s.listeners.set i ch = s.listeners := by
    obtain ⟨_, rfl⟩ := List.getElem?_eq_some_iff.mp hc
    exact List.set_getElem_self _
  rw [step_recieve hf hr he hc, recieveStep_settling hsoon, State.recieved_of_ne_bytes (by decide), hset, ← he]

/-- Settles O34: a clause for each phase and branch of `recieveStep`. -/
theorem recieveMicroSteps : Obligations.RecieveMicroSteps := by
  intro s i n ts ph ch hf hr he hc now e r v
  have hstep := step_recieve hf hr he hc
  refine ⟨?_, ?_, ?_, ?_, ?_⟩
  · rintro rfl hav
    rw [hstep, recieveStep_unavailable hav, State.recieved_of_ne_bytes (by decide), ← he]
  · rintro rfl hav
    rw [hstep, recieveStep_available hav, State.recieved_of_ne_bytes (by decide)]
    rfl
  · rintro rfl hsoon
    exact step_recieve_settling hf hr he hc hsoon
  · rintro rfl hdue
    rw [hstep, recieveStep_settled hdue, State.recieved_bytes]
  · rintro rfl
    rw [hstep, recieveStep, State.recieved_bytes, ← he]

/-! ### Waits longer than the clock -/

/-- A step that answers while a blocking command runs is its micro-step. -/
theorem microStep_of_step {s t : State} (hr : s.resetRequest = false) (he : s.engine ≠ .idle) (h : step s = .next t) :
    s.fault = none ∧ microStep s = .next t := by
  obtain ⟨hr', -⟩ | ⟨-, hf, ⟨he', -⟩ | ⟨-, hmicro⟩⟩ := step_next h
  · exact absurd (hr.symm.trans hr') (by decide)
  · exact absurd he' he
  · exact ⟨hf, hmicro⟩

/-- No elapsed time reaches the clock's modulus (R100, R210). -/
theorem elapsed_clockNow_lt {x : Nat} (hx : 2 ^ s.cfg.clkW ≤ x) (since : Nat) :
    elapsed s.cfg.modulus s.clockNow since < x :=
  (elapsed_lt (Env.now_lt s.cfg s.env)).trans_le hx

/-- Settles O43: the elapsed time stays below the wait (`elapsed_clockNow_lt`), and each command then only reads the
clock. -/
theorem tooLongWaitsHang : Obligations.TooLongWaitsHang := by
  refine ⟨fun s t i n ts ch hr he hc hlong h => ?_, fun s t i idx sched t0 off lvl hr he hentry hlong h => ?_⟩
  · obtain ⟨hf, -⟩ := microStep_of_step hr (by simp [he]) h
    have hstep := step_recieve_settling hf hr he hc (elapsed_clockNow_lt hlong ts)
    obtain rfl := next_inj (hstep.symm.trans h)
    exact ⟨rfl, rfl⟩
  · obtain ⟨-, hmicro⟩ := microStep_of_step hr (by simp [he]) h
    simp only [microStep, he] at hmicro
    obtain ⟨ch, off', lvl', -, hentry', hcases⟩ := tellMicro_next hmicro
    obtain ⟨rfl, rfl⟩ : off' = off ∧ lvl' = lvl := by simpa using hentry'.symm.trans hentry
    have hsoon : elapsed s.cfg.modulus (s.env.now s.cfg).1 t0 < off' := elapsed_clockNow_lt hlong t0
    obtain ⟨-, rfl⟩ | ⟨hdue, -⟩ | ⟨hdue, -⟩ := hcases
    · exact ⟨he.symm, rfl⟩
    · exact absurd hsoon hdue.not_gt
    · exact absurd hsoon hdue.not_gt

end Sys2Proof.Machine
end

section
/-! A talker's step, phase by phase (R160 to R165). -/

namespace Sys2Proof.Machine

variable {p : Config} {ch : Channel} {now : Nat}

/-- An idle talker with nothing queued stays idle (R162). -/
theorem txStep_of_empty (hact : ch.activated = false) (hmid : ch.midActivated = false) (hempty : ch.buf.size = 0) :
    txStep p ch now = (ch, []) := by
  rw [txStep, if_neg (by simp [hact]), if_neg (by simp [hmid]), idleStep, Fifo.peek_empty hempty]

/-- Settles O35: by `txStep_of_empty` and, for the head byte that `Fifo.pop_spec` gives, `txStep_wakeUp`. -/
theorem idleTalkerStep : Obligations.IdleTalkerStep :=
  fun _ _ _ _ _ hact hmid =>
    ⟨fun hnil => txStep_of_empty hact hmid (Fifo.contents_eq_nil.mp hnil),
     fun _ _ hcont => txStep_wakeUp hact hmid (Fifo.pop_spec hcont).1⟩

theorem txStep_of_raised (hact : ch.activated = false) (hmid : ch.midActivated = true) :
    txStep p ch now = raisedStep p ch now := by
  rw [txStep, if_neg (by simp [hact]), if_pos hmid]

/-- Settles O36: the step is `raisedStep`, whose test is that of R104. -/
theorem raisedTalkerStep : Obligations.RaisedTalkerStep :=
  fun _ _ _ hact hmid => (txStep_of_raised hact hmid).trans (if_congr Channel.due_iff rfl rfl)

/-- Once the sync pulse has started, a talker drives a data bit or the end mark when a bit period has elapsed (R164,
R165). -/
theorem txStep_of_activated (hact : ch.activated = true) :
    txStep p ch now =
      if elapsed p.modulus now ch.timeAnchor ≥ ch.period then
        if ch.bitsDone.toNat < 8 then streamStep p ch now else endMark p ch now
      else (ch, []) := by
  rw [txStep, if_pos hact]
  exact if_congr Channel.due_iff rfl rfl

/-- Settles O37: fewer than eight bits are driven, so a due step is `streamStep`. -/
theorem streamingTalkerStep : Obligations.StreamingTalkerStep := by
  intro p ch now hact hbits
  rw [txStep_of_activated hact, if_pos hbits]
  rfl

/-- The end mark of a talker whose FIFO holds the byte it has sent (R165). -/
theorem endMark_eq (hsize : 0 < ch.buf.size) :
    endMark p ch now =
      (Channel.reset { ch with previousLevel := true, buf := { ch.buf with start := ch.buf.start + 1 } },
       [.write ch.pin true now]) := by
  obtain ⟨-, hpop, -⟩ := Fifo.pop_spec (Fifo.contents_tail (c := p.bufferMaxSize) hsize)
  rw [endMark, hpop]

/-- Settles O38: all eight bits are driven, so a due step is `endMark`. -/
theorem endMarkTalkerStep : Obligations.EndMarkTalkerStep := by
  intro p ch now _ _ hsize hact hbits
  have hdone : ¬ ch.bitsDone.toNat < 8 := hbits.not_lt
  rw [txStep_of_activated hact, if_neg hdone, endMark_eq hsize]
  rfl

end Sys2Proof.Machine
end

section
/-! The schedule of TELL (R169): ten entries a byte, each found by the byte's position and its own, and the final
high. -/

namespace Sys2Proof.Machine

/-! ### One byte -/

@[simp] theorem byteSchedule_length (o : BitOrder) (t base : Nat) (b : Byte) :
    (byteSchedule o t base b).length = 10 := by
  simp [byteSchedule]

theorem byteSchedule_dataBit (o : BitOrder) (t base : Nat) (b : Byte) {k : Nat} (hk : k < 8) :
    (byteSchedule o t base b)[2 + k]? = some (base + (2 + k) * t, frameBit o b k) := by
  simp [byteSchedule, Nat.add_comm 2 k, hk]

/-! ### Bytes that follow each other -/

theorem scheduleFrom_length (o : BitOrder) (t base : Nat) (bytes : List Byte) :
    (scheduleFrom o t base bytes).length = 10 * bytes.length + 1 := by
  induction bytes generalizing base with
  | nil => rfl
  | cons b bs ih =>
    simp only [scheduleFrom, List.length_append, byteSchedule_length, ih, List.length_cons]
    omega

/-- Ten entries on, the schedule is that of the bytes after the first, ten bit periods later. -/
theorem scheduleFrom_cons_getElem?_add_ten (o : BitOrder) (t base : Nat) (b : Byte) (bs : List Byte) (n : Nat) :
    (scheduleFrom o t base (b :: bs))[n + 10]? = (scheduleFrom o t (base + 10 * t) bs)[n]? := by
  rw [scheduleFrom, List.getElem?_append_right (by simp), byteSchedule_length, Nat.add_sub_cancel]

/-- The ten entries of byte `i` are its own schedule, `10 * i` bit periods after the base. -/
theorem scheduleFrom_getElem? (o : BitOrder) (t base : Nat) {bytes : List Byte} {i j : Nat} {b : Byte}
    (hb : bytes[i]? = some b) (hj : j < 10) :
    (scheduleFrom o t base bytes)[10 * i + j]? = (byteSchedule o t (base + 10 * t * i) b)[j]? := by
  induction bytes generalizing base i with
  | nil => simp at hb
  | cons c cs ih =>
    cases i with
    | zero =>
      obtain rfl : c = b := by simpa using hb
      simp [scheduleFrom, List.getElem?_append_left, hj]
    | succ i =>
      have hb' : cs[i]? = some b := by simpa using hb
      rw [show 10 * (i + 1) + j = 10 * i + j + 10 by omega, scheduleFrom_cons_getElem?_add_ten, ih _ hb']
      congr 2
      ring

/-- The last entry is the return to idle, right after the last byte. -/
theorem scheduleFrom_getElem?_last (o : BitOrder) (t base : Nat) (bytes : List Byte) :
    (scheduleFrom o t base bytes)[10 * bytes.length]? = some (base + 10 * t * bytes.length, true) := by
  induction bytes generalizing base with
  | nil => rfl
  | cons b bs ih =>
    rw [List.length_cons, Nat.mul_succ 10, scheduleFrom_cons_getElem?_add_ten, ih]
    congr 2
    ring

/-- Settles O41: the schedule starts at offset 0, and its entries are those of each byte's own schedule. -/
theorem tellScheduleEntries : Obligations.TellScheduleEntries := by
  intro o t bytes
  refine ⟨scheduleFrom_length o t 0 bytes, fun i b hb => ?_, ?_⟩
  · have entry {j : Nat} (hj : j < 10) :
        (tellSchedule o t bytes)[10 * i + j]? = (byteSchedule o t (10 * t * i) b)[j]? := by
      simpa [tellSchedule] using scheduleFrom_getElem? o t 0 hb hj
    exact ⟨entry (j := 0) (by decide), entry (j := 1) (by decide),
      fun k hk => (entry (by omega)).trans (byteSchedule_dataBit o t _ b hk)⟩
  · simpa [tellSchedule] using scheduleFrom_getElem?_last o t 0 bytes

end Sys2Proof.Machine
end

section
/-! The transmit commands on an allocated talker (R167 to R171): SEND, the acceptance of TELL and its micro-step. -/

namespace Sys2Proof.Machine

variable {s : State} {a : Byte} {ch : Channel}

/-! ### SEND -/

/-- SEND of bytes that do not all fit queues none (R167). -/
theorem exec_send_tooMany {bytes : List Byte} (hs : s.Ready) (hc : s.talkers[a.toNat]? = some ch)
    (hmany : s.cfg.bufferMaxSize < ch.buf.size + bytes.length) :
    exec (.send a bytes) s = .next { s with responses := s.responses ++ [0x00010000] } := by
  refine (accept_withChannel_some (k := .talker) hs hc _ _).trans ?_
  rw [if_pos hmany]
  rfl

/-- SEND of bytes that all fit makes its pushes (R167). -/
theorem exec_send_fits {bytes : List Byte} {buf' : Fifo} (hs : s.Ready) (hc : s.talkers[a.toNat]? = some ch)
    (hfit : ch.buf.size + bytes.length ≤ s.cfg.bufferMaxSize)
    (hpush : ch.buf.pushAll s.cfg.bufferMaxSize bytes = some buf') :
    exec (.send a bytes) s = .next
      { s with talkers := s.talkers.set a.toNat { ch with buf := buf' }, responses := s.responses ++ [0] } := by
  refine (accept_withChannel_some (k := .talker) hs hc _ _).trans ?_
  rw [if_neg hfit.not_gt, hpush]
  rfl

/-- Settles O39: where all bytes fit, `Fifo.pushAll_spec` gives the FIFO after the pushes. -/
theorem sendEnqueuesAllOrNothing : Obligations.SendEnqueuesAllOrNothing := by
  intro s a bytes ch hs hp hc hwf
  refine ⟨fun hfit => ?_, exec_send_tooMany hs hc⟩
  obtain ⟨buf', hpush, -, hstart, hstop, hcont⟩ := Fifo.pushAll_spec hp.2.2.1 bytes hwf hfit
  exact ⟨buf', exec_send_fits hs hc hfit hpush, hcont, hstart, hstop⟩

/-! ### Acceptance of TELL -/

theorem encodeHeader_tell (a : Byte) (bytes : List Byte) :
    encodeHeader (.tell a bytes) = 0x70#8 ++ a ++ BitVec.ofNat 16 bytes.length := rfl

theorem exec_tell {bytes : List Byte} (hs : s.Ready) (hc : s.talkers[a.toNat]? = some ch) :
    exec (.tell a bytes) s =
      if ch.configured = false then .next (s.faulted .notConfigured (encodeHeader (.tell a bytes)))
      else if ch.midActivated = true ∨ ch.activated = true ∨ ch.buf.size > 0 then
        .next (s.faulted .mixedPath (encodeHeader (.tell a bytes)))
      else .next (
        if bytes = [] then s.answered 0
        else { s with engine := .tell a.toNat (tellSchedule s.cfg.bitOrder ch.period bytes) 0 none }) := by
  refine (accept_withChannel_some (k := .talker) hs hc _ _).trans ?_
  cases bytes <;> rfl

/-- Settles O40: a clause for each branch of `exec_tell`. -/
theorem tellAcceptance : Obligations.TellAcceptance := by
  intro s a bytes ch hs hc
  rw [exec_tell hs hc, encodeHeader_tell]
  refine ⟨fun hconf => ?_, fun hconf hbusy => ?_, fun hconf hmid hact hsize => ?_⟩
  · rw [if_pos hconf]
  · rw [if_neg (by simp [hconf]), if_pos hbusy]
  · rw [if_neg (by simp [hconf]), if_neg (by simp [hmid, hact, hsize])]
    rfl

/-! ### The micro-step of TELL -/

variable {i idx off : Nat} {sched : List (Nat × Level)} {t0 : Option Nat} {lvl : Level}

/-- The state after the clock is read and talker `i`, of record `ch`, drives `lvl` at that clock value (R170). -/
def State.driven (s : State) (i : Nat) (ch : Channel) (lvl : Level) : State :=
  { s with talkers := s.talkers.set i { ch with previousLevel := lvl }, env := s.envAfterClock,
           history := s.history ++ [.write ch.pin lvl s.clockNow] }

/-- A micro-step of TELL waits for the next entry's offset, or drives its level (R170) and goes on or completes
(R171). -/
theorem step_tell (hf : s.fault = none) (hr : s.resetRequest = false) (he : s.engine = .tell i sched idx t0)
    (hc : s.talkers[i]? = some ch) (hentry : sched[idx]? = some (off, lvl)) :
    let origin := t0.getD s.clockNow
    step s =
      if elapsed s.cfg.modulus s.clockNow origin ≥ off then
        if idx + 1 = sched.length then
          .next { s.driven i ch lvl with engine := .idle, responses := s.responses ++ [0] }
        else .next { s.driven i ch lvl with engine := .tell i sched (idx + 1) (some origin) }
      else .next { s with env := s.envAfterClock, engine := .tell i sched idx (some origin) } := by
  have hch : s.channel ⟨.talker, i⟩ = some ch := hc
  rw [step_eq_microStep hr hf (by simp [he])]
  simp only [microStep, he, tellMicro, hch, hentry]
  rfl

/-- Settles O42: a clause for each branch of `step_tell`. -/
theorem tellMicroStep : Obligations.TellMicroStep := by
  intro s i idx sched t0 ch off lvl hf hr he hc hentry
  dsimp only
  rw [step_tell hf hr he hc hentry]
  refine ⟨fun hsoon => ?_, fun hdue hmore => ?_, fun hdue hlast => ?_⟩
  · rw [if_neg hsoon.not_ge]
  · rw [if_pos hdue, if_neg hmore.ne]
    rfl
  · rw [if_pos hdue, if_pos hlast]
    rfl

end Sys2Proof.Machine
end

section
/-! Registration and the acceptance of AWAIT_ALL (R180 to R182, R185, R186): which of its outcomes each command has. -/

namespace Sys2Proof.Machine

theorem encodeHeader_listen (pin : Byte) (baud : Word) : encodeHeader (.listen pin baud) = 0x10#8 ++ pin ++ 0#16 := rfl

theorem encodeHeader_talk (pin : Byte) (baud : Word) : encodeHeader (.talk pin baud) = 0x20#8 ++ pin ++ 0#16 := rfl

theorem register_eq (k : Kind) (pin : Byte) (baud w : Word) (s : State) :
    register k pin baud w s = .next (
      if s.count k = maxChannels s.cfg k then s.faulted .capacityExceeded w
      else if baud = 0 then s.faulted .zeroBaud w
      else s.registered k pin baud) := by
  simp only [apply_ite Host.Outcome.next]
  rfl

/-- Settles O44: `register_eq` for each kind; the zero record is `newChannel`. -/
theorem registrationAddsAZeroRecord : Obligations.RegistrationAddsAZeroRecord := by
  intro s pin baud hs record
  have hlisten := (accept_ready hs _).trans (register_eq .listener pin baud (encodeHeader (.listen pin baud)) s)
  have htalk := (accept_ready hs _).trans (register_eq .talker pin baud (encodeHeader (.talk pin baud)) s)
  rw [encodeHeader_listen] at hlisten
  rw [encodeHeader_talk] at htalk
  exact ⟨hlisten, htalk⟩

theorem exec_awaitAll {s : State} (hs : s.Ready) :
    exec .awaitAll s =
      if s.listenersConfigured = false then .next (s.faulted .notConfigured (encodeHeader .awaitAll))
      else if s.listenersAvailable = true then .next (s.answered 0)
      else .next { s with engine := .awaitAll } :=
  accept_ready hs _

/-- Settles O49: a clause for each branch of `exec_awaitAll`. -/
theorem awaitAllAcceptance : Obligations.AwaitAllAcceptance := by
  intro s hs
  rw [exec_awaitAll hs]
  refine ⟨fun hconf => ?_, fun hall => ?_, fun hconf hav => ?_⟩
  · have hconf : s.listenersConfigured = false := List.all_eq_false.mpr (by simpa using hconf)
    rw [if_pos hconf]
    rfl
  · have hconf : s.listenersConfigured = true := List.all_eq_true.mpr fun ch hm => (hall ch hm).1
    have hav : s.listenersAvailable = true := List.all_eq_true.mpr fun ch hm => (hall ch hm).2
    rw [if_neg (by simp [hconf]), if_pos hav]
    rfl
  · have hconf : s.listenersConfigured = true := List.all_eq_true.mpr hconf
    have hav : s.listenersAvailable = false := List.all_eq_false.mpr (by simpa using hav)
    rw [if_neg (by simp [hconf]), if_neg (by simp [hav])]

end Sys2Proof.Machine
end

section
/-! A pass over the channels in registration order (R24), as BEGIN and TICK make one: what each step finds and leaves,
and what the command leaves alone. -/

namespace Sys2Proof.Machine

/-- The `k`-th step of the pass finds its channel as the pass found it, and leaves it as the pass leaves it: `order`
names no channel twice. -/
theorem foldl_order_channel_at {f : State → Handle → State}
    (hf : ∀ s a h, h ≠ a → (f s a).channel h = s.channel h) {s : State} (ho : s.OrderWf) {k : Nat} {h : Handle}
    (hk : s.order[k]? = some h) :
    ((s.order.take k).foldl f s).channel h = s.channel h ∧
    (s.order.foldl f s).channel h = (f ((s.order.take k).foldl f s) h).channel h :=
  foldl_channel_at (g := id) hf (by rw [List.map_id]; exact order_nodup ho) hk s

theorem ChannelFrame.sameFrame_answered {s t : State} (hst : ChannelFrame s t) (v : BitVec 16) :
    SameFrame s (t.answered v) :=
  ⟨hst.talkers, hst.listeners, hst.order, hst.fault, hst.engine, hst.cfg, hst.inbox, hst.resetRequest⟩

end Sys2Proof.Machine
end

section
/-! BEGIN, one channel after another in registration order (R183): the state each channel's step sees, and with it the
one clock read the step makes, its record and its line events. -/

namespace Sys2Proof.Machine

/-- The state that BEGIN's step on the `k`-th channel in registration order sees (R10, R183). -/
def State.begunTo (s : State) (k : Nat) : State := (s.order.take k).foldl beginChannel s

variable {s : State} {k : Nat} {h : Handle} {ch : Channel}

theorem begunTo_length (s : State) : s.begunTo s.order.length = s.order.foldl beginChannel s := by
  rw [State.begunTo, List.take_length]

theorem begunTo_frame (s : State) (k : Nat) : ChannelFrame s (s.begunTo k) :=
  .foldl ChannelFrame.beginChannel _ s

/-- The `k`-th step finds its channel as BEGIN found it, and is the only one to touch it: the record BEGIN leaves, and
the draws and line events of the step, which are all of one clock value (R183). -/
theorem begunTo_step (ho : s.OrderWf) (hk : s.order[k]? = some h) (hc : s.channel h = some ch) :
    let draw := (s.begunTo k).env.now s.cfg
    (s.begunTo s.order.length).channel h = some (
      if ch.configured then ch
      else match ch.kind with
        | .listener => { ch with timeAnchor := draw.1, configured := true }
        | .talker => { ch with previousLevel := true, configured := true }) ∧
    (s.begunTo (k + 1)).env = (if ch.configured then (s.begunTo k).env else draw.2) ∧
    (s.begunTo (k + 1)).history = (s.begunTo k).history ++ beginEvents ch draw.1 := by
  obtain ⟨hbefore, hafter⟩ := foldl_order_channel_at beginChannel_channel_ne ho hk
  have hsucc : s.begunTo (k + 1) = beginChannel (s.begunTo k) h := foldl_take_succ hk s
  have hcfg : (s.begunTo k).cfg = s.cfg := (begunTo_frame s k).cfg
  obtain ⟨hch, henv, hhist⟩ := beginChannel_at (s := s.begunTo k) (hbefore.trans hc)
  rw [hcfg] at hch henv hhist
  rw [begunTo_length, hsucc]
  exact ⟨hafter.trans hch, henv, hhist⟩

/-- The history before the `k`-th step is the events of the steps before it, in registration order (R41). -/
theorem begunTo_history (ho : s.OrderWf) (hk : k ≤ s.order.length) :
    (s.begunTo k).history = s.history ++ (List.range k).flatMap (fun j =>
      (s.order[j]?.bind s.channel).elim [] fun ch => beginEvents ch ((s.begunTo j).env.now s.cfg).1) := by
  induction k with
  | zero => simp [State.begunTo]
  | succ k ih =>
    have hget : s.order[k]? = some s.order[k] := List.getElem?_eq_getElem hk
    obtain ⟨ch, hc⟩ := channel_of_mem_order ho (List.getElem_mem hk)
    obtain ⟨-, -, hhist⟩ := begunTo_step ho hget hc
    rw [hhist, ih (Nat.le_of_succ_le hk), List.range_succ, List.flatMap_append, List.append_assoc]
    simp only [List.flatMap_singleton, hget, Option.bind_some, hc, Option.elim_some]

/-- While the clock's foretold answers last, the steps before the `k`-th have used one for each channel that BEGIN found
not configured, and no other draw (R10, R183). -/
theorem begunTo_env (ho : s.OrderWf) (hk : k ≤ s.order.length) :
    let n := (s.order.take k).countP fun h => !s.isConfigured h
    n ≤ s.env.clock.length → (s.begunTo k).env = { s.env with clock := s.env.clock.drop n } := by
  induction k with
  | zero => simp [State.begunTo]
  | succ k ih =>
    intro n hn
    have hget : s.order[k]? = some s.order[k] := List.getElem?_eq_getElem hk
    obtain ⟨ch, hc⟩ := channel_of_mem_order ho (List.getElem_mem hk)
    obtain ⟨-, henv, -⟩ := begunTo_step ho hget hc
    have hcount : n = (s.order.take k).countP (fun h => !s.isConfigured h) + if ch.configured then 0 else 1 := by
      simp only [n, List.take_add_one, hget, List.countP_append, State.isConfigured]
      cases hconf : ch.configured <;> simp [hc, hconf]
    have ih := ih (Nat.le_of_succ_le hk) (by omega)
    by_cases hconf : ch.configured = true
    · rw [henv, if_pos hconf, ih, hcount, if_pos hconf, Nat.add_zero]
    · rw [if_neg hconf] at hcount henv
      rw [henv, ih, Env.now_clock, List.drop_drop, hcount]
      simp only [ne_eq, List.drop_eq_nil_iff]
      omega

/-- Settles O46: `env k` is the environment of `begunTo k`; each step by `begunTo_step`. -/
theorem beginConfiguresEveryChannel : Obligations.BeginConfiguresEveryChannel := by
  intro s hs hinv
  obtain ⟨-, -, -, -, -, ho, -⟩ := hinv
  have hexec : exec .begin s = .next ((s.begunTo s.order.length).answered 0) :=
    (accept_ready hs _).trans (by rw [begunTo_length]; rfl)
  have hframe := begunTo_frame s s.order.length
  refine ⟨_, fun k => (s.begunTo k).env, hexec, hframe.sameFrame_answered 0, congrArg (· ++ [0]) hframe.responses,
    fun _ _ => mem_order_of_channel ho, rfl, rfl, fun k h hk => ?_, begunTo_history ho le_rfl, ?_⟩
  · obtain ⟨ch, hc⟩ := channel_of_mem_order ho (List.mem_of_getElem? hk)
    obtain ⟨hch, henv, -⟩ := begunTo_step ho hk hc
    exact ⟨ch, hc, Env.now_lt .., henv, hch⟩
  · have henv := begunTo_env ho (le_refl s.order.length)
    rwa [List.take_length] at henv

end Sys2Proof.Machine
end

section
/-! TICK, one channel step after another in registration order (R184): one step of each channel's own machine, and one
clock read a step (R10). -/

namespace Sys2Proof.Machine

variable {s : State} {h : Handle} {ch : Channel}

/-! ### TICK as a command -/

theorem exec_tick (hs : s.Ready) (hconf : ∀ h ∈ s.order, s.isConfigured h = true) :
    exec .tick s = .next ((s.order.foldl stepChannel s).answered 0) :=
  (accept_ready hs _).trans (if_pos (List.all_eq_true.mpr hconf))

theorem stepChannel_of_listener (hc : s.channel h = some ch) (hk : ch.kind = .listener) :
    stepChannel s h = listenerStep h ch s := by
  simp only [stepChannel, hc, hk]

theorem stepChannel_of_talker (hc : s.channel h = some ch) (hk : ch.kind = .talker) :
    stepChannel s h = talkerStep h ch s := by
  simp only [stepChannel, hc, hk]

/-! ### The first step and the rest -/

/-- The state with another registration order. -/
abbrev State.withOrder (s : State) (order : List Handle) : State := { s with order := order }

/-- A channel step neither reads nor writes the registration order. -/
theorem stepChannel_withOrder (s : State) (order : List Handle) (h : Handle) :
    stepChannel (s.withOrder order) h = (stepChannel s h).withOrder order := by
  have hch : (s.withOrder order).channel h = s.channel h := rfl
  cases hc : s.channel h with
  | none => simp only [stepChannel, hch, hc]
  | some ch =>
    cases hk : ch.kind with
    | talker => rw [stepChannel_of_talker (hch.trans hc) hk, stepChannel_of_talker hc hk]; rfl
    | listener => rw [stepChannel_of_listener (hch.trans hc) hk, stepChannel_of_listener hc hk]; rfl

theorem foldl_stepChannel_withOrder (s : State) (order l : List Handle) :
    l.foldl stepChannel (s.withOrder order) = (l.foldl stepChannel s).withOrder order :=
  List.foldl_hom (State.withOrder · order) fun s h => stepChannel_withOrder s order h

theorem stepChannel_isConfigured (h : Handle) {h' : Handle} (hconf : s.isConfigured h' = true) :
    (stepChannel s h).isConfigured h' = true := by
  obtain ⟨ch, hc, hch⟩ := Option.any_eq_true _ _ |>.mp hconf
  obtain ⟨ch', hc', hkeep⟩ := (stepChannel_evolves s h).channels h' ch hc
  exact Option.any_eq_true _ _ |>.mpr ⟨ch', hc', hkeep.configured hch⟩

/-- A TICK is the step of the first channel and then the TICK of the others (R184). -/
theorem exec_tick_cons {rest : List Handle} {t : State} (hs : s.Ready) (horder : s.order = h :: rest)
    (hconf : ∀ h ∈ s.order, s.isConfigured h = true) (ht : exec .tick s = .next t) :
    ∃ t₁, exec .tick ((stepChannel s h).withOrder rest) = .next t₁ ∧ t = t₁.withOrder s.order := by
  have hfirst := ChannelFrame.stepChannel s h
  have hready : ((stepChannel s h).withOrder rest).Ready := ⟨hfirst.fault.trans hs.1, hfirst.engine.trans hs.2⟩
  have hconf' : ∀ h' ∈ rest, ((stepChannel s h).withOrder rest).isConfigured h' = true := fun h' hm =>
    stepChannel_isConfigured h (hconf h' (horder ▸ List.mem_cons_of_mem h hm))
  have hrest : (rest.foldl stepChannel (stepChannel s h)).order = s.order :=
    (ChannelFrame.foldl ChannelFrame.stepChannel rest _).order.trans hfirst.order
  have hpass : s.order.foldl stepChannel s = rest.foldl stepChannel (stepChannel s h) := by
    rw [horder, List.foldl_cons]
  obtain rfl := next_inj ((exec_tick hs hconf).symm.trans ht)
  have hothers := exec_tick hready hconf'
  rw [foldl_stepChannel_withOrder (stepChannel s h) rest rest] at hothers
  exact ⟨_, hothers, by rw [hpass, ← hrest]⟩

/-- Settles O48: by `exec_tick_cons`, the first step by the kind of its channel. -/
theorem tickRunsInRegistrationOrder : Obligations.TickRunsInRegistrationOrder := by
  refine ⟨fun s hs horder => ?_, fun s t h rest ch hs horder hconf hc ht => ?_⟩
  · have hpass : s.order.foldl stepChannel s = s := by rw [horder]; rfl
    rw [exec_tick hs (by simp [horder]), hpass]
    rfl
  · obtain ⟨t₁, hexec, rfl⟩ := exec_tick_cons hs horder hconf ht
    refine ⟨(stepChannel s h).withOrder rest, t₁, ?_, hexec, rfl⟩
    cases hk : ch.kind with
    | talker => rw [stepChannel_of_talker hc hk]; rfl
    | listener => rw [stepChannel_of_listener hc hk]; rfl

/-! ### Each channel's step -/

/-- Of the environment, a listener's step uses one level at most: its record depends on that level alone (R130,
R187). -/
theorem rxStep_eq_line (p : Config) (ch : Channel) (now : Nat) (e : Env) :
    (rxStep p ch now e).1 = (rxStep p ch now (Env.line (e.readLine ch.pin).1)).1 := by
  unfold rxStep
  split <;> rfl

/-- TICK's step on a channel finds its record as TICK found it, and is the only one to touch it (R184, R187). -/
theorem foldl_stepChannel_channel (ho : s.OrderWf) (hc : s.channel h = some ch) :
    ∃ u : State, u.cfg = s.cfg ∧ u.channel h = some ch ∧
      (s.order.foldl stepChannel s).channel h = (stepChannel u h).channel h := by
  obtain ⟨k, hk⟩ := List.mem_iff_getElem?.mp (mem_order_of_channel ho hc)
  obtain ⟨hbefore, hafter⟩ := foldl_order_channel_at stepChannel_channel_ne ho hk
  exact ⟨_, (ChannelFrame.foldl ChannelFrame.stepChannel _ s).cfg, hbefore.trans hc, hafter⟩

theorem tick_listener (hw : s.RecordsWf) (ho : s.OrderWf) {i : Nat} (hc : s.channel ⟨.listener, i⟩ = some ch) :
    ∃ now v, now < s.cfg.modulus ∧
      (s.order.foldl stepChannel s).channel ⟨.listener, i⟩ = some (rxStep s.cfg ch now (Env.line v)).1 := by
  obtain ⟨u, hcfg, hu, htick⟩ := foldl_stepChannel_channel ho hc
  rw [stepChannel_of_listener hu (hw.record _ _ hc).kind, listenerStep_channel hu, rxStep_eq_line, hcfg] at htick
  exact ⟨_, _, hcfg ▸ Env.now_lt u.cfg u.env, htick⟩

theorem tick_talker (hw : s.RecordsWf) (ho : s.OrderWf) {i : Nat} (hc : s.channel ⟨.talker, i⟩ = some ch) :
    ∃ now, now < s.cfg.modulus ∧
      (s.order.foldl stepChannel s).channel ⟨.talker, i⟩ = some (txStep s.cfg ch now).1 := by
  obtain ⟨u, hcfg, hu, htick⟩ := foldl_stepChannel_channel ho hc
  rw [stepChannel_of_talker hu (hw.record _ _ hc).kind, talkerStep_channel hu, hcfg] at htick
  exact ⟨_, hcfg ▸ Env.now_lt u.cfg u.env, htick⟩

/-! ### Clock reads and line events of a pass -/

/-- Every channel stands in the array of its own kind (R21). -/
def State.KindsFit (s : State) : Prop := ∀ h ch, s.channel h = some ch → ch.kind = h.kind

theorem State.KindsFit.of_evolves {t : State} (hs : s.KindsFit) (hst : Evolves s t) : t.KindsFit := fun h _ hc =>
  have ⟨ch, hch, hkeep⟩ := hst.channel_origin hc
  hkeep.kind.trans (hs h ch hch)

theorem State.RecordsWf.kindsFit (hw : s.RecordsWf) : s.KindsFit := fun h ch hc => (hw.record h ch hc).kind

/-- Only a talker's step issues a line event, and one at most (R160). -/
theorem stepChannel_history (hs : s.KindsFit) (h : Handle) :
    ∃ es, (stepChannel s h).history = s.history ++ es ∧ es.length ≤ if h.kind = .talker then 1 else 0 := by
  obtain he | ⟨ch, hc, ⟨-, he⟩ | ⟨hk, he⟩⟩ := stepChannel_cases s h <;> rw [he]
  · exact ⟨[], (List.append_nil _).symm, Nat.zero_le _⟩
  · exact ⟨[], (List.append_nil _).symm, Nat.zero_le _⟩
  · refine ⟨_, rfl, ?_⟩
    rw [if_pos ((hs h ch hc).symm.trans hk)]
    obtain hes | ⟨level, hes⟩ := txStep_events s.cfg ch (s.env.now s.cfg).1 <;> simp [hes]

theorem foldl_stepChannel_history (hs : s.KindsFit) (l : List Handle) :
    ∃ es, (l.foldl stepChannel s).history = s.history ++ es ∧ es.length ≤ l.countP (·.kind == .talker) := by
  induction l generalizing s with
  | nil => exact ⟨[], (List.append_nil _).symm, Nat.zero_le _⟩
  | cons h l ih =>
    obtain ⟨es, hes, hlen⟩ := stepChannel_history hs h
    obtain ⟨es', hes', hlen'⟩ := ih (hs.of_evolves (stepChannel_evolves s h))
    refine ⟨es ++ es', by rw [List.foldl_cons, hes', hes, List.append_assoc], ?_⟩
    rw [List.length_append, List.countP_cons]
    simp only [beq_iff_eq]
    omega

/-- A channel's step reads the clock once (R10). -/
theorem stepChannel_clock (hc : (s.channel h).isSome) (hclock : s.env.clock ≠ []) :
    (stepChannel s h).env.clock = s.env.clock.drop 1 := by
  obtain ⟨ch, hc⟩ := Option.isSome_iff_exists.mp hc
  have hnow : (s.env.now s.cfg).2.clock = s.env.clock.drop 1 := by rw [Env.now_clock hclock]
  cases hk : ch.kind with
  | talker => rw [stepChannel_of_talker hc hk]; exact hnow
  | listener => rw [stepChannel_of_listener hc hk]; exact (rxStep_clock ..).trans hnow

theorem foldl_stepChannel_clock {l : List Handle} (hc : ∀ h ∈ l, (s.channel h).isSome)
    (hclock : l.length ≤ s.env.clock.length) :
    (l.foldl stepChannel s).env.clock = s.env.clock.drop l.length := by
  induction l generalizing s with
  | nil => rfl
  | cons h l ih =>
    rw [List.length_cons] at hclock
    have hfirst : (stepChannel s h).env.clock = s.env.clock.drop 1 :=
      stepChannel_clock (hc h List.mem_cons_self) (List.ne_nil_of_length_pos (by omega))
    have hc' : ∀ h' ∈ l, ((stepChannel s h).channel h').isSome := fun h' hm => by
      obtain ⟨ch, hch⟩ := Option.isSome_iff_exists.mp (hc h' (List.mem_cons_of_mem h hm))
      obtain ⟨ch', hch', -⟩ := (stepChannel_evolves s h).channels h' ch hch
      rw [hch']; rfl
    rw [List.foldl_cons, ih hc' (by rw [hfirst, List.length_drop]; omega), hfirst, List.drop_drop, List.length_cons,
      Nat.add_comm]

/-- Settles O47: the records by `tick_listener` and `tick_talker`, the events and the clock reads by the lemmas on the
whole pass. -/
theorem tickStepsEachChannelOnce : Obligations.TickStepsEachChannelOnce := by
  intro s hs hinv hconf
  have hw := recordsWf_of_inv hinv
  obtain ⟨-, -, -, -, -, ho, -⟩ := hinv
  have hframe := ChannelFrame.foldl ChannelFrame.stepChannel s.order s
  have htalkers : s.order.countP (·.kind == .talker) = s.talkers.length := by
    rw [List.countP_eq_length_filter, ho.1, List.length_map, List.length_range]
    rfl
  exact ⟨_, exec_tick hs hconf, hframe.sameFrame_answered 0, congrArg (· ++ [0]) hframe.responses,
    fun i ch hc => tick_listener hw ho hc, fun i ch hc => tick_talker hw ho hc,
    htalkers ▸ foldl_stepChannel_history hw.kindsFit s.order,
    foldl_stepChannel_clock fun h hm => State.channel_isSome_iff.mpr ((mem_order ho).mp hm)⟩

end Sys2Proof.Machine
end

section
/-! One pass of AWAIT_ALL (R186): the state each listener's share of the pass sees, and with it the draws the listener
makes and its record. -/

namespace Sys2Proof.Machine

/-- The state that listener `i`'s share of a pass of AWAIT_ALL sees (R10, R186). -/
def State.awaitedTo (s : State) (i : Nat) : State :=
  ((List.range (s.count .listener)).take i).foldl awaitListener s

variable {s : State} {i : Nat} {ch : Channel}

theorem awaitedTo_count (s : State) :
    s.awaitedTo (s.count .listener) = (List.range (s.count .listener)).foldl awaitListener s := by
  rw [State.awaitedTo, List.take_of_length_le (by rw [List.length_range])]

theorem awaitedTo_frame (s : State) (i : Nat) : ChannelFrame s (s.awaitedTo i) :=
  .foldl ChannelFrame.awaitListener _ s

theorem awaitedTo_talkers (s : State) (i : Nat) : (s.awaitedTo i).talkers = s.talkers :=
  foldl_preserves (P := fun u => u.talkers = s.talkers) (fun u j hu => (awaitListener_talkers u j).trans hu) _ rfl

theorem awaitedTo_history (s : State) (i : Nat) : (s.awaitedTo i).history = s.history :=
  foldl_preserves (P := fun u => u.history = s.history) (fun u j hu => (awaitListener_history u j).trans hu) _ rfl

/-- Listener `i` is as the pass found it until its own share, and the pass leaves it as that share does: its draws and
its record (R133, R186). -/
theorem awaitedTo_step (hc : s.listeners[i]? = some ch) :
    let draw := (s.awaitedTo i).env.now s.cfg
    let sample := draw.2.readLine ch.pin
    (s.awaitedTo (i + 1)).env = (if ch.available then (s.awaitedTo i).env else sample.2) ∧
    (s.awaitedTo (s.count .listener)).listeners[i]? = some (
      if ch.available then ch
      else if sample.1 = false then { ch with timeAnchor := draw.1, previousLevel := false }
      else if elapsed (2 ^ s.cfg.clkW) draw.1 ch.timeAnchor ≥ s.cfg.minAvailableDelta then
        { ch with available := true, previousLevel := true }
      else { ch with previousLevel := true }) := by
  have hnodup : ((List.range (s.count .listener)).map (Handle.mk .listener)).Nodup :=
    List.nodup_range.map fun _ _ h => (Handle.mk.inj h).2
  have hi : (List.range (s.count .listener))[i]? = some i :=
    List.getElem?_range (List.getElem?_eq_some_iff.mp hc).1
  obtain ⟨hbefore, hafter⟩ := foldl_channel_at (g := Handle.mk .listener) awaitListener_channel_ne hnodup hi s
  have hsucc : s.awaitedTo (i + 1) = awaitListener (s.awaitedTo i) i := foldl_take_succ hi s
  have hcfg : (s.awaitedTo i).cfg = s.cfg := (awaitedTo_frame s i).cfg
  obtain ⟨henv, hch⟩ := awaitListener_at (s := s.awaitedTo i) (hbefore.trans hc)
  rw [hcfg] at henv hch
  rw [awaitedTo_count, hsucc]
  exact ⟨henv, hafter.trans hch⟩

/-- A micro-step of AWAIT_ALL is one pass, and completes once every listener is available (R186). -/
theorem step_awaitAll (hf : s.fault = none) (hr : s.resetRequest = false) (he : s.engine = .awaitAll) :
    let u := s.awaitedTo (s.count .listener)
    step s = .next { u with
      engine := if u.listenersAvailable = true then .idle else .awaitAll
      responses := if u.listenersAvailable = true then s.responses ++ [0] else s.responses } := by
  have hframe := awaitedTo_frame s (s.count .listener)
  rw [step_eq_microStep hr hf (by simp [he])]
  simp only [microStep, he, awaitAllMicro, ← awaitedTo_count]
  split
  · rw [State.complete_eq, hframe.responses]
  · rw [← he, ← hframe.engine, ← hframe.responses]

/-- Settles O50: `env i` is the environment of `awaitedTo i`; each listener's share by `awaitedTo_step`. -/
theorem awaitAllPass : Obligations.AwaitAllPass := by
  intro s hf hr he
  have hframe := awaitedTo_frame s (s.count .listener)
  refine ⟨_, fun i => (s.awaitedTo i).env, step_awaitAll hf hr he, awaitedTo_talkers s _, hframe.listeners,
    hframe.order, hframe.fault.trans hf, awaitedTo_history s _, hframe.cfg, hframe.inbox,
    hframe.resetRequest.trans hr, rfl, rfl, fun i ch hc => ⟨Env.now_lt .., awaitedTo_step hc⟩,
    fun hall => ?_, fun hsome => ?_⟩
  · have hav : (s.awaitedTo (s.count .listener)).listenersAvailable = true := List.all_eq_true.mpr hall
    exact ⟨if_pos hav, if_pos hav⟩
  · have hav : (s.awaitedTo (s.count .listener)).listenersAvailable = false :=
      List.all_eq_false.mpr (by simpa using hsome)
    exact ⟨if_neg (by simp [hav]), if_neg (by simp [hav])⟩

end Sys2Proof.Machine
end

section
/-! Faults (R202 to R206): a recorded fault stops the block, a fault that a command raises has no other effect, and the
first check of R204 that fails decides which fault that is. -/

namespace Sys2Proof.Machine

/-! ### After a fault -/

/-- Every command starts only if the block accepts it (R40, R206). -/
theorem exists_exec_eq_accept (i : Instr) (s : State) : ∃ body, exec i s = accept s body := by
  cases i <;> exact ⟨_, rfl⟩

theorem exec_of_faulted {s : State} {f : FaultRecord} (hf : s.fault = some f) (i : Instr) :
    exec i s = .fault (.stopped f.code f.header) := by
  obtain ⟨body, hexec⟩ := exists_exec_eq_accept i s
  rw [hexec, accept_faulted hf]

theorem step_of_faulted {s : State} {f : FaultRecord} (hf : s.fault = some f) (hr : s.resetRequest = false) :
    step s = .fault (.stopped f.code f.header) := by
  simp [step, hr, hf]

/-- Settles O10: `exec_of_faulted`, `step_of_faulted`, and `step_eq_powerOn` for the way out. -/
theorem faultStopsTheBlock : Obligations.FaultStopsTheBlock :=
  fun s _ hf => ⟨exec_of_faulted hf, step_of_faulted hf,
    fun hr => ⟨s.powerOn, step_eq_powerOn hr, rfl, rfl, rfl, rfl, rfl, rfl⟩⟩

/-! ### The effect of a fault -/

/-- A command that records a fault does nothing else (R205); no command records BUFFER_FULL. -/
theorem exec_recordsFault {i : Instr} {s t : State} {f : FaultRecord} (h : exec i s = .next t) (hf : t.fault = some f) :
    t = { s with fault := some f } ∧ f.header = encodeHeader i ∧ f.code ≠ .bufferFull := by
  obtain ⟨⟨hs, -⟩, ⟨c, hc, rfl⟩ | ⟨w, -, rfl⟩ | ⟨e, -, rfl, -⟩ | ⟨h, ch, ch', v, -, rfl, -⟩ |
    ⟨k, pin, baud, -, -, -, rfl⟩ | ⟨-, rfl⟩ | ⟨-, -, rfl⟩⟩ := exec_next h
  · obtain rfl := Option.some.inj hf
    exact ⟨rfl, rfl, hc⟩
  · cases hs.symm.trans hf
  · cases hs.symm.trans hf
  · cases hs.symm.trans hf
  · cases hs.symm.trans hf
  · have hframe := ChannelFrame.foldl ChannelFrame.beginChannel s.order s
    cases (hframe.fault.trans hs).symm.trans hf
  · have hframe := ChannelFrame.foldl ChannelFrame.stepChannel s.order s
    cases (hframe.fault.trans hs).symm.trans hf

/-- What the decoder makes of the words at the port: it waits for more, or it takes a header and some words after it
(R76). -/
theorem decode_cases (ws : List Word) :
    decode ws = .incomplete ∨ ∃ header ext rest, ws = header :: (ext ++ rest) ∧
      ((decode ws = .unknownHeader header rest ∨ decode ws = .reservedPayload header rest) ∨
        ∃ i, decode ws = .command i rest) := by
  cases ws with
  | nil => exact .inl rfl
  | cons header ws =>
    cases hop : selectOpcode header with
    | none => exact .inr ⟨header, [], ws, rfl, .inl (.inl (decode_unknownHeader hop ws))⟩
    | some op =>
      by_cases hshort : ws.length < extWords op (fieldB header)
      · exact .inl (by simp only [decode, hop, if_pos hshort])
      · have hlen := List.length_take_of_le (Nat.le_of_not_lt hshort)
        have hws := List.take_append_drop (extWords op (fieldB header)) ws
        have hd := decode_append hop hlen (ws.drop (extWords op (fieldB header)))
        rw [hws] at hd
        refine .inr ⟨header, _, _, congrArg _ hws.symm, ?_⟩
        rw [hd]
        cases operands op header (ws.take (extWords op (fieldB header))) with
        | none => exact .inl (.inr rfl)
        | some i => exact .inr ⟨i, rfl⟩

/-- No step of a running command records a fault (R205). -/
theorem step_fault_of_running {s t : State} (he : s.engine ≠ .idle) (h : step s = .next t) : t.fault = none := by
  obtain ⟨-, rfl⟩ | ⟨-, hf, ⟨he', -⟩ | ⟨-, hmicro⟩⟩ := step_next h
  · rfl
  · exact absurd he' he
  · obtain ⟨hfault, -⟩ := microStep_next he hmicro
    exact hfault.trans hf

/-- A step that records a fault takes the words of one command from the port and does nothing else (R77, R205). -/
theorem step_recordsFault {s t : State} {f : FaultRecord} (h : step s = .next t) (hf : t.fault = some f) :
    ∃ ext rest, s.inbox = f.header :: (ext ++ rest) ∧ t = { s with inbox := rest, fault := some f } ∧
      f.code ≠ .bufferFull := by
  obtain ⟨-, rfl⟩ | ⟨hr, hs, ⟨he, -⟩ | ⟨he, -⟩⟩ := step_next h
  · cases hf
  · obtain hd | ⟨header, ext, rest, hin, hd | ⟨i, hd⟩⟩ := decode_cases s.inbox
    · obtain rfl := next_inj ((step_eq_wait ⟨hs, he⟩ hr hd).symm.trans h)
      cases hs.symm.trans hf
    · have hfetch : fetch s = .illegal header { s with inbox := rest } := by
        obtain hd | hd := hd <;> rw [fetch, hd]
      obtain rfl := next_inj ((step_eq_illegal ⟨hs, he⟩ hr hfetch).symm.trans h)
      obtain rfl := Option.some.inj hf
      exact ⟨ext, rest, hin, rfl, nofun⟩
    · obtain ⟨rfl, hheader, hcode⟩ := exec_recordsFault ((step_eq_exec ⟨hs, he⟩ hr hd).symm.trans h) hf
      exact ⟨encodeExt i, rest, hheader ▸ (encode_of_decode hd).2, rfl, hcode⟩
  · cases (step_fault_of_running he h).symm.trans hf

/-- Settles O11: `exec_recordsFault` for commands, `step_recordsFault` and `step_fault_of_running` for steps. -/
theorem faultsArePrecise : Obligations.FaultsArePrecise :=
  ⟨fun _ _ _ _ => exec_recordsFault, fun _ _ _ _ => step_recordsFault, fun _ _ => step_fault_of_running⟩

end Sys2Proof.Machine
end

section
/-! The checks of a decoded command in the order of R204, one after another, and what the command does where each fails
and where all pass. -/

namespace Sys2Proof.Machine

/-! ### Checks in order -/

/-- The result `r` is the fault, with header `w`, of the first check that fails, and a next state without a fault if
none does (R202, R204). -/
def DecidedBy (s : State) (w : Word) (r : Result) (cs : List (Bool × FaultCode)) : Prop :=
  match cs.find? (·.1) with
  | some c => r = .next (s.faulted c.2 w)
  | none => ∃ t, r = .next t ∧ t.fault = none

variable {s : State} {w : Word} {r : Result} {cs : List (Bool × FaultCode)}

theorem DecidedBy.nil {t : State} (hr : r = .next t) (ht : t.fault = none) : DecidedBy s w r [] := ⟨t, hr, ht⟩

theorem DecidedBy.cons {bad : Bool} {c : FaultCode} (hbad : bad = true → r = .next (s.faulted c w))
    (hgood : bad = false → DecidedBy s w r cs) : DecidedBy s w r ((bad, c) :: cs) := by
  cases bad with
  | true => exact hbad rfl
  | false => exact hgood rfl

/-- A check written as a branch of the command. -/
theorem DecidedBy.ite {bad : Bool} {c : FaultCode} {P : Prop} [Decidable P] {r' : Result}
    (hr : r = if P then .next (s.faulted c w) else r') (hP : bad = true ↔ P) (hgood : DecidedBy s w r' cs) :
    DecidedBy s w r ((bad, c) :: cs) := by
  subst hr
  exact .cons (fun hbad => if_pos (hP.mp hbad)) fun hbad => by rwa [if_neg (by simp [← hP, hbad])]

/-- The handle check of R125: past it, the command has found its channel. -/
theorem DecidedBy.handle {k : Kind} {a : Byte} {body : Channel → Result} (hs : s.Ready)
    (hr : r = accept s (withChannel s k a w body))
    (hgood : ∀ ch, s.channel ⟨k, a.toNat⟩ = some ch → DecidedBy s w r cs) :
    DecidedBy s w r (badHandle s k a :: cs) := by
  refine .cons (fun hbad => ?_) fun hbad => ?_
  · exact hr.trans (accept_withChannel_none hs (of_decide_eq_true hbad) w body)
  · have hlt : a.toNat < s.count k := Nat.lt_of_not_le (of_decide_eq_false hbad)
    obtain ⟨ch, hc⟩ := Option.isSome_iff_exists.mp (State.channel_isSome_iff (h := ⟨k, a.toNat⟩).mpr hlt)
    exact hgood ch hc

/-- A check on a channel that is there. -/
theorem badChannel_of_channel {k : Kind} {a : Byte} {ch : Channel} (hc : s.channel ⟨k, a.toNat⟩ = some ch)
    (bad : Channel → Bool) (c : FaultCode) : badChannel s k a bad c = (bad ch, c) := by
  rw [badChannel, hc, Option.any_some]

/-! ### Registration, READ, PEEK and SEND -/

theorem decidedBy_register (hs : s.Ready) {k : Kind} {pin : Byte} {baud : Word} (hr : r = register k pin baud w s) :
    DecidedBy s w r [(s.count k == maxChannels s.cfg k, .capacityExceeded), (baud == 0, .zeroBaud)] := by
  rw [register_eq] at hr
  simp only [apply_ite Host.Outcome.next] at hr
  exact .ite hr beq_iff_eq (.ite rfl beq_iff_eq (.nil rfl hs.1))

theorem exec_read_empty {a : Byte} {ch : Channel} (hs : s.Ready) (hc : s.channel ⟨.listener, a.toNat⟩ = some ch)
    (hempty : ch.buf.size = 0) :
    exec (.read a) s = .next (s.faulted .bufferEmpty (encodeHeader (.read a))) := by
  refine (accept_withChannel_some hs hc _ _).trans ?_
  rw [Fifo.pop_empty hempty]
  rfl

theorem exec_peek_empty {a : Byte} {ch : Channel} (hs : s.Ready) (hc : s.channel ⟨.listener, a.toNat⟩ = some ch)
    (hempty : ch.buf.size = 0) :
    exec (.peek a) s = .next (s.faulted .bufferEmpty (encodeHeader (.peek a))) := by
  refine (accept_withChannel_some hs hc _ _).trans ?_
  rw [Fifo.peek_empty hempty]
  rfl

/-- `Peek` and `Pop` answer where the FIFO holds a byte (R108, R109). -/
theorem Fifo.exists_pop_of_size_ne_zero {f : Fifo} (c : Nat) (hsize : f.size ≠ 0) :
    ∃ b f', f.peek c = some b ∧ f.pop c = some (b, f') := by
  obtain ⟨b, bs, hcont⟩ := List.exists_cons_of_ne_nil (mt Fifo.contents_eq_nil.mp hsize : f.contents c ≠ [])
  obtain ⟨hpeek, hpop, -⟩ := Fifo.pop_spec hcont
  exact ⟨b, _, hpeek, hpop⟩

/-- SEND to an allocated talker completes (R167). -/
theorem decidedBy_send {a : Byte} {bytes : List Byte} {ch : Channel} (hs : s.Ready)
    (hc : s.channel ⟨.talker, a.toNat⟩ = some ch) : DecidedBy s w (exec (.send a bytes) s) [] := by
  by_cases hfit : ch.buf.size + bytes.length ≤ s.cfg.bufferMaxSize
  · obtain ⟨buf', hpush⟩ := Option.ne_none_iff_exists'.mp (Fifo.pushAll_ne_none bytes hfit)
    exact .nil (exec_send_fits hs hc hfit hpush) hs.1
  · exact .nil (exec_send_tooMany hs hc (Nat.lt_of_not_le hfit)) hs.1

/-! ### Every command -/

/-- Each command's checks are the branches of its meaning, in their order (R204). -/
theorem exec_decidedBy_checks (hs : s.Ready) (i : Instr) :
    DecidedBy s (encodeHeader i) (exec i s) (checks s i) := by
  cases i with
  | listen pin baud => exact decidedBy_register hs (accept_ready hs _)
  | talk pin baud => exact decidedBy_register hs (accept_ready hs _)
  | begin =>
    have hframe := ChannelFrame.foldl ChannelFrame.beginChannel s.order s
    exact .nil (accept_ready hs _) (hframe.fault.trans hs.1)
  | tick =>
    have hframe := ChannelFrame.foldl ChannelFrame.stepChannel s.order s
    have hexec : exec .tick s = _ := (accept_ready hs _).trans (ite_not ..).symm
    exact .ite hexec (by simp [State.allConfigured]) (.nil rfl (hframe.fault.trans hs.1))
  | awaitAll =>
    refine .ite (exec_awaitAll hs) (by simp [State.listenersConfigured]) ?_
    split <;> exact .nil rfl hs.1
  | send a bytes => exact .handle hs rfl fun _ hc => decidedBy_send hs hc
  | tell a bytes =>
    refine .handle hs rfl fun ch hc => ?_
    rw [badChannel_of_channel hc, badChannel_of_channel hc]
    refine .ite (exec_tell hs hc) (by simp) (.ite rfl (by simp [or_assoc]) (.nil rfl ?_))
    split <;> exact hs.1
  | read a =>
    refine .handle hs rfl fun ch hc => ?_
    rw [badChannel_of_channel hc]
    refine .cons (fun hbad => exec_read_empty hs hc (beq_iff_eq.mp hbad)) fun hbad => ?_
    obtain ⟨b, buf', -, hpop⟩ := Fifo.exists_pop_of_size_ne_zero s.cfg.bufferMaxSize (beq_eq_false_iff_ne.mp hbad)
    exact .nil (exec_read hs hc hpop) hs.1
  | peek a =>
    refine .handle hs rfl fun ch hc => ?_
    rw [badChannel_of_channel hc]
    refine .cons (fun hbad => exec_peek_empty hs hc (beq_iff_eq.mp hbad)) fun hbad => ?_
    obtain ⟨b, -, hpeek, -⟩ := Fifo.exists_pop_of_size_ne_zero s.cfg.bufferMaxSize (beq_eq_false_iff_ne.mp hbad)
    exact .nil (exec_peek hs hc hpeek) hs.1
  | bufferedCount k a => exact .handle hs rfl fun _ hc => .nil (exec_bufferedCount hs hc) hs.1
  | isAvailable k a => exact .handle hs rfl fun _ hc => .nil (exec_isAvailable hs hc) hs.1
  | recieve a n =>
    refine .handle hs rfl fun ch hc => ?_
    rw [badChannel_of_channel hc, badChannel_of_channel hc]
    exact .ite (exec_recieve hs hc) decide_eq_true_iff (.ite rfl (by simp) (.ite rfl (by simp) (.nil rfl hs.1)))
  | isActivated k a => exact .handle hs rfl fun _ hc => .nil (exec_isActivated hs hc) hs.1
  | await a =>
    refine .handle hs rfl fun ch hc => ?_
    rw [badChannel_of_channel hc]
    refine .ite (exec_await hs hc) (by simp) ?_
    split <;> exact .nil rfl hs.1
  | reset k a => exact .handle hs rfl fun _ hc => .nil (exec_reset hs hc) hs.1

/-- Settles O12: it is `exec_decidedBy_checks`. -/
theorem firstFailingCheckDecidesTheFault : Obligations.FirstFailingCheckDecidesTheFault :=
  fun i _ hs => exec_decidedBy_checks hs i

end Sys2Proof.Machine
end

section
/-! What a blocking command's micro-step leaves alone (R215): every channel but the command's own, or, for AWAIT_ALL,
every talker and every available listener. -/

namespace Sys2Proof.Machine

variable {s t : State} {i : Nat}

/-- AWAIT writes the record of its listener and no other (R141). -/
theorem awaitMicro_slots (h : awaitMicro i s = .next t) :
    t.talkers = s.talkers ∧ ∃ ch, t.listeners = s.listeners.set i ch := by
  obtain ⟨ch, -, ⟨-, rfl⟩ | ⟨-, rfl⟩⟩ := awaitMicro_next h
  · exact ⟨rfl, _, rfl⟩
  · exact ⟨rfl, _, rfl⟩

/-- RECIEVE writes the record of its listener and no other (R143). -/
theorem recieveMicro_slots {n ts : Nat} {ph : RecievePhase} (h : recieveMicro i n ph ts s = .next t) :
    t.talkers = s.talkers ∧ ∃ ch, t.listeners = s.listeners.set i ch := by
  obtain ⟨ch, -, ⟨-, -, rfl⟩ | ⟨-, rfl⟩⟩ := recieveMicro_next h
  · exact ⟨rfl, _, rfl⟩
  · exact ⟨rfl, _, rfl⟩

/-- TELL writes the record of its talker and no other (R170). -/
theorem tellMicro_slots {idx : Nat} {sched : List (Nat × Level)} {t0 : Option Nat}
    (h : tellMicro i sched idx t0 s = .next t) :
    t.listeners = s.listeners ∧ ∃ ch, t.talkers = s.talkers.set i ch := by
  obtain ⟨ch, off, lvl, hc, -, ⟨-, rfl⟩ | ⟨-, -, rfl⟩ | ⟨-, -, rfl⟩⟩ := tellMicro_next h
  · obtain ⟨hi, rfl⟩ := List.getElem?_eq_some_iff.mp hc
    exact ⟨rfl, s.talkers[i], (List.set_getElem_self hi).symm⟩
  · exact ⟨rfl, _, rfl⟩
  · exact ⟨rfl, _, rfl⟩

/-- Settles O56: a step of a running command is its micro-step (`microStep_of_step`), which for AWAIT, RECIEVE and TELL
writes one slot, and for AWAIT_ALL is a pass that skips the available listeners (`awaitedTo_step`). -/
theorem blockingStepsFreezeOtherChannels : Obligations.BlockingStepsFreezeOtherChannels := by
  intro s t hr h
  have others {l l' : List Channel} {i : Nat} (hset : ∃ ch, l' = l.set i ch) : ∀ j, j ≠ i → l'[j]? = l[j]? := by
    obtain ⟨ch, rfl⟩ := hset
    exact fun j hj => List.getElem?_set_ne hj.symm
  refine ⟨fun i he => ?_, fun i n ph ts he => ?_, fun i sched idx t0 he => ?_, fun he => ?_⟩
  all_goals obtain ⟨hf, hmicro⟩ := microStep_of_step hr (by simp [he]) h
  all_goals simp only [microStep, he] at hmicro
  · exact (awaitMicro_slots hmicro).imp id others
  · exact (recieveMicro_slots hmicro).imp id others
  · exact (tellMicro_slots hmicro).imp id others
  · obtain rfl := next_inj ((step_awaitAll hf hr he).symm.trans h)
    refine ⟨awaitedTo_talkers s _, fun j ch hc hav => ?_⟩
    obtain ⟨-, hstep⟩ := awaitedTo_step hc
    rwa [if_pos hav] at hstep

end Sys2Proof.Machine
end
